-- ==== Sys2Proof/Word.lean ====
section
/-!
DEFINITION. The word types of PWS-CORE: an F32 is held as its 32-bit pattern (00_scope.md R9), a
command or a response is one 64-bit word (30_encoding.md R81, R83).
-/
namespace Sys2Proof

/-- The bit pattern of a binary32 value (00_scope.md R9): sign bit 31, exponent field 30:23, fraction 22:0. -/
abbrev F32 := BitVec 32

/-- One byte of a host bus narrower than a command word (20_memory.md R65). -/
abbrev Byte := BitVec 8

/-- A command or response word (30_encoding.md R81, R83). -/
abbrev Word64 := BitVec 64

end Sys2Proof
end

