-- ==== Sys2Proof/Syntax.lean ====
section
/-!
DEFINITION. The commands of PWS-CORE, one constructor per row of spec/opcode_table.json (30_encoding.md R85),
and the names of the registers and enumerations their fields select.
-/
namespace Sys2Proof

/-- The modulated-delay effects, `MDMODE` 0 to 3 (42_mod_delay.md R147). -/
inductive MdMode where
  | chorus | flanger | vibrato | barberpole
deriving DecidableEq, Repr

/-- The filter types, `BQTYPE` 0 to 7 (44_biquad.md R177). -/
inductive BqType where
  | lpf | hpf | bpf | notch | peak | lowshelf | highshelf | apf
deriving DecidableEq, Repr

/-- The structural forms, `BQFORM` 0 to 2 (44_biquad.md R178); the value 3 is never held (10_state.md R33). -/
inductive BqForm where
  | df1 | tdf2 | df2
deriving DecidableEq, Repr

/-- The registers `RDREG` reads that exist once (10_state.md R23, R25, R31, R32, R33, R36). -/
inductive GlobalReg where
  | status | errflags | errlast | sr | nch | version | nchmax | capmax
  | cap | dly | notediv | interp
  | mdmode | mdrate | mdratehz | mddepth | mdbase
  | pssemi | psrate
  | bqtype | bqform | bqf | bqq | bqg | b0 | b1 | b2 | a0 | a1 | a2
  | g1 | g2
deriving DecidableEq, Repr

/-- The registers `RDREG` reads that exist once per channel (10_state.md R25, R31, R32, R34, R36). -/
inductive ChannelReg where
  | widx | t | psdly
  | x1 | x2 | y1 | y2 | r1 | r2 | w1 | w2
  | pw1 | pw2 | pv
deriving DecidableEq, Repr

/-- What the `SEL` field of `RDREG` names (40_lifecycle.md R102). -/
inductive RegName where
  | global (r : GlobalReg)
  | channel (r : ChannelReg)
deriving DecidableEq, Repr

/-- A legal command word, one constructor per row of the opcode table. `ch` is the channel number, `n` a
channel count, an `F32` operand is the pattern of `OPD` (30_encoding.md R81, R82). -/
inductive Instr where
  /-- `NOP` (40_lifecycle.md R100). -/
  | nop
  /-- `PREPARE n, sampleRate` (R101). -/
  | prepare (n : BitVec 8) (rate : F32)
  /-- `RDREG ch, reg` (R102). -/
  | rdreg (ch : BitVec 8) (reg : RegName)
  /-- `CLRERR` (R103). -/
  | clrerr
  /-- `DL_CONFIG n, capacity` (41_delay_line.md R111). -/
  | dlConfig (n : BitVec 8) (capacity : BitVec 32)
  /-- `DL_SET_DELAY samples` (R113). -/
  | dlSetDelay (samples : F32)
  /-- `DL_SET_DELAY_BPM bpm` (R114). -/
  | dlSetDelayBpm (bpm : F32)
  /-- `DL_SET_NOTEDIV v` (R115). -/
  | dlSetNotediv (v : F32)
  /-- `DL_SET_INTERP v` (R112). -/
  | dlSetInterp (v : Bool)
  /-- `DL_PUSH ch, sample` (R118). -/
  | dlPush (ch : BitVec 8) (x : F32)
  /-- `DL_POP ch` (R119). -/
  | dlPop (ch : BitVec 8)
  /-- `DL_STEP ch, sample` (R120). -/
  | dlStep (ch : BitVec 8) (x : F32)
  /-- `DL_PEEK ch, index` (R121). -/
  | dlPeek (ch : BitVec 8) (index : BitVec 32)
  /-- `MD_SET_MODE m` (42_mod_delay.md R141). -/
  | mdSetMode (m : MdMode)
  /-- `MD_SET_RATE percent` (R143). -/
  | mdSetRate (percent : F32)
  /-- `MD_SET_DEPTH samples` (R144). -/
  | mdSetDepth (samples : F32)
  /-- `MD_SET_BASE samples` (R145). -/
  | mdSetBase (samples : F32)
  /-- `MD_SET_PREDELAY_MS ms` (R146). -/
  | mdSetPredelayMs (ms : F32)
  /-- `MD_STEP ch, sample` (R149). -/
  | mdStep (ch : BitVec 8) (x : F32)
  /-- `PS_SET_SEMITONES s` (43_pitch_shift.md R162). -/
  | psSetSemitones (semitones : F32)
  /-- `PS_STEP ch, sample` (R165). -/
  | psStep (ch : BitVec 8) (x : F32)
  /-- `BQ_SET_TYPE t` (44_biquad.md R177). -/
  | bqSetType (t : BqType)
  /-- `BQ_SET_FORM f` (R178). -/
  | bqSetForm (f : BqForm)
  /-- `BQ_SET_FREQ hz` (R179). -/
  | bqSetFreq (hz : F32)
  /-- `BQ_SET_Q q` (R180). -/
  | bqSetQ (q : F32)
  /-- `BQ_SET_GAIN db` (R181). -/
  | bqSetGain (db : F32)
  /-- `BQ_UPDATE` (R182). -/
  | bqUpdate
  /-- `BQ_STEP ch, sample` (R190). -/
  | bqStep (ch : BitVec 8) (x : F32)
  /-- `NAPF_SET_G1 g` (45_nested_apf.md R211). -/
  | napfSetG1 (g : F32)
  /-- `NAPF_SET_G2 g` (R212). -/
  | napfSetG2 (g : F32)
  /-- `NAPF_STEP ch, sample` (R213). -/
  | napfStep (ch : BitVec 8) (x : F32)
deriving DecidableEq, Repr

end Sys2Proof
end

