-- ==== Sys2Proof/WellFormed.lean ====
section
/-!
DEFINITION. Which terms of `Instr` stand for a legal command word (30_encoding.md R86). The enumerations, the
register names and the field widths are excluded by the types; the one check left is that `RDREG` of a
register that exists once carries channel 0 (R86, 40_lifecycle.md R102).
-/
namespace Sys2Proof

/-- The channel of a `RDREG` must be 0 when the register is not per channel (30_encoding.md R86). -/
def RegName.channelOk (reg : RegName) (ch : BitVec 8) : Bool :=
  match reg with
  | .global _ => ch == 0
  | .channel _ => true

/-- A well-formed command. -/
def Instr.wellFormed : Instr → Bool
  | .rdreg ch reg => reg.channelOk ch
  | .nop | .prepare .. | .clrerr | .dlConfig .. | .dlSetDelay _ | .dlSetDelayBpm _ | .dlSetNotediv _
  | .dlSetInterp _ | .dlPush .. | .dlPop _ | .dlStep .. | .dlPeek .. | .mdSetMode _ | .mdSetRate _
  | .mdSetDepth _ | .mdSetBase _ | .mdSetPredelayMs _ | .mdStep .. | .psSetSemitones _ | .psStep ..
  | .bqSetType _ | .bqSetForm _ | .bqSetFreq _ | .bqSetQ _ | .bqSetGain _ | .bqUpdate | .bqStep ..
  | .napfSetG1 _ | .napfSetG2 _ | .napfStep .. => true

end Sys2Proof
end

