-- ==== Sys2Proof/Decode.lean ====
section
/-!
DEFINITION. Decoding and encoding of command words (30_encoding.md R81, R82, R85, R86): the fields of format C, the
opcodes, register numbers and enumeration values, the decoder (total; it rejects by name), the encoder, and the
mask-and-value rows of spec/opcode_table.json.
-/
namespace Sys2Proof

/-! ## The fields of format C (30_encoding.md R81) -/

/-- `OPC`, bits 63:56. -/
def opcField (w : Word64) : BitVec 8 := w.extractLsb' 56 8
/-- `CH`, bits 55:48. -/
def chField (w : Word64) : BitVec 8 := w.extractLsb' 48 8
/-- `SEL`, bits 47:40. -/
def selField (w : Word64) : BitVec 8 := w.extractLsb' 40 8
/-- `RSV`, bits 39:32. -/
def rsvField (w : Word64) : BitVec 8 := w.extractLsb' 32 8
/-- `OPD`, bits 31:0. -/
def opdField (w : Word64) : BitVec 32 := w.extractLsb' 0 32

/-- A command word is `OPC ++ CH ++ SEL ++ RSV ++ OPD` (R81). -/
def commandWord (opc ch sel rsv : BitVec 8) (opd : BitVec 32) : Word64 :=
  opc ++ ch ++ sel ++ rsv ++ opd

/-- The word a narrower host bus carries as eight bytes, the least significant part first (20_memory.md R65). -/
def wordOfBytes (bytes : List Byte) : Option Word64 :=
  match bytes with
  | [b0, b1, b2, b3, b4, b5, b6, b7] => some (b7 ++ b6 ++ b5 ++ b4 ++ b3 ++ b2 ++ b1 ++ b0)
  | _ => none

/-- The eight bytes of a word on a narrower host bus, the least significant part first (20_memory.md R65). -/
def bytesOfWord (w : Word64) : List Byte :=
  [w.extractLsb' 0 8, w.extractLsb' 8 8, w.extractLsb' 16 8, w.extractLsb' 24 8,
   w.extractLsb' 32 8, w.extractLsb' 40 8, w.extractLsb' 48 8, w.extractLsb' 56 8]

/-! ## Opcodes (30_encoding.md R85) -/

/-- The `OPC` value of each command (R85). -/
def Instr.opcode : Instr → BitVec 8
  | .nop => 0x00#8
  | .prepare .. => 0x01#8
  | .rdreg .. => 0x02#8
  | .clrerr => 0x03#8
  | .dlConfig .. => 0x10#8
  | .dlSetDelay _ => 0x11#8
  | .dlSetDelayBpm _ => 0x12#8
  | .dlSetNotediv _ => 0x13#8
  | .dlSetInterp _ => 0x14#8
  | .dlPush .. => 0x15#8
  | .dlPop _ => 0x16#8
  | .dlStep .. => 0x17#8
  | .dlPeek .. => 0x18#8
  | .mdSetMode _ => 0x20#8
  | .mdSetRate _ => 0x21#8
  | .mdSetDepth _ => 0x22#8
  | .mdSetBase _ => 0x23#8
  | .mdSetPredelayMs _ => 0x24#8
  | .mdStep .. => 0x25#8
  | .psSetSemitones _ => 0x30#8
  | .psStep .. => 0x31#8
  | .bqSetType _ => 0x40#8
  | .bqSetForm _ => 0x41#8
  | .bqSetFreq _ => 0x42#8
  | .bqSetQ _ => 0x43#8
  | .bqSetGain _ => 0x44#8
  | .bqUpdate => 0x45#8
  | .bqStep .. => 0x46#8
  | .napfSetG1 _ => 0x50#8
  | .napfSetG2 _ => 0x51#8
  | .napfStep .. => 0x52#8

/-- The value of the `CH` field: the channel operand, or 0 where R85 marks it `0`. -/
def Instr.channel : Instr → BitVec 8
  | .rdreg ch _ | .dlPush ch _ | .dlPop ch | .dlStep ch _ | .dlPeek ch _ | .mdStep ch _ | .psStep ch _
  | .bqStep ch _ | .napfStep ch _ => ch
  | .nop | .prepare .. | .clrerr | .dlConfig .. | .dlSetDelay _ | .dlSetDelayBpm _ | .dlSetNotediv _
  | .dlSetInterp _ | .mdSetMode _ | .mdSetRate _ | .mdSetDepth _ | .mdSetBase _ | .mdSetPredelayMs _
  | .psSetSemitones _ | .bqSetType _ | .bqSetForm _ | .bqSetFreq _ | .bqSetQ _ | .bqSetGain _ | .bqUpdate
  | .napfSetG1 _ | .napfSetG2 _ => 0#8

/-! ## Register numbers and enumeration values -/

/-- The register numbers (10_state.md R23, R25, R31, R32, R33, R34, R36). -/
def RegName.number : RegName → BitVec 8
  | .global .status => 0x00#8
  | .global .errflags => 0x01#8
  | .global .errlast => 0x02#8
  | .global .sr => 0x03#8
  | .global .nch => 0x04#8
  | .global .version => 0x05#8
  | .global .nchmax => 0x06#8
  | .global .capmax => 0x07#8
  | .global .cap => 0x10#8
  | .global .dly => 0x11#8
  | .global .notediv => 0x12#8
  | .global .interp => 0x13#8
  | .channel .widx => 0x14#8
  | .global .mdmode => 0x20#8
  | .global .mdrate => 0x21#8
  | .global .mdratehz => 0x22#8
  | .global .mddepth => 0x23#8
  | .global .mdbase => 0x24#8
  | .channel .t => 0x25#8
  | .global .pssemi => 0x30#8
  | .global .psrate => 0x31#8
  | .channel .psdly => 0x32#8
  | .global .bqtype => 0x40#8
  | .global .bqform => 0x41#8
  | .global .bqf => 0x42#8
  | .global .bqq => 0x43#8
  | .global .bqg => 0x44#8
  | .global .b0 => 0x48#8
  | .global .b1 => 0x49#8
  | .global .b2 => 0x4A#8
  | .global .a0 => 0x4B#8
  | .global .a1 => 0x4C#8
  | .global .a2 => 0x4D#8
  | .channel .x1 => 0x50#8
  | .channel .x2 => 0x51#8
  | .channel .y1 => 0x52#8
  | .channel .y2 => 0x53#8
  | .channel .r1 => 0x54#8
  | .channel .r2 => 0x55#8
  | .channel .w1 => 0x56#8
  | .channel .w2 => 0x57#8
  | .global .g1 => 0x60#8
  | .global .g2 => 0x61#8
  | .channel .pw1 => 0x62#8
  | .channel .pw2 => 0x63#8
  | .channel .pv => 0x64#8

/-- Every register that exists once. -/
def GlobalReg.all : List GlobalReg :=
  [.status, .errflags, .errlast, .sr, .nch, .version, .nchmax, .capmax, .cap, .dly, .notediv, .interp,
   .mdmode, .mdrate, .mdratehz, .mddepth, .mdbase, .pssemi, .psrate, .bqtype, .bqform, .bqf, .bqq, .bqg,
   .b0, .b1, .b2, .a0, .a1, .a2, .g1, .g2]

/-- Every register that exists once per channel. -/
def ChannelReg.all : List ChannelReg :=
  [.widx, .t, .psdly, .x1, .x2, .y1, .y2, .r1, .r2, .w1, .w2, .pw1, .pw2, .pv]

/-- Every register `RDREG` can name. -/
def RegName.all : List RegName := GlobalReg.all.map .global ++ ChannelReg.all.map .channel

/-- The register a number of `SEL` names; a number that names none is illegal (30_encoding.md R86 (e)). -/
def RegName.ofNumber (n : BitVec 8) : Option RegName := RegName.all.find? fun r => r.number == n

/-- `MDMODE` values (42_mod_delay.md R147). -/
def MdMode.value : MdMode → BitVec 32
  | .chorus => 0#32
  | .flanger => 1#32
  | .vibrato => 2#32
  | .barberpole => 3#32

/-- The mode an operand names; above 3 is illegal (R141). -/
def MdMode.ofValue (v : BitVec 32) : Option MdMode :=
  [MdMode.chorus, .flanger, .vibrato, .barberpole].find? fun m => m.value == v

/-- `BQTYPE` values (44_biquad.md R177). -/
def BqType.value : BqType → BitVec 32
  | .lpf => 0#32
  | .hpf => 1#32
  | .bpf => 2#32
  | .notch => 3#32
  | .peak => 4#32
  | .lowshelf => 5#32
  | .highshelf => 6#32
  | .apf => 7#32

/-- The type an operand names; above 7 is illegal (R177). -/
def BqType.ofValue (v : BitVec 32) : Option BqType :=
  [BqType.lpf, .hpf, .bpf, .notch, .peak, .lowshelf, .highshelf, .apf].find? fun t => t.value == v

/-- `BQFORM` values (44_biquad.md R178). -/
def BqForm.value : BqForm → BitVec 32
  | .df1 => 0#32
  | .tdf2 => 1#32
  | .df2 => 2#32

/-- The form an operand names; above 2 is illegal (R178). -/
def BqForm.ofValue (v : BitVec 32) : Option BqForm :=
  [BqForm.df1, .tdf2, .df2].find? fun f => f.value == v

/-- `INTERP` values (41_delay_line.md R112). -/
def interpValue (v : Bool) : BitVec 32 := if v then 1#32 else 0#32

/-- The bit an operand of `DL_SET_INTERP` names; above 1 is illegal (R112). -/
def interpOfValue (v : BitVec 32) : Option Bool := [false, true].find? fun b => interpValue b == v

/-! ## The decoder -/

/-- Why a word is not a legal command (30_encoding.md R86). All answers of the block are the same: cause 9. -/
inductive DecodeError where
  /-- R86 (a): `OPC` is not in the table of R85. -/
  | unassignedOpcode
  /-- R86 (b): `RSV` is not zero. -/
  | reservedNonzero
  /-- R86 (c): a `CH` marked `0` is not zero, also `RDREG` of a register that is not per channel. -/
  | channelNonzero
  /-- R86 (c): a `SEL` marked `0` is not zero. -/
  | selectorNonzero
  /-- R86 (c): an `OPD` marked `-` is not zero. -/
  | operandNonzero
  /-- R86 (d): the operand of an enumeration command is out of range. -/
  | enumerationOutOfRange
  /-- R86 (e): the `SEL` of `RDREG` is not a register number. -/
  | unassignedRegister
deriving DecidableEq, Repr

/-- Go on only when a field R85 marks `0` or `-` is zero (R86 (c)). -/
def whenZero {n : Nat} (field : BitVec n) (e : DecodeError) (k : Except DecodeError Instr) : Except DecodeError Instr :=
  if field = 0#n then k else .error e

/-- A command with no operand: `CH`, `SEL` and `OPD` are zero. -/
def decodeBare (ch sel : BitVec 8) (opd : BitVec 32) (i : Instr) : Except DecodeError Instr :=
  whenZero ch .channelNonzero <| whenZero sel .selectorNonzero <| whenZero opd .operandNonzero <| .ok i

/-- A setter: `CH` and `SEL` are zero and `OPD` is the operand. -/
def decodeSetter (ch sel : BitVec 8) (i : Instr) : Except DecodeError Instr :=
  whenZero ch .channelNonzero <| whenZero sel .selectorNonzero <| .ok i

/-- A setter of an enumeration (R86 (d)). -/
def decodeEnum {α : Type} (ch sel : BitVec 8) (value : Option α) (mk : α → Instr) : Except DecodeError Instr :=
  whenZero ch .channelNonzero <| whenZero sel .selectorNonzero <|
    match value with
    | some v => .ok (mk v)
    | none => .error .enumerationOutOfRange

/-- `RDREG` (R86 (e), 40_lifecycle.md R102). -/
def decodeRdreg (ch sel : BitVec 8) (opd : BitVec 32) : Except DecodeError Instr :=
  whenZero opd .operandNonzero <|
    match RegName.ofNumber sel with
    | some reg => if reg.channelOk ch then .ok (.rdreg ch reg) else .error .channelNonzero
    | none => .error .unassignedRegister

/-- The command is selected by `OPC` alone; the other fields never select a different one (R85). -/
def decodeFields (opc ch sel : BitVec 8) (opd : BitVec 32) : Except DecodeError Instr :=
  if opc = 0x00#8 then decodeBare ch sel opd .nop
  else if opc = 0x01#8 then whenZero ch .channelNonzero (.ok (.prepare sel opd))
  else if opc = 0x02#8 then decodeRdreg ch sel opd
  else if opc = 0x03#8 then decodeBare ch sel opd .clrerr
  else if opc = 0x10#8 then whenZero ch .channelNonzero (.ok (.dlConfig sel opd))
  else if opc = 0x11#8 then decodeSetter ch sel (.dlSetDelay opd)
  else if opc = 0x12#8 then decodeSetter ch sel (.dlSetDelayBpm opd)
  else if opc = 0x13#8 then decodeSetter ch sel (.dlSetNotediv opd)
  else if opc = 0x14#8 then decodeEnum ch sel (interpOfValue opd) .dlSetInterp
  else if opc = 0x15#8 then whenZero sel .selectorNonzero (.ok (.dlPush ch opd))
  else if opc = 0x16#8 then whenZero sel .selectorNonzero (whenZero opd .operandNonzero (.ok (.dlPop ch)))
  else if opc = 0x17#8 then whenZero sel .selectorNonzero (.ok (.dlStep ch opd))
  else if opc = 0x18#8 then whenZero sel .selectorNonzero (.ok (.dlPeek ch opd))
  else if opc = 0x20#8 then decodeEnum ch sel (MdMode.ofValue opd) .mdSetMode
  else if opc = 0x21#8 then decodeSetter ch sel (.mdSetRate opd)
  else if opc = 0x22#8 then decodeSetter ch sel (.mdSetDepth opd)
  else if opc = 0x23#8 then decodeSetter ch sel (.mdSetBase opd)
  else if opc = 0x24#8 then decodeSetter ch sel (.mdSetPredelayMs opd)
  else if opc = 0x25#8 then whenZero sel .selectorNonzero (.ok (.mdStep ch opd))
  else if opc = 0x30#8 then decodeSetter ch sel (.psSetSemitones opd)
  else if opc = 0x31#8 then whenZero sel .selectorNonzero (.ok (.psStep ch opd))
  else if opc = 0x40#8 then decodeEnum ch sel (BqType.ofValue opd) .bqSetType
  else if opc = 0x41#8 then decodeEnum ch sel (BqForm.ofValue opd) .bqSetForm
  else if opc = 0x42#8 then decodeSetter ch sel (.bqSetFreq opd)
  else if opc = 0x43#8 then decodeSetter ch sel (.bqSetQ opd)
  else if opc = 0x44#8 then decodeSetter ch sel (.bqSetGain opd)
  else if opc = 0x45#8 then decodeBare ch sel opd .bqUpdate
  else if opc = 0x46#8 then whenZero sel .selectorNonzero (.ok (.bqStep ch opd))
  else if opc = 0x50#8 then decodeSetter ch sel (.napfSetG1 opd)
  else if opc = 0x51#8 then decodeSetter ch sel (.napfSetG2 opd)
  else if opc = 0x52#8 then whenZero sel .selectorNonzero (.ok (.napfStep ch opd))
  else .error .unassignedOpcode

/-- The command a word stands for, or why the word is illegal (30_encoding.md R86). -/
def decode (w : Word64) : Except DecodeError Instr :=
  if rsvField w = 0#8 then decodeFields (opcField w) (chField w) (selField w) (opdField w)
  else .error .reservedNonzero

/-- The decoder behind a host bus that carries bytes (20_memory.md R65): a command word is taken whole or not at
all (R66), so any other number of bytes is no command. -/
def decodeBytes (bytes : List Byte) : Option (Except DecodeError Instr) := (wordOfBytes bytes).map decode

/-- What the decoder reads from an instruction whose bits are `w`, `nbits` of them, every bit above zero. -/
def decodeTableWord (nbits w : Nat) : Option Instr :=
  let v := w % 2 ^ nbits
  if v < 2 ^ 64 then
    match decode (BitVec.ofNat 64 v) with
    | .ok i => some i
    | .error _ => none
  else none

/-! ## The encoder -/

/-- The value of the `SEL` field (R81, R85). -/
def Instr.selector : Instr → BitVec 8
  | .prepare n _ | .dlConfig n _ => n
  | .rdreg _ reg => reg.number
  | .nop | .clrerr | .dlSetDelay _ | .dlSetDelayBpm _ | .dlSetNotediv _ | .dlSetInterp _ | .dlPush .. | .dlPop _
  | .dlStep .. | .dlPeek .. | .mdSetMode _ | .mdSetRate _ | .mdSetDepth _ | .mdSetBase _ | .mdSetPredelayMs _
  | .mdStep .. | .psSetSemitones _ | .psStep .. | .bqSetType _ | .bqSetForm _ | .bqSetFreq _ | .bqSetQ _
  | .bqSetGain _ | .bqUpdate | .bqStep .. | .napfSetG1 _ | .napfSetG2 _ | .napfStep .. => 0#8

/-- The value of the `OPD` field (R82, R85). -/
def Instr.operand : Instr → BitVec 32
  | .nop | .rdreg .. | .clrerr | .dlPop _ | .bqUpdate => 0#32
  | .prepare _ v | .dlConfig _ v | .dlSetDelay v | .dlSetDelayBpm v | .dlSetNotediv v | .dlPush _ v | .dlStep _ v
  | .dlPeek _ v | .mdSetRate v | .mdSetDepth v | .mdSetBase v | .mdSetPredelayMs v | .mdStep _ v
  | .psSetSemitones v | .psStep _ v | .bqSetFreq v | .bqSetQ v | .bqSetGain v | .bqStep _ v | .napfSetG1 v
  | .napfSetG2 v | .napfStep _ v => v
  | .dlSetInterp v => interpValue v
  | .mdSetMode m => m.value
  | .bqSetType t => t.value
  | .bqSetForm f => f.value

/-- The word of a command (30_encoding.md R81). -/
def encode (i : Instr) : Word64 := commandWord i.opcode i.channel i.selector 0#8 i.operand

/-! ## The rows of spec/opcode_table.json -/

/-- One row: a word is the command of the row exactly when its bits under `mask` are `value` (30_encoding.md R86). -/
structure TableRow where
  mnemonic : String
  mask : Word64
  value : Word64
deriving DecidableEq, Repr

/-- The 31 rows, in the table's order. -/
def tableRows : List TableRow :=
  [⟨"NOP", 0xFFFFFFFFFFFFFFFF#64, 0x0000000000000000#64⟩,
   ⟨"PREPARE", 0xFFFF00FF00000000#64, 0x0100000000000000#64⟩,
   ⟨"RDREG", 0xFF0000FFFFFFFFFF#64, 0x0200000000000000#64⟩,
   ⟨"CLRERR", 0xFFFFFFFFFFFFFFFF#64, 0x0300000000000000#64⟩,
   ⟨"DL_CONFIG", 0xFFFF00FF00000000#64, 0x1000000000000000#64⟩,
   ⟨"DL_SET_DELAY", 0xFFFFFFFF00000000#64, 0x1100000000000000#64⟩,
   ⟨"DL_SET_DELAY_BPM", 0xFFFFFFFF00000000#64, 0x1200000000000000#64⟩,
   ⟨"DL_SET_NOTEDIV", 0xFFFFFFFF00000000#64, 0x1300000000000000#64⟩,
   ⟨"DL_SET_INTERP", 0xFFFFFFFFFFFFFFFE#64, 0x1400000000000000#64⟩,
   ⟨"DL_PUSH", 0xFF00FFFF00000000#64, 0x1500000000000000#64⟩,
   ⟨"DL_POP", 0xFF00FFFFFFFFFFFF#64, 0x1600000000000000#64⟩,
   ⟨"DL_STEP", 0xFF00FFFF00000000#64, 0x1700000000000000#64⟩,
   ⟨"DL_PEEK", 0xFF00FFFF00000000#64, 0x1800000000000000#64⟩,
   ⟨"MD_SET_MODE", 0xFFFFFFFFFFFFFFFC#64, 0x2000000000000000#64⟩,
   ⟨"MD_SET_RATE", 0xFFFFFFFF00000000#64, 0x2100000000000000#64⟩,
   ⟨"MD_SET_DEPTH", 0xFFFFFFFF00000000#64, 0x2200000000000000#64⟩,
   ⟨"MD_SET_BASE", 0xFFFFFFFF00000000#64, 0x2300000000000000#64⟩,
   ⟨"MD_SET_PREDELAY_MS", 0xFFFFFFFF00000000#64, 0x2400000000000000#64⟩,
   ⟨"MD_STEP", 0xFF00FFFF00000000#64, 0x2500000000000000#64⟩,
   ⟨"PS_SET_SEMITONES", 0xFFFFFFFF00000000#64, 0x3000000000000000#64⟩,
   ⟨"PS_STEP", 0xFF00FFFF00000000#64, 0x3100000000000000#64⟩,
   ⟨"BQ_SET_TYPE", 0xFFFFFFFFFFFFFFF8#64, 0x4000000000000000#64⟩,
   ⟨"BQ_SET_FORM", 0xFFFFFFFFFFFFFFFC#64, 0x4100000000000000#64⟩,
   ⟨"BQ_SET_FREQ", 0xFFFFFFFF00000000#64, 0x4200000000000000#64⟩,
   ⟨"BQ_SET_Q", 0xFFFFFFFF00000000#64, 0x4300000000000000#64⟩,
   ⟨"BQ_SET_GAIN", 0xFFFFFFFF00000000#64, 0x4400000000000000#64⟩,
   ⟨"BQ_UPDATE", 0xFFFFFFFFFFFFFFFF#64, 0x4500000000000000#64⟩,
   ⟨"BQ_STEP", 0xFF00FFFF00000000#64, 0x4600000000000000#64⟩,
   ⟨"NAPF_SET_G1", 0xFFFFFFFF00000000#64, 0x5000000000000000#64⟩,
   ⟨"NAPF_SET_G2", 0xFFFFFFFF00000000#64, 0x5100000000000000#64⟩,
   ⟨"NAPF_STEP", 0xFF00FFFF00000000#64, 0x5200000000000000#64⟩]

/-- A word matches a row (30_encoding.md R86). -/
def TableRow.matches (r : TableRow) (w : Word64) : Bool := (w &&& r.mask) == r.value

/-- The three illegal cases R86 says cannot be written as a mask: `BQ_SET_FORM` with `OPD` = 3, `RDREG` with an
unassigned `SEL`, and `RDREG` with a nonzero `CH` and a register that is not per channel. -/
def illegalBeyondMasks (w : Word64) : Bool :=
  (opcField w == 0x41#8 && opdField w == 3#32) ||
  (opcField w == 0x02#8 &&
    match RegName.ofNumber (selField w) with
    | some reg => !reg.channelOk (chField w)
    | none => true)

end Sys2Proof
end

