-- ==== Sys2Proof/Config.lean ====
section
/-!
DEFINITION. What an implementation fixes and what the spec leaves open (00_scope.md R6, R10, R13).
Every `opaque` constant here has no body: no proof can learn a value of it.
-/
namespace Sys2Proof

/-- DESIGN CHOICE (notes/assumptions/3.md): the value the register `NCHMAX` holds at reset, the spec's suggested one
(00_scope.md R6). Nothing but `State.reset` uses it: every meaning reads the register. -/
def Config.nchMax : Nat := 2

/-- DESIGN CHOICE (notes/assumptions/3.md): the value the register `CAPMAX` holds at reset, the spec's suggested one
(00_scope.md R6). -/
def Config.capMax : Nat := 131072

/-- The open sine of the record NUM (00_scope.md R10, D2), before laws L2 and L4 are imposed. -/
opaque Config.sinRaw : F32 → F32

/-- The open cosine of the record NUM (00_scope.md R10, D2), before laws L2 and L4 are imposed. -/
opaque Config.cosRaw : F32 → F32

/-- The open 2^x of the record NUM (00_scope.md R10, D2), before laws L2, L3 and L5 are imposed. -/
opaque Config.exp2Raw : F32 → F32

/-- The open 10^x of the record NUM (00_scope.md R10, D2), before laws L2 and L5 are imposed. -/
opaque Config.pow10Raw : F32 → F32

/-- The free choice of a NaN pattern (00_scope.md R10: "Which NaN (sign and payload) any operation returns is
not fixed: a model draws it"; 93_implementation_defined.md U10). The first argument is the model's command
counter `State.draws`, the second the place of the operation in its command's rule, so every operation of
every command draws its own. Log entry notes/assumptions/5.md. -/
opaque Config.nanDraw : Nat → Nat → BitVec 32

end Sys2Proof
end

