-- ==== Sys2Proof/Machine/State.lean ====
section
/-!
DEFINITION. The state of PWS-CORE (10_state.md), the outcomes' reasons, and the state after hardware reset
(10_state.md R39, 70_reset_and_hazards.md R250).
-/
namespace Sys2Proof.Machine

/-- The block has no fault and no stuck state: "PWS-CORE answers every command word with a response and takes the
next" (93_implementation_defined.md part 1). So there is no constructor, and no step can answer a fault. -/
inductive Fault where
deriving DecidableEq, Repr

/-- Why a step has no meaning. -/
inductive Refusal where
  /-- Raised by an arm of `exec` for a command that has no meaning yet (safe: nothing follows of it). No arm of this
  model answers it. -/
  | notModelled (mnemonic : String)
deriving DecidableEq, Repr

/-- The cause codes 0 to 9 of a response (60_exceptions.md R221). -/
inductive Cause where
  | ok | invalidConfiguration | channelMismatch | delayOutOfRange | invalidFilterParameter
  | invalidOperand | notPrepared | notConfigured | badChannel | illegalCommand
deriving DecidableEq, Repr

/-- The registers that exist once per channel (10_state.md R25, R31, R32, R34, R36). -/
structure ChanRegs where
  /-- `WIDX`, the next slot to be written (R25, R26), below 2^24. -/
  widx : Nat
  /-- `T`, the LFO time in seconds (R31). -/
  t : F32
  /-- `PSDLY`, the slewing delay in samples (R32). -/
  psdly : F32
  /-- `X1`, Direct Form I (R34). -/
  x1 : F32
  /-- `X2`, Direct Form I (R34). -/
  x2 : F32
  /-- `Y1`, Direct Form I (R34). -/
  y1 : F32
  /-- `Y2`, Direct Form I (R34). -/
  y2 : F32
  /-- `R1`, Direct Form II Transposed (R34). -/
  r1 : F32
  /-- `R2`, Direct Form II Transposed (R34). -/
  r2 : F32
  /-- `W1`, Direct Form II (R34). -/
  w1 : F32
  /-- `W2`, Direct Form II (R34). -/
  w2 : F32
  /-- `PW1`, nested all-pass (R36). -/
  pw1 : F32
  /-- `PW2`, nested all-pass (R36). -/
  pw2 : F32
  /-- `PV`, nested all-pass (R36). -/
  pv : F32
deriving DecidableEq, Repr

/-- Every per-channel register at 0 or +0.0: its value after hardware reset (10_state.md R39) and after a successful
`PREPARE` (40_lifecycle.md R101). -/
def ChanRegs.cleared : ChanRegs :=
  { widx := 0, t := 0#32, psdly := 0#32, x1 := 0#32, x2 := 0#32, y1 := 0#32, y2 := 0#32, r1 := 0#32, r2 := 0#32,
    w1 := 0#32, w2 := 0#32, pw1 := 0#32, pw2 := 0#32, pv := 0#32 }

/-- The coefficient registers `B0 B1 B2 A0 A1 A2` (10_state.md R33), one set for all channels. -/
structure Coeffs where
  b0 : F32
  b1 : F32
  b2 : F32
  a0 : F32
  a1 : F32
  a2 : F32
deriving DecidableEq, Repr

/-- The delay RAM (20_memory.md R60): the words that differ from what an unlisted word reads as, by address, the
addresses strictly rising. The address of a word is `ramAddress` (Machine/Ops.lean). The RAM is word-addressed
(10_state.md R37), so a cell is one 32-bit word (notes/assumptions/7.md). -/
structure Memory where
  cells : List (Nat × F32)
deriving DecidableEq, Repr

/-- What a word of the delay RAM that is not listed reads as: +0.0, "the fill value of `DL_CONFIG` if none" was
written since (20_memory.md R70 (c), 41_delay_line.md R111). Before the first `DL_CONFIG` the contents are
unspecified and unreachable (10_state.md R27); notes/assumptions/6.md. -/
def Memory.unlisted : F32 := 0#32

/-- The state of one PWS-CORE instance. -/
structure State where
  /-- `PREPARED`, `STATUS` bit 0 (10_state.md R23). -/
  prepared : Bool
  /-- `DLCONF`, `STATUS` bit 1 (R23). -/
  dlConf : Bool
  /-- `BQVALID`, `STATUS` bit 2 (R23). -/
  bqValid : Bool
  /-- `ERRFLAGS` (R23). -/
  errFlags : BitVec 32
  /-- `ERRLAST` (R23). -/
  errLast : BitVec 32
  /-- `SR`, the sample rate in Hz (R23). -/
  sr : F32
  /-- `NCH`, the prepared channel count (R23). -/
  nch : Nat
  /-- `NCHMAX`, the parameter `NCH_MAX` (R23, 00_scope.md R6); no command changes it (00_scope.md R13). -/
  nchMax : Nat
  /-- `CAPMAX`, the parameter `CAP_MAX` (R23, 00_scope.md R6); no command changes it (00_scope.md R13). -/
  capMax : Nat
  /-- `CAP`, the capacity in samples, 0 when not configured (R25). -/
  cap : Nat
  /-- `DLY`, one delay for all channels (R25, R30). -/
  dly : F32
  /-- `NOTEDIV` (R25). -/
  noteDiv : F32
  /-- `INTERP` (R25). -/
  interp : Bool
  /-- `MDMODE` (R31). -/
  mdMode : MdMode
  /-- `MDRATE`, normalized to [0,1] (R31). -/
  mdRate : F32
  /-- `MDRATEHZ` (R31). -/
  mdRateHz : F32
  /-- `MDDEPTH`, in samples (R31). -/
  mdDepth : F32
  /-- `MDBASE`, in samples (R31). -/
  mdBase : F32
  /-- `PSSEMI` (R32). -/
  psSemi : F32
  /-- `PSRATE` (R32). -/
  psRate : F32
  /-- `BQTYPE` (R33). -/
  bqType : BqType
  /-- `BQFORM` (R33). -/
  bqForm : BqForm
  /-- `BQF`, Hz (R33). -/
  bqF : F32
  /-- `BQQ` (R33). -/
  bqQ : F32
  /-- `BQG`, dB (R33). -/
  bqG : F32
  /-- `B0 B1 B2 A0 A1 A2` (R33). -/
  coef : Coeffs
  /-- `G1` (R36). -/
  g1 : F32
  /-- `G2` (R36). -/
  g2 : F32
  /-- The per-channel registers of channels 0 to `NCH_MAX` - 1, in order (R22). -/
  chans : List ChanRegs
  /-- `BUF`, the delay RAM (R25, R37). -/
  mem : Memory
  /-- The command words the host has sent and the sequencer has not taken, in order (00_scope.md R12,
  70_reset_and_hazards.md R254). -/
  cmdIn : List Word64
  /-- The response words the sequencer has emitted, in order (30_encoding.md R83, 70_reset_and_hazards.md R254). -/
  rspOut : List Word64
  /-- The MODEL's own: how many commands have completed, the argument that makes the drawn NaN patterns of each
  command fresh (00_scope.md R10; notes/assumptions/5.md). -/
  draws : Nat
deriving DecidableEq, Repr

/-- The state after hardware reset of a block built with the given `NCH_MAX` and `CAP_MAX` (10_state.md R39,
70_reset_and_hazards.md R250), with nothing sent to it yet. -/
def State.resetWith (nchMax capMax : Nat) : State :=
  { prepared := false, dlConf := false, bqValid := false
    errFlags := 0x00000000#32, errLast := 0x00000000#32
    sr := 0x00000000#32, nch := 0, nchMax := nchMax, capMax := capMax
    cap := 0, dly := 0x00000000#32, noteDiv := 0x3F800000#32, interp := true
    mdMode := .chorus, mdRate := 0x00000000#32, mdRateHz := 0x3DCCCCCD#32
    mdDepth := 0x00000000#32, mdBase := 0x00000000#32
    psSemi := 0x00000000#32, psRate := 0x00000000#32
    bqType := .lpf, bqForm := .tdf2
    bqF := 0x447A0000#32, bqQ := 0x3F34FDF4#32, bqG := 0x00000000#32
    coef := { b0 := 0#32, b1 := 0#32, b2 := 0#32, a0 := 0#32, a1 := 0#32, a2 := 0#32 }
    g1 := 0x00000000#32, g2 := 0x00000000#32
    chans := List.replicate nchMax ChanRegs.cleared
    mem := { cells := [] }
    cmdIn := [], rspOut := [], draws := 0 }

/-- The machine right after hardware reset, with the parameters of Config (notes/assumptions/3.md). -/
def State.reset : State := State.resetWith Config.nchMax Config.capMax

end Sys2Proof.Machine
end

