-- ==== Sys2Proof/Machine/Flags.lean ====
section
/-!
DEFINITION. The flags of PWS-CORE: the cause codes (60_exceptions.md R221), the error registers (10_state.md R23,
60_exceptions.md R222), the `STATUS` view and the output `err_o`. No arithmetic condition code and no floating-point
flag exists (10_state.md R24).
-/
namespace Sys2Proof.Machine

/-- The code a response carries in `CAUSE` (60_exceptions.md R221). -/
def Cause.code : Cause → BitVec 8
  | .ok => 0#8
  | .invalidConfiguration => 1#8
  | .channelMismatch => 2#8
  | .delayOutOfRange => 3#8
  | .invalidFilterParameter => 4#8
  | .invalidOperand => 5#8
  | .notPrepared => 6#8
  | .notConfigured => 7#8
  | .badChannel => 8#8
  | .illegalCommand => 9#8

/-- `ERRFLAGS` after a command that ends with a cause: `raise Err(c)` sets bit c, a success changes nothing (R222). -/
def errFlagsAfter (flags : BitVec 32) (c : Cause) : BitVec 32 :=
  match c with
  | .ok => flags
  | c => flags ||| (1#32 <<< c.code.toNat)

/-- `ERRLAST` after a command that ends with a cause: `(OPC << 8) or c`, a success changes nothing (R222). -/
def errLastAfter (last : BitVec 32) (opc : BitVec 8) (c : Cause) : BitVec 32 :=
  match c with
  | .ok => last
  | c => 0#16 ++ opc ++ c.code

/-- A bit as a 32-bit value (10_state.md R22). -/
def bitValue (b : Bool) : BitVec 32 := if b then 1#32 else 0#32

/-- `err_o`, the optional level output: 1 exactly while `ERRFLAGS` is not zero (60_exceptions.md R235). -/
def State.errO (s : State) : Bool := s.errFlags != 0#32

/-- `STATUS`: bit 0 `PREPARED`, bit 1 `DLCONF`, bit 2 `BQVALID`, bit 3 `ERR`, bits 31:4 zero (10_state.md R23). -/
def State.status (s : State) : BitVec 32 :=
  0#28 ++ BitVec.ofBool s.errO ++ BitVec.ofBool s.bqValid ++ BitVec.ofBool s.dlConf ++ BitVec.ofBool s.prepared

/-- `VERSION`, read-only (10_state.md R23). -/
def versionWord : BitVec 32 := 0x00010000#32

/-- The response word (30_encoding.md R83). -/
def responseWord (opc ch : BitVec 8) (c : Cause) (val : BitVec 32) : Word64 :=
  opc ++ ch ++ 0#8 ++ c.code ++ val

end Sys2Proof.Machine
end

