-- ==== Sys2Proof/Machine/Float.lean ====
section
/-!
DEFINITION. The exact part of the numerics record NUM (00_scope.md R9, R10): IEEE 754 binary32, round to nearest, ties
to even, subnormals kept, no fused operation. Every finite F32 is a whole multiple of 2^-149, so the operations are
done on integers in that unit and rounded once. An operation that returns a NaN returns the pattern it is given
for it, its first argument (R10: which NaN is not fixed; notes/assumptions/5.md).
-/
namespace Sys2Proof.Machine

/-! ## Reading a pattern -/

/-- The exponent field, bits 30:23. -/
def expField (x : F32) : Nat := (x.toNat / 2 ^ 23) % 256

/-- The fraction field, bits 22:0. -/
def fracField (x : F32) : Nat := x.toNat % 2 ^ 23

/-- The sign bit. -/
def signBit (x : F32) : Bool := x.msb

/-- A NaN: exponent field all ones, fraction not zero. -/
def isNaN (x : F32) : Bool := expField x == 255 && fracField x != 0

/-- An infinity. -/
def isInf (x : F32) : Bool := expField x == 255 && fracField x == 0

/-- `fisfinite`: neither an infinity nor a NaN (00_scope.md R10). -/
def fisfinite (x : F32) : Bool := expField x != 255

/-- +0.0 or -0.0. -/
def isZero (x : F32) : Bool := x.toNat % 2 ^ 31 == 0

/-- The magnitude of a value in units of 2^-149. An infinity stands just above the largest finite value, at 2^128. -/
def units (x : F32) : Nat :=
  if expField x = 0 then fracField x else (2 ^ 23 + fracField x) * 2 ^ (expField x - 1)

/-- The value in units of 2^-149, with its sign. -/
def signedUnits (x : F32) : Int := if signBit x then -(units x : Int) else (units x : Int)

/-- 1.0 in units of 2^-149. -/
def oneUnits : Nat := 2 ^ 149

/-! ## Rounding and packing -/

/-- `n / d` rounded to the nearest integer, ties to even. -/
def roundHalfEven (n d : Nat) : Nat :=
  let q := n / d
  let r := n % d
  if d < 2 * r ∨ (2 * r = d ∧ q % 2 = 1) then q + 1 else q

/-- The 31 low bits of the F32 nearest to `num / den` units of 2^-149, ties to even; an overflow gives infinity. -/
def roundUnits (num den : Nat) : Nat :=
  let k := Nat.log2 (num / den) - 23
  min (k * 2 ^ 23 + roundHalfEven num (den * 2 ^ k)) 0x7F800000

/-- The pattern with the given sign and low 31 bits. -/
def packF32 (sign : Bool) (mag : Nat) : F32 := BitVec.ofNat 32 ((if sign then 2 ^ 31 else 0) + mag)

/-- The infinity of a sign. -/
def infinity (sign : Bool) : F32 := packF32 sign 0x7F800000

/-- The F32 nearest to an integer number of units, ties to even; zero gives the given sign. -/
def ofUnits (zeroSign : Bool) (z : Int) : F32 :=
  if z = 0 then packF32 zeroSign 0 else packF32 (decide (z < 0)) (roundUnits z.natAbs 1)

/-! ## Arithmetic (00_scope.md R10) -/

/-- Negation: the sign bit inverted. -/
def fneg (x : F32) : F32 := x ^^^ 0x80000000#32

/-- `fadd`. -/
def fadd (nan a b : F32) : F32 :=
  if isNaN a || isNaN b then nan
  else if isInf a then (if isInf b && signBit a != signBit b then nan else a)
  else if isInf b then b
  else ofUnits (signBit a && signBit b) (signedUnits a + signedUnits b)

/-- `fsub`. -/
def fsub (nan a b : F32) : F32 := if isNaN b then nan else fadd nan a (fneg b)

/-- `fmul`. -/
def fmul (nan a b : F32) : F32 :=
  let sign := signBit a != signBit b
  if isNaN a || isNaN b then nan
  else if isInf a || isInf b then (if isZero a || isZero b then nan else infinity sign)
  else packF32 sign (roundUnits (units a * units b) oneUnits)

/-- `fdiv`. -/
def fdiv (nan a b : F32) : F32 :=
  let sign := signBit a != signBit b
  if isNaN a || isNaN b then nan
  else if isInf a then (if isInf b then nan else infinity sign)
  else if isInf b then packF32 sign 0
  else if isZero b then (if isZero a then nan else infinity sign)
  else packF32 sign (roundUnits (units a * oneUnits) (units b))

/-- The integer square root of `n`, for `n` below 2^(2 * bits), found bit by bit from the top. -/
def isqrt (n : Nat) : Nat → Nat → Nat
  | 0, r => r
  | b + 1, r => isqrt n b (if (r + 2 ^ b) * (r + 2 ^ b) ≤ n then r + 2 ^ b else r)

/-- `fsqrt`, correctly rounded: the integer root in units of 2^-149 with one more bit that says whether it is exact. -/
def fsqrt (nan a : F32) : F32 :=
  if isNaN a then nan
  else if isZero a then a
  else if signBit a then nan
  else if isInf a then a
  else
    let n := units a * oneUnits
    let r := isqrt n 214 0
    packF32 false (roundUnits (2 * r + (if r * r = n then 0 else 1)) 2)

/-- `ffloor`: the largest integral F32 not above the operand; a zero and an infinity are themselves. -/
def ffloor (nan a : F32) : F32 :=
  if isNaN a then nan
  else if isInf a || isZero a then a
  else ofUnits false (signedUnits a / (oneUnits : Int) * (oneUnits : Int))

/-! ## Comparisons (00_scope.md R10): false when either operand is a NaN -/

/-- `flt`. -/
def flt (a b : F32) : Bool := !isNaN a && !isNaN b && decide (signedUnits a < signedUnits b)

/-- `fle`. -/
def fle (a b : F32) : Bool := !isNaN a && !isNaN b && decide (signedUnits a ≤ signedUnits b)

/-- `feq`: +0 equals -0. -/
def feq (a b : F32) : Bool := !isNaN a && !isNaN b && decide (signedUnits a = signedUnits b)

/-! ## Conversions (00_scope.md R10) -/

/-- `f2i`, exact for an integral finite operand. It is only applied to such values (00_scope.md R10); what this
definition answers elsewhere is used nowhere the machine can reach (notes/assumptions/9.md). -/
def f2i (a : F32) : Int := signedUnits a / (oneUnits : Int)

/-- `i2f`: the nearest F32, ties to even. -/
def i2f (i : Int) : F32 := ofUnits false (i * (oneUnits : Int))

/-! ## NaN patterns -/

/-- A drawn pattern made a NaN: every NaN pattern is some draw, and no draw is anything else (00_scope.md R10,
93_implementation_defined.md U10). -/
def nanOf (draw : BitVec 32) : F32 := if isNaN draw then draw else 0x7FC00000#32

/-! ## Constants (00_scope.md R11): the F32 nearest each literal -/

/-- +0.0 -/
def c0 : F32 := 0x00000000#32
/-- 0.1 -/
def cTenth : F32 := 0x3DCCCCCD#32
/-- 0.5 -/
def cHalf : F32 := 0x3F000000#32
/-- 1.0 -/
def c1 : F32 := 0x3F800000#32
/-- 2 -/
def c2 : F32 := 0x40000000#32
/-- -2 -/
def cNeg2 : F32 := 0xC0000000#32
/-- 5 -/
def c5 : F32 := 0x40A00000#32
/-- 10 -/
def c10 : F32 := 0x41200000#32
/-- 12 -/
def c12 : F32 := 0x41400000#32
/-- 40 -/
def c40 : F32 := 0x42200000#32
/-- 60 -/
def c60 : F32 := 0x42700000#32
/-- 100 -/
def c100 : F32 := 0x42C80000#32
/-- 1000 -/
def c1000 : F32 := 0x447A0000#32
/-- `PI`, the binary32 nearest pi (00_scope.md R10). -/
def cPi : F32 := 0x40490FDB#32

end Sys2Proof.Machine
end

