-- ==== Sys2Proof/Machine/Num.lean ====
section
/-!
DEFINITION. The open part of the numerics record NUM (00_scope.md R10, 92_eei_decisions.md D2): sine, cosine, 2^x and
10^x as free functions of the operand (law L1), held to laws L2 to L5 and to nothing else. A function that keeps the
laws passes each definition unchanged; where the free constant of Config breaks a law, the definition answers a
value that keeps it (notes/assumptions/4.md).
-/
namespace Sys2Proof.Machine

/-- Law L4: finite and of magnitude at most 1.0. -/
def lawL4 (r : F32) : Bool := fisfinite r && decide (units r ≤ oneUnits)

/-- Law L5: not a NaN and not negative; -0.0 is not below zero (notes/assumptions/15.md). -/
def lawL5 (r : F32) : Bool := fle c0 r

/-- `fsin`: `fsin(+0) = +0` (L2); L4 for a finite operand. -/
def fsin (x : F32) : F32 :=
  if x = c0 then c0
  else if fisfinite x && !lawL4 (Config.sinRaw x) then c0
  else Config.sinRaw x

/-- `fcos`: `fcos(+0) = fcos(-0) = 1.0` (L2); L4 for a finite operand. -/
def fcos (x : F32) : F32 :=
  if isZero x then c1
  else if fisfinite x && !lawL4 (Config.cosRaw x) then c1
  else Config.cosRaw x

/-- An integral operand of `fexp2` with -126 <= k <= 127 (L3). -/
def isExp2Exact (x : F32) : Bool :=
  fisfinite x && units x % oneUnits == 0 && decide (-126 ≤ f2i x) && decide (f2i x ≤ 127)

/-- The pattern of 2^k, for -126 <= k <= 127: a fraction of zero under the exponent field k + 127. -/
def pow2 (k : Int) : F32 := packF32 false ((k + 127).toNat * 2 ^ 23)

/-- `fexp2`: `fexp2(+0) = fexp2(-0) = 1.0` (L2), `fexp2(k) = 2^k` (L3); L5 for a finite operand. -/
def fexp2 (x : F32) : F32 :=
  if isExp2Exact x then pow2 (f2i x)
  else if fisfinite x && !lawL5 (Config.exp2Raw x) then c1
  else Config.exp2Raw x

/-- `fpow10`: `fpow10(+0) = fpow10(-0) = 1.0` (L2); L5 for a finite operand. -/
def fpow10 (x : F32) : F32 :=
  if isZero x then c1
  else if fisfinite x && !lawL5 (Config.pow10Raw x) then c1
  else Config.pow10Raw x

end Sys2Proof.Machine
end

