-- ==== Sys2Proof/Machine/Operands.lean ====
section
/-!
DEFINITION. The operand kinds (30_encoding.md R82) and the shared computations on delays and indices (20_memory.md R62,
41_delay_line.md R116, R122, 43_pitch_shift.md R164). A computation that can return a NaN takes its source of drawn
NaN patterns, one number per operation (notes/assumptions/5.md).
-/
namespace Sys2Proof.Machine

/-! ## Operand kinds (30_encoding.md R82) -/

/-- Kind `F`: the F32 whose pattern is `OPD`. -/
def operandF (opd : BitVec 32) : F32 := opd

/-- Kind `S`: a 32-bit two's complement integer. -/
def operandS (opd : BitVec 32) : Int := opd.toInt

/-- Kind `U`: a 32-bit unsigned integer. -/
def operandU (opd : BitVec 32) : Nat := opd.toNat

/-! ## Index arithmetic (20_memory.md R62) -/

/-- `i mod C` for an integer i: the Euclidean remainder, never negative (00_scope.md R7). -/
def modCap (i : Int) (c : Nat) : Nat := (i % (c : Int)).toNat

/-- (a) advance. -/
def advance (widx c : Nat) : Nat := modCap ((widx : Int) + 1) c

/-- (b) the newest slot, the one of the most recent write. -/
def newestSlot (widx c : Nat) : Nat := modCap ((widx : Int) - 1) c

/-- (c) the slot `n` writes before the newest. -/
def delayedSlot (widx c : Nat) (n : Int) : Nat := modCap ((newestSlot widx c : Int) - n) c

/-! ## Delays -/

/-- A delay a read accepts: 0 <= d < C (41_delay_line.md R113). -/
def delayInRange (d fC : F32) : Bool := fle c0 d && flt d fC

/-- Wrapping a negative delay once (41_delay_line.md R122). -/
def wrapNeg (nan d fC : F32) : F32 := if flt d c0 then fadd nan d fC else d

/-- Wrapping into [0, C) from either side, one step each way (43_pitch_shift.md R164). -/
def wrapBoth (nan : Nat → F32) (d : F32) (c : Nat) : F32 :=
  let fc := i2f c
  let d := if flt d c0 then fadd (nan 0) d fc else d
  if fle fc d then fsub (nan 1) d fc else d

/-- The integer part of a delay (41_delay_line.md R116). -/
def splitInt (nan : Nat → F32) (d : F32) : Int := f2i (ffloor (nan 0) d)

/-- The fraction part of a delay (41_delay_line.md R116). -/
def splitFrac (nan : Nat → F32) (d : F32) : F32 := fsub (nan 1) d (ffloor (nan 0) d)

/-- The interpolation `((1.0 - fr) * s0) + (fr * s1)`: four operations, in the order subtract, multiply, multiply, add
(41_delay_line.md R117). That the result lies between the two samples is not assumed (R123): the statement
InterpolationBounds says it within a tolerance (notes/assumptions/27.md). -/
def interpolate (nan : Nat → F32) (fr s0 s1 : F32) : F32 :=
  fadd (nan 5) (fmul (nan 3) (fsub (nan 2) c1 fr) s0) (fmul (nan 4) fr s1)

/-- A source of NaN patterns moved on by `k` operations. -/
def laterDraws (nan : Nat → F32) (k : Nat) : Nat → F32 := fun site => nan (k + site)

end Sys2Proof.Machine
end

