-- ==== Sys2Proof/Machine/Ops.lean ====
section
/-!
DEFINITION. The named operations over the delay RAM and the registers, how a command ends (`respond` and `raise Err`,
the block's whole exception mechanism, 60_exceptions.md R222, R235), the common checks (R228 to R232), and the shared
steps of the delay engines (41_delay_line.md R117, R118).
-/
namespace Sys2Proof.Machine

/-- What a command answers. -/
abbrev Result := Host.Outcome State Fault Refusal

/-! ## The delay RAM (20_memory.md R60, R61) -/

/-- The address of the word (ch, i). The channel field has 8 bits, so no two words share an address. -/
def ramAddress (ch : BitVec 8) (i : Nat) : Nat := i * 256 + ch.toNat

/-- The word a list of cells holds at an address. -/
def readCells : List (Nat × F32) → Nat → F32
  | [], _ => Memory.unlisted
  | (k, v) :: rest, a => if k = a then v else readCells rest a

/-- A cell put before a list; a word that reads as an unlisted one is not listed. -/
def consCell (a : Nat) (v : F32) (rest : List (Nat × F32)) : List (Nat × F32) :=
  if v = Memory.unlisted then rest else (a, v) :: rest

/-- The cells after a write, in rising order of address. -/
def writeCells : List (Nat × F32) → Nat → F32 → List (Nat × F32)
  | [], a, v => consCell a v []
  | (k, w) :: rest, a, v =>
    if a < k then consCell a v ((k, w) :: rest)
    else if a = k then consCell a v rest
    else (k, w) :: writeCells rest a v

/-- The canonical form: addresses strictly rising, no cell equal to what an unlisted word reads as. -/
def Memory.wf (m : Memory) : Bool :=
  decide (m.cells.Pairwise fun a b => a.1 < b.1) && m.cells.all fun c => c.2 != Memory.unlisted

/-- One word of the RAM. -/
def Memory.read (m : Memory) (a : Nat) : F32 := readCells m.cells a

/-- One word written. -/
def Memory.write (m : Memory) (a : Nat) (v : F32) : Memory := { cells := writeCells m.cells a v }

/-- An address that is a word of the rows of channels below `nch`, index below `cap`. -/
def inRows (nch cap a : Nat) : Bool := decide (a % 256 < nch) && decide (a / 256 < cap)

/-- +0.0 written to every word of the rows of channels below `nch`, index below `cap` (41_delay_line.md R111): a word
of +0.0 is one that is not listed. -/
def Memory.fillRows (m : Memory) (nch cap : Nat) : Memory :=
  { cells := m.cells.filter fun c => !inRows nch cap c.1 }

/-- `MemRead((ch,i), 1)` (20_memory.md R61). -/
def State.memRead (s : State) (ch : BitVec 8) (i : Nat) : F32 := s.mem.read (ramAddress ch i)

/-- `MemWrite((ch,i), 1, v)` (20_memory.md R61). -/
def State.memWrite (s : State) (ch : BitVec 8) (i : Nat) (v : F32) : State :=
  { s with mem := s.mem.write (ramAddress ch i) v }

/-! ## Per-channel registers (10_state.md R22) -/

/-- The registers of a channel. A channel at or above `NCH_MAX` has none (no command reaches one: every channel is
checked against `NCH`); the list then answers the cleared registers (notes/assumptions/8.md). -/
def State.chan (s : State) (ch : BitVec 8) : ChanRegs := s.chans.getD ch.toNat ChanRegs.cleared

/-- The registers of one channel written. -/
def State.setChan (s : State) (ch : BitVec 8) (c : ChanRegs) : State := { s with chans := s.chans.set ch.toNat c }

/-! ## How a command ends (60_exceptions.md R222, 30_encoding.md R83) -/

/-- The command completes with a cause and a value: the error registers record a cause from 1 to 9, the response word
is emitted, and the next command will draw its own NaN patterns. Everything else the command wrote stands. -/
def State.finish (s : State) (opc ch : BitVec 8) (c : Cause) (val : BitVec 32) : State :=
  { s with
    errFlags := errFlagsAfter s.errFlags c
    errLast := errLastAfter s.errLast opc c
    rspOut := s.rspOut ++ [responseWord opc ch c val]
    draws := s.draws + 1 }

/-- `respond(v)` (30_encoding.md R83). -/
def State.respond (s : State) (i : Instr) (val : BitVec 32) : Result := .next (s.finish i.opcode i.channel .ok val)

/-- `raise Err(c)` (60_exceptions.md R222): the whole of what an error does. Nothing is vectored, saved or resumed
(R235), so there is no return from it. -/
def State.raise (s : State) (i : Instr) (c : Cause) (val : BitVec 32) : Result :=
  .next (s.finish i.opcode i.channel c val)

/-- The source of NaN patterns of the command being performed (00_scope.md R10): one number per operation. -/
def State.nan (s : State) (site : Nat) : F32 := nanOf (Config.nanDraw s.draws site)

/-! ## The common checks, in their order (60_exceptions.md R228 to R230, R232) -/

/-- `NotPrepared`, then `NotConfigured` for a command that needs the delay line, then `BadChannel` for a command with a
channel operand; a command that fails one answers `failVal` and changes nothing but the error registers. -/
def State.checked (s : State) (i : Instr) (needsLine hasChannel : Bool) (failVal : BitVec 32) (body : Result) : Result :=
  if !s.prepared then s.raise i .notPrepared failVal
  else if needsLine && !s.dlConf then s.raise i .notConfigured failVal
  else if hasChannel && !decide (i.channel.toNat < s.nch) then s.raise i .badChannel failVal
  else body

/-! ## The delay line's shared steps -/

/-- `fC`, the capacity as an F32 (41_delay_line.md R110). -/
def State.capF (s : State) : F32 := i2f s.cap

/-- The push: write the sample at `WIDX[ch]`, then advance `WIDX[ch]` (41_delay_line.md R118). -/
def State.push (s : State) (ch : BitVec 8) (x : F32) : State :=
  (s.memWrite ch (s.chan ch).widx x).setChan ch { s.chan ch with widx := advance (s.chan ch).widx s.cap }

/-- The sample a whole delay of `n` names: `n` slots before the most recent write (41_delay_line.md R117). -/
def State.tap (s : State) (ch : BitVec 8) (n : Int) : F32 := s.memRead ch (delayedSlot (s.chan ch).widx s.cap n)

/-- The fractional delay read (41_delay_line.md R117). -/
def State.fracRead (s : State) (nan : Nat → F32) (ch : BitVec 8) (d : F32) : F32 :=
  let n := splitInt nan d
  let s0 := s.tap ch n
  if s.interp then interpolate nan (splitFrac nan d) s0 (s.tap ch (n + 1)) else s0

/-- `psInit`: the initial pitch-shift delay (43_pitch_shift.md R163). -/
def psInit (nan : Nat → F32) (rate : F32) (c : Nat) : F32 :=
  if flt rate c0 then
    let m := fsub (nan 0) c0 rate
    let fm := fsub (nan 2) m (ffloor (nan 1) m)
    wrapBoth (laterDraws nan 4) (fmul (nan 3) (i2f c) fm) c
  else c0

end Sys2Proof.Machine
end

