-- ==== Sys2Proof/Machine/Coefficients.lean ====
section
/-!
DEFINITION. The biquad coefficient update `updateCoefficients()` (44_biquad.md R176, R183 to R186), shared by `PREPARE` and
the `BQ_SET_` commands and `BQ_UPDATE`. The formulas beyond the source's fragments are the spec's, from general
knowledge (notes/assumptions/14.md).
-/
namespace Sys2Proof.Machine

/-- `bqParamsValid()` (R176): Q > 0, 0 <= f < SR/2; false for a NaN. -/
def State.bqParamsValid (s : State) : Bool :=
  flt c0 s.bqQ && fle c0 s.bqF && flt s.bqF (fdiv (s.nan 60) s.sr c2)

/-- `w0 = ((2 * PI) * BQF) / SR` (R183). -/
def bqW0 (nan : Nat → F32) (f sr : F32) : F32 := fdiv (nan 2) (fmul (nan 1) (fmul (nan 0) c2 cPi) f) sr

/-- `alpha = sn / (2 * BQQ)` (R183). -/
def bqAlpha (nan : Nat → F32) (sn q : F32) : F32 := fdiv (nan 4) sn (fmul (nan 3) c2 q)

/-- `A = fpow10(BQG / 40)` (R183), used by PEAK, LOWSHELF and HIGHSHELF only. -/
def bqGainA (nan : Nat → F32) (g : F32) : F32 := fpow10 (fdiv (nan 5) g c40)

/-- A type without gain: its numerator over the denominators all five share, `a0 = 1 + alpha`, `a1 = -2 * cs`,
`a2 = 1 - alpha` (R184). -/
def withPlainDenominator (nan : Nat → F32) (cs alpha b0 b1 b2 : F32) : Coeffs :=
  { b0 := b0, b1 := b1, b2 := b2
    a0 := fadd (nan 10) c1 alpha, a1 := fmul (nan 11) cNeg2 cs, a2 := fsub (nan 12) c1 alpha }

/-- LPF (R184). -/
def rawLpf (nan : Nat → F32) (cs alpha : F32) : Coeffs :=
  withPlainDenominator nan cs alpha
    (fdiv (nan 14) (fsub (nan 13) c1 cs) c2) (fsub (nan 15) c1 cs) (fdiv (nan 17) (fsub (nan 16) c1 cs) c2)

/-- HPF (R184). -/
def rawHpf (nan : Nat → F32) (cs alpha : F32) : Coeffs :=
  withPlainDenominator nan cs alpha
    (fdiv (nan 14) (fadd (nan 13) c1 cs) c2) (fsub (nan 16) c0 (fadd (nan 15) c1 cs))
    (fdiv (nan 18) (fadd (nan 17) c1 cs) c2)

/-- BPF, constant 0 dB peak gain (R184). -/
def rawBpf (nan : Nat → F32) (cs alpha : F32) : Coeffs :=
  withPlainDenominator nan cs alpha alpha c0 (fsub (nan 13) c0 alpha)

/-- NOTCH (R184). -/
def rawNotch (nan : Nat → F32) (cs alpha : F32) : Coeffs :=
  withPlainDenominator nan cs alpha c1 (fmul (nan 13) cNeg2 cs) c1

/-- APF (R184). -/
def rawApf (nan : Nat → F32) (cs alpha : F32) : Coeffs :=
  withPlainDenominator nan cs alpha
    (fsub (nan 13) c1 alpha) (fmul (nan 14) cNeg2 cs) (fadd (nan 15) c1 alpha)

/-- PEAK (R185). -/
def rawPeak (nan : Nat → F32) (cs alpha a : F32) : Coeffs :=
  let aA := fmul (nan 20) alpha a
  let aoA := fdiv (nan 21) alpha a
  { b0 := fadd (nan 22) c1 aA, b1 := fmul (nan 23) cNeg2 cs, b2 := fsub (nan 24) c1 aA
    a0 := fadd (nan 25) c1 aoA, a1 := fmul (nan 26) cNeg2 cs, a2 := fsub (nan 27) c1 aoA }

/-- `beta = (2 * sq) * alpha` with `sq = fsqrt(A)` (R185). -/
def shelfBeta (nan : Nat → F32) (alpha a : F32) : F32 :=
  fmul (nan 22) (fmul (nan 21) c2 (fsqrt (nan 20) a)) alpha

/-- LOWSHELF (R185). -/
def rawLowshelf (nan : Nat → F32) (cs alpha a : F32) : Coeffs :=
  let beta := shelfBeta nan alpha a
  let ap := fadd (nan 23) a c1
  let am := fsub (nan 24) a c1
  let pc := fmul (nan 25) ap cs
  let mc := fmul (nan 26) am cs
  { b0 := fmul (nan 29) a (fadd (nan 28) (fsub (nan 27) ap mc) beta)
    b1 := fmul (nan 32) (fmul (nan 30) c2 a) (fsub (nan 31) am pc)
    b2 := fmul (nan 35) a (fsub (nan 34) (fsub (nan 33) ap mc) beta)
    a0 := fadd (nan 37) (fadd (nan 36) ap mc) beta
    a1 := fmul (nan 39) cNeg2 (fadd (nan 38) am pc)
    a2 := fsub (nan 41) (fadd (nan 40) ap mc) beta }

/-- HIGHSHELF (R185). -/
def rawHighshelf (nan : Nat → F32) (cs alpha a : F32) : Coeffs :=
  let beta := shelfBeta nan alpha a
  let ap := fadd (nan 23) a c1
  let am := fsub (nan 24) a c1
  let pc := fmul (nan 25) ap cs
  let mc := fmul (nan 26) am cs
  { b0 := fmul (nan 29) a (fadd (nan 28) (fadd (nan 27) ap mc) beta)
    b1 := fmul (nan 32) (fmul (nan 30) cNeg2 a) (fadd (nan 31) am pc)
    b2 := fmul (nan 35) a (fsub (nan 34) (fadd (nan 33) ap mc) beta)
    a0 := fadd (nan 37) (fsub (nan 36) ap mc) beta
    a1 := fmul (nan 39) c2 (fsub (nan 38) am pc)
    a2 := fsub (nan 41) (fsub (nan 40) ap mc) beta }

/-- The raw coefficients of a type from the common intermediates (R184, R185); `g` is `BQG`. -/
def rawCoeffs (nan : Nat → F32) (type : BqType) (cs alpha g : F32) : Coeffs :=
  match type with
  | .lpf => rawLpf nan cs alpha
  | .hpf => rawHpf nan cs alpha
  | .bpf => rawBpf nan cs alpha
  | .notch => rawNotch nan cs alpha
  | .peak => rawPeak nan cs alpha (bqGainA nan g)
  | .lowshelf => rawLowshelf nan cs alpha (bqGainA nan g)
  | .highshelf => rawHighshelf nan cs alpha (bqGainA nan g)
  | .apf => rawApf nan cs alpha

/-- What a form stores: Direct Form I the raw six, the others the five quotients by a0 and `A0` = 1.0 (R186). -/
def storedCoeffs (nan : Nat → F32) (form : BqForm) (c : Coeffs) : Coeffs :=
  match form with
  | .df1 => c
  | .tdf2 | .df2 =>
    { b0 := fdiv (nan 50) c.b0 c.a0, b1 := fdiv (nan 51) c.b1 c.a0, b2 := fdiv (nan 52) c.b2 c.a0
      a0 := c1, a1 := fdiv (nan 53) c.a1 c.a0, a2 := fdiv (nan 54) c.a2 c.a0 }

/-- The coefficients R186 computes from the present parameters. -/
def State.newCoeffs (s : State) (nan : Nat → F32) : Coeffs :=
  let w0 := bqW0 nan s.bqF s.sr
  storedCoeffs nan s.bqForm (rawCoeffs nan s.bqType (fcos w0) (bqAlpha nan (fsin w0) s.bqQ) s.bqG)

/-- Every coefficient is finite. -/
def Coeffs.finite (c : Coeffs) : Bool :=
  fisfinite c.b0 && fisfinite c.b1 && fisfinite c.b2 && fisfinite c.a0 && fisfinite c.a1 && fisfinite c.a2

/-- The test R186 makes before it stores: all finite and, in Direct Form I, a0 not zero. -/
def Coeffs.acceptable (c : Coeffs) (form : BqForm) : Bool := c.finite && !(form == .df1 && feq c.a0 c0)

/-- Whether the update succeeds (R186). -/
def State.updateSucceeds (s : State) : Bool := s.bqParamsValid && (s.newCoeffs s.nan).acceptable s.bqForm

/-- `updateCoefficients()` (R186): the registers change only when the update succeeds; `BQVALID` says whether it did. -/
def State.updateCoefficients (s : State) : State :=
  { s with
    coef := if s.updateSucceeds then s.newCoeffs s.nan else s.coef
    bqValid := s.updateSucceeds }

/-- How a command that ran the update ends: cause 4 with the given value when it left `BQVALID` = 0, else the
response (R177 to R182, 40_lifecycle.md R101). -/
def State.finishUpdated (s : State) (i : Instr) (okVal errVal : BitVec 32) : Result :=
  .next (s.finish i.opcode i.channel (if s.bqValid then .ok else .invalidFilterParameter)
    (if s.bqValid then okVal else errVal))

end Sys2Proof.Machine
end

