-- ==== Sys2Proof/Machine/Biquad.lean ====
section
/-!
DEFINITION. The biquad engine's commands (44_biquad.md R175 to R190).
-/
namespace Sys2Proof.Machine

/-- `BQ_SET_TYPE t` (R177). -/
def execBqSetType (t : BqType) (s : State) : Result :=
  s.checked (.bqSetType t) false false 0#32 <|
    { s with bqType := t }.updateCoefficients.finishUpdated (.bqSetType t) 1#32 0#32

/-- The biquad memory of a channel cleared, all three sets (R178, 10_state.md R34). -/
def ChanRegs.clearBiquad (c : ChanRegs) : ChanRegs :=
  { c with x1 := c0, x2 := c0, y1 := c0, y2 := c0, r1 := c0, r2 := c0, w1 := c0, w2 := c0 }

/-- `BQ_SET_FORM f` (R178). -/
def execBqSetForm (f : BqForm) (s : State) : Result :=
  s.checked (.bqSetForm f) false false 0#32 <|
    { s with bqForm := f, chans := s.chans.map ChanRegs.clearBiquad }.updateCoefficients.finishUpdated
      (.bqSetForm f) 1#32 0#32

/-- `BQ_SET_FREQ hz` (R179). -/
def execBqSetFreq (hz : F32) (s : State) : Result :=
  s.checked (.bqSetFreq hz) false false 0#32 <|
    if !fisfinite hz then s.raise (.bqSetFreq hz) .invalidOperand (bitValue s.bqValid)
    else { s with bqF := hz }.updateCoefficients.finishUpdated (.bqSetFreq hz) 1#32 0#32

/-- `BQ_SET_Q q` (R180). -/
def execBqSetQ (q : F32) (s : State) : Result :=
  s.checked (.bqSetQ q) false false 0#32 <|
    if !fisfinite q then s.raise (.bqSetQ q) .invalidOperand (bitValue s.bqValid)
    else { s with bqQ := q }.updateCoefficients.finishUpdated (.bqSetQ q) 1#32 0#32

/-- `BQ_SET_GAIN db` (R181). -/
def execBqSetGain (db : F32) (s : State) : Result :=
  s.checked (.bqSetGain db) false false 0#32 <|
    if !fisfinite db then s.raise (.bqSetGain db) .invalidOperand (bitValue s.bqValid)
    else { s with bqG := db }.updateCoefficients.finishUpdated (.bqSetGain db) 1#32 0#32

/-- `BQ_UPDATE` (R182). -/
def execBqUpdate (s : State) : Result :=
  s.checked .bqUpdate false false 0#32 <| s.updateCoefficients.finishUpdated .bqUpdate 1#32 0#32

/-- The output of Direct Form I (R187): five products, four sums left to right, one division. -/
def df1Output (nan : Nat → F32) (k : Coeffs) (c : ChanRegs) (x : F32) : F32 :=
  fdiv (nan 9)
    (fsub (nan 8)
      (fsub (nan 7)
        (fadd (nan 6)
          (fadd (nan 5) (fmul (nan 0) k.b0 x) (fmul (nan 1) k.b1 c.x1))
          (fmul (nan 2) k.b2 c.x2))
        (fmul (nan 3) k.a1 c.y1))
      (fmul (nan 4) k.a2 c.y2))
    k.a0

/-- The memory after a Direct Form I step with input x and output y (R187). -/
def df1Memory (c : ChanRegs) (x y : F32) : ChanRegs := { c with x1 := x, x2 := c.x1, y1 := y, y2 := c.y1 }

/-- The output of Direct Form II Transposed (R188). -/
def tdf2Output (nan : Nat → F32) (k : Coeffs) (c : ChanRegs) (x : F32) : F32 :=
  fadd (nan 1) (fmul (nan 0) k.b0 x) c.r1

/-- The memory after a Direct Form II Transposed step; the new `R1` uses the old `R2` (R188). -/
def tdf2Memory (nan : Nat → F32) (k : Coeffs) (c : ChanRegs) (x y : F32) : ChanRegs :=
  { c with
    r1 := fadd (nan 5) (fsub (nan 4) (fmul (nan 2) k.b1 x) (fmul (nan 3) k.a1 y)) c.r2
    r2 := fsub (nan 8) (fmul (nan 6) k.b2 x) (fmul (nan 7) k.a2 y) }

/-- The internal node of Direct Form II (R189). -/
def df2Node (nan : Nat → F32) (k : Coeffs) (c : ChanRegs) (x : F32) : F32 :=
  fsub (nan 3) (fsub (nan 1) x (fmul (nan 0) k.a1 c.w1)) (fmul (nan 2) k.a2 c.w2)

/-- The output of Direct Form II from its internal node (R189). -/
def df2Output (nan : Nat → F32) (k : Coeffs) (c : ChanRegs) (w : F32) : F32 :=
  fadd (nan 8) (fadd (nan 6) (fmul (nan 4) k.b0 w) (fmul (nan 5) k.b1 c.w1)) (fmul (nan 7) k.b2 c.w2)

/-- The memory after a Direct Form II step (R189). -/
def df2Memory (c : ChanRegs) (w : F32) : ChanRegs := { c with w1 := w, w2 := c.w1 }

/-- The output of a step in the present form (R190). -/
def biquadOutput (nan : Nat → F32) (form : BqForm) (k : Coeffs) (c : ChanRegs) (x : F32) : F32 :=
  match form with
  | .df1 => df1Output nan k c x
  | .tdf2 => tdf2Output nan k c x
  | .df2 => df2Output nan k c (df2Node nan k c x)

/-- The channel's registers after a step in the present form: only that form's set changes (R190). -/
def biquadMemory (nan : Nat → F32) (form : BqForm) (k : Coeffs) (c : ChanRegs) (x : F32) : ChanRegs :=
  match form with
  | .df1 => df1Memory c x (df1Output nan k c x)
  | .tdf2 => tdf2Memory nan k c x (tdf2Output nan k c x)
  | .df2 => df2Memory c (df2Node nan k c x)

/-- `BQ_STEP ch, sample` (R190): while `BQVALID` = 0 the identity pass with cause 4, and no memory changes. -/
def execBqStep (ch : BitVec 8) (x : F32) (s : State) : Result :=
  s.checked (.bqStep ch x) false true x <|
    if !s.bqValid then s.raise (.bqStep ch x) .invalidFilterParameter x
    else
      (s.setChan ch (biquadMemory s.nan s.bqForm s.coef (s.chan ch) x)).respond (.bqStep ch x)
        (biquadOutput s.nan s.bqForm s.coef (s.chan ch) x)

end Sys2Proof.Machine
end

