-- ==== Sys2Proof/Machine/DelayLine.lean ====
section
/-!
DEFINITION. The delay-line engine's commands (41_delay_line.md R110 to R122).
-/
namespace Sys2Proof.Machine

/-- The writes of a `DL_CONFIG` whose operands are good (R111). Every channel computes the same initial pitch-shift
delay (notes/assumptions/16.md). -/
def State.configureLine (s : State) (c : Nat) : State :=
  { s with
    cap := c, dly := c0, dlConf := true
    mem := s.mem.fillRows s.nch c
    chans := s.chans.map fun r => { r with widx := 0, psdly := psInit s.nan s.psRate c } }

/-- A `DL_CONFIG` that fails leaves the line not configured (R111). -/
def State.unconfigureLine (s : State) : State := { s with dlConf := false, cap := 0 }

/-- `DL_CONFIG n, capacity` (R111): the capacity error before the channel mismatch (60_exceptions.md R232). -/
def execDlConfig (n : BitVec 8) (capacity : BitVec 32) (s : State) : Result :=
  s.checked (.dlConfig n capacity) false false 0#32 <|
    if operandS capacity ≤ 0 ∨ (s.capMax : Int) < operandS capacity then
      s.unconfigureLine.raise (.dlConfig n capacity) .invalidConfiguration 0#32
    else if n.toNat ≠ s.nch then s.unconfigureLine.raise (.dlConfig n capacity) .channelMismatch 0#32
    else (s.configureLine (operandS capacity).toNat).respond (.dlConfig n capacity) capacity

/-- `DL_SET_INTERP v` (R112). No `NotConfigured` check: R110 asks it of every command but `DL_CONFIG`, R112 and 60_exceptions.md
R221, R229 do not ask it of this one (DESIGN CHOICE, notes/assumptions/23.md). -/
def execDlSetInterp (v : Bool) (s : State) : Result :=
  s.checked (.dlSetInterp v) false false 0#32 <|
    { s with interp := v }.respond (.dlSetInterp v) (interpValue v)

/-- `DL_SET_DELAY` from its second line on (R113), which `DL_SET_DELAY_BPM` continues with (R114). -/
def State.setDelay (s : State) (i : Instr) (nan d : F32) : Result :=
  if !fisfinite d then s.raise i .invalidOperand s.dly
  else if delayInRange (wrapNeg nan d s.capF) s.capF then
    { s with dly := wrapNeg nan d s.capF }.respond i (wrapNeg nan d s.capF)
  else s.raise i .delayOutOfRange s.dly

/-- `DL_SET_DELAY samples` (R113). -/
def execDlSetDelay (samples : F32) (s : State) : Result :=
  s.checked (.dlSetDelay samples) true false 0#32 <| s.setDelay (.dlSetDelay samples) (s.nan 0) (operandF samples)

/-- `ffloor(((60 / b) * NOTEDIV) * SR)` (R114). -/
def State.bpmDelay (s : State) (bpm : F32) : F32 :=
  ffloor (s.nan 4) (fmul (s.nan 3) (fmul (s.nan 2) (fdiv (s.nan 1) c60 bpm) s.noteDiv) s.sr)

/-- `DL_SET_DELAY_BPM bpm` (R114). -/
def execDlSetDelayBpm (bpm : F32) (s : State) : Result :=
  s.checked (.dlSetDelayBpm bpm) true false 0#32 <|
    if !fisfinite bpm || !flt c0 bpm then s.raise (.dlSetDelayBpm bpm) .invalidOperand s.dly
    else s.setDelay (.dlSetDelayBpm bpm) (s.nan 0) (s.bpmDelay bpm)

/-- `DL_SET_NOTEDIV v` (R115). No `NotConfigured` check: R110 asks it of every command but `DL_CONFIG`, R115 and 60_exceptions.md
R221, R229 do not ask it of this one (DESIGN CHOICE, notes/assumptions/23.md). -/
def execDlSetNotediv (v : F32) (s : State) : Result :=
  s.checked (.dlSetNotediv v) false false 0#32 <|
    if !fisfinite v then s.raise (.dlSetNotediv v) .invalidOperand s.noteDiv
    else { s with noteDiv := v }.respond (.dlSetNotediv v) v

/-- `DL_PUSH ch, sample` (R118): the sample is stored bit for bit; on a failed check it is the response (60_exceptions.md
R234). -/
def execDlPush (ch : BitVec 8) (x : F32) (s : State) : Result :=
  s.checked (.dlPush ch x) true true x <| (s.push ch x).respond (.dlPush ch x) x

/-- `DL_POP ch` (R119). Repeated, it answers the same word (20_memory.md R67), but for the pattern of a NaN that the
interpolation returns: every command draws its own (DESIGN CHOICE, notes/assumptions/25.md). -/
def execDlPop (ch : BitVec 8) (s : State) : Result :=
  s.checked (.dlPop ch) true true 0#32 <| s.respond (.dlPop ch) (s.fracRead s.nan ch s.dly)

/-- `DL_STEP ch, sample` (R120): push, then the read of the pop. -/
def execDlStep (ch : BitVec 8) (x : F32) (s : State) : Result :=
  s.checked (.dlStep ch x) true true x <|
    (s.push ch x).respond (.dlStep ch x) ((s.push ch x).fracRead s.nan ch s.dly)

/-- `DL_PEEK ch, index` (R121). -/
def execDlPeek (ch : BitVec 8) (index : BitVec 32) (s : State) : Result :=
  s.checked (.dlPeek ch index) true true 0#32 <|
    if s.cap ≤ operandU index then s.raise (.dlPeek ch index) .invalidOperand 0#32
    else s.respond (.dlPeek ch index) (s.memRead ch (operandU index))

end Sys2Proof.Machine
end

