-- ==== Sys2Proof/Machine/Lifecycle.lean ====
section
/-!
DEFINITION. The lifecycle and system commands (40_lifecycle.md): `NOP`, `PREPARE`, `RDREG`, `CLRERR`; what an illegal word
does (60_exceptions.md R231); hardware reset (70_reset_and_hazards.md R250, R251).
-/
namespace Sys2Proof.Machine

/-- `NOP` (R100). -/
def execNop (s : State) : Result := s.respond .nop 0#32

/-- The operands `PREPARE` refuses (R101): a channel count outside 1 to `NCH_MAX`, a rate not finite and above zero. -/
def State.prepareRefuses (s : State) (n : BitVec 8) (rate : F32) : Bool :=
  decide (n.toNat < 1) || decide (s.nchMax < n.toNat) || !fisfinite rate || !flt c0 rate

/-- The writes of a `PREPARE` whose operands are good, before the coefficient update (R101). -/
def State.prepareWrites (s : State) (n : BitVec 8) (rate : F32) : State :=
  { s with
    sr := rate, nch := n.toNat, prepared := true, dlConf := false, cap := 0
    chans := s.chans.map fun _ => ChanRegs.cleared }

/-- `PREPARE n, sampleRate` (R101). -/
def execPrepare (n : BitVec 8) (rate : F32) (s : State) : Result :=
  if s.prepareRefuses n rate then
    { s with prepared := false, dlConf := false, cap := 0, bqValid := false }.raise (.prepare n rate)
      .invalidConfiguration 0#32
  else (s.prepareWrites n rate).updateCoefficients.finishUpdated (.prepare n rate) rate rate

/-- What `RDREG` reads from a register that exists once, zero-extended to 32 bits (R102, 10_state.md R22). -/
def State.globalValue (s : State) : GlobalReg → BitVec 32
  | .status => s.status
  | .errflags => s.errFlags
  | .errlast => s.errLast
  | .sr => s.sr
  | .nch => BitVec.ofNat 32 s.nch
  | .version => versionWord
  | .nchmax => BitVec.ofNat 32 s.nchMax
  | .capmax => BitVec.ofNat 32 s.capMax
  | .cap => BitVec.ofNat 32 s.cap
  | .dly => s.dly
  | .notediv => s.noteDiv
  | .interp => interpValue s.interp
  | .mdmode => s.mdMode.value
  | .mdrate => s.mdRate
  | .mdratehz => s.mdRateHz
  | .mddepth => s.mdDepth
  | .mdbase => s.mdBase
  | .pssemi => s.psSemi
  | .psrate => s.psRate
  | .bqtype => s.bqType.value
  | .bqform => s.bqForm.value
  | .bqf => s.bqF
  | .bqq => s.bqQ
  | .bqg => s.bqG
  | .b0 => s.coef.b0
  | .b1 => s.coef.b1
  | .b2 => s.coef.b2
  | .a0 => s.coef.a0
  | .a1 => s.coef.a1
  | .a2 => s.coef.a2
  | .g1 => s.g1
  | .g2 => s.g2

/-- What `RDREG` reads from a register of a channel (R102). -/
def ChanRegs.value (c : ChanRegs) : ChannelReg → BitVec 32
  | .widx => BitVec.ofNat 32 c.widx
  | .t => c.t
  | .psdly => c.psdly
  | .x1 => c.x1
  | .x2 => c.x2
  | .y1 => c.y1
  | .y2 => c.y2
  | .r1 => c.r1
  | .r2 => c.r2
  | .w1 => c.w1
  | .w2 => c.w2
  | .pw1 => c.pw1
  | .pw2 => c.pw2
  | .pv => c.pv

/-- `RDREG ch, reg` (R102): it needs no `PREPARE`; a per-channel register of a channel at or above `NCH` is cause 8. -/
def execRdreg (ch : BitVec 8) (reg : RegName) (s : State) : Result :=
  match reg with
  | .global r => s.respond (.rdreg ch reg) (s.globalValue r)
  | .channel r =>
    if ch.toNat < s.nch then s.respond (.rdreg ch reg) ((s.chan ch).value r)
    else s.raise (.rdreg ch reg) .badChannel 0#32

/-- `CLRERR` (R103). -/
def execClrerr (s : State) : Result := { s with errFlags := 0#32, errLast := 0#32 }.respond .clrerr s.errFlags

/-- An illegal command word: cause 9, `VAL` = 0, nothing but the error registers changes (60_exceptions.md R231, R234,
30_encoding.md R86). Under the opcode of a step or of `DL_PUSH` too: the lists of checks of 41_delay_line.md R110,
42_mod_delay.md R149, 43_pitch_shift.md R165, 44_biquad.md R190 and 45_nested_apf.md R213 have `IllegalCommand` among those
that answer `VAL` = `OPD` (DESIGN CHOICE, notes/assumptions/26.md). -/
def execIllegal (w : Word64) (s : State) : Result :=
  .next (s.finish (opcField w) (chField w) .illegalCommand 0#32)

/-- Hardware reset asserted between two steps (70_reset_and_hazards.md R250, R251): every register takes its reset
value, commands waiting are discarded, no earlier response is seen again. The parameters are built into the block
(00_scope.md R13); the NaN draws go on, so that what follows draws anew (notes/assumptions/12.md). -/
def State.hardwareReset (s : State) : State := { State.resetWith s.nchMax s.capMax with draws := s.draws }

end Sys2Proof.Machine
end

