-- ==== Sys2Proof/Machine/ModDelay.lean ====
section
/-!
DEFINITION. The modulated-delay engine's commands (42_mod_delay.md R140 to R149).
-/
namespace Sys2Proof.Machine

/-- `MINHZ` of a mode (R147): 0.1 for all. -/
def minHz (_ : MdMode) : F32 := cTenth

/-- `MAXHZ` of a mode (R147): 5 for the flanger, 10 for the others. -/
def maxHz : MdMode → F32
  | .flanger => c5
  | .chorus | .vibrato | .barberpole => c10

/-- The rate mapping: subtract, multiply, add (R142). -/
def rateHz (nan : Nat → F32) (mode : MdMode) (r : F32) : F32 :=
  fadd (nan 2) (minHz mode) (fmul (nan 1) r (fsub (nan 0) (maxHz mode) (minHz mode)))

/-- The sine shape (R148). -/
def sineShape (nan : Nat → F32) (hz t : F32) : F32 := fsin (fmul (nan 2) (fmul (nan 1) (fmul (nan 0) c2 cPi) hz) t)

/-- The sawtooth shape, with phase = rateHz * t (R148). -/
def sawShape (nan : Nat → F32) (hz t : F32) : F32 :=
  let ph := fmul (nan 0) hz t
  fmul (nan 4) c2 (fsub (nan 3) ph (ffloor (nan 2) (fadd (nan 1) ph cHalf)))

/-- The shape of a mode (R147, R148). -/
def shape (nan : Nat → F32) (mode : MdMode) (hz t : F32) : F32 :=
  match mode with
  | .barberpole => sawShape nan hz t
  | .chorus | .flanger | .vibrato => sineShape nan hz t

/-- `MD_SET_MODE m` (R141): the band may have changed, so the rate is mapped again. -/
def execMdSetMode (m : MdMode) (s : State) : Result :=
  s.checked (.mdSetMode m) false false 0#32 <|
    { s with mdMode := m, mdRateHz := rateHz s.nan m s.mdRate }.respond (.mdSetMode m) (rateHz s.nan m s.mdRate)

/-- A percentage `MD_SET_RATE` accepts: finite, 0 to 100 (R143). -/
def percentOk (p : F32) : Bool := fisfinite p && fle c0 p && fle p c100

/-- `MD_SET_RATE percent` (R143). -/
def execMdSetRate (percent : F32) (s : State) : Result :=
  s.checked (.mdSetRate percent) false false 0#32 <|
    if !percentOk percent then s.raise (.mdSetRate percent) .invalidOperand s.mdRateHz
    else
      let r := fdiv (s.nan 3) percent c100
      { s with mdRate := r, mdRateHz := rateHz s.nan s.mdMode r }.respond (.mdSetRate percent)
        (rateHz s.nan s.mdMode r)

/-- `MD_SET_DEPTH samples` (R144). -/
def execMdSetDepth (samples : F32) (s : State) : Result :=
  s.checked (.mdSetDepth samples) false false 0#32 <|
    if !fisfinite samples then s.raise (.mdSetDepth samples) .invalidOperand s.mdDepth
    else { s with mdDepth := samples }.respond (.mdSetDepth samples) samples

/-- `MD_SET_BASE samples` (R145). -/
def execMdSetBase (samples : F32) (s : State) : Result :=
  s.checked (.mdSetBase samples) false false 0#32 <|
    if !fisfinite samples then s.raise (.mdSetBase samples) .invalidOperand s.mdBase
    else { s with mdBase := samples }.respond (.mdSetBase samples) samples

/-- `(ms * SR) / 1000` (R146). -/
def State.predelay (s : State) (ms : F32) : F32 := fdiv (s.nan 1) (fmul (s.nan 0) ms s.sr) c1000

/-- `MD_SET_PREDELAY_MS ms` (R146). -/
def execMdSetPredelayMs (ms : F32) (s : State) : Result :=
  s.checked (.mdSetPredelayMs ms) false false 0#32 <|
    if !fisfinite ms || !fisfinite (s.predelay ms) then s.raise (.mdSetPredelayMs ms) .invalidOperand s.mdBase
    else { s with mdBase := s.predelay ms }.respond (.mdSetPredelayMs ms) (s.predelay ms)

/-- The delay of a step, `wrapNeg(MDBASE + (MDDEPTH * shape(MDMODE, MDRATEHZ, T[ch])))` (R149). -/
def State.mdDelay (s : State) (ch : BitVec 8) : F32 :=
  wrapNeg (s.nan 7)
    (fadd (s.nan 6) s.mdBase (fmul (s.nan 5) s.mdDepth (shape s.nan s.mdMode s.mdRateHz (s.chan ch).t))) s.capF

/-- The time always advances by `1.0 / SR` (R149). -/
def State.advanceTime (s : State) (ch : BitVec 8) : State :=
  s.setChan ch { s.chan ch with t := fadd (s.nan 9) (s.chan ch).t (fdiv (s.nan 8) c1 s.sr) }

/-- `MD_STEP ch, sample` (R149): the push and the time happen whether or not the delay is in range. -/
def execMdStep (ch : BitVec 8) (x : F32) (s : State) : Result :=
  s.checked (.mdStep ch x) true true x <|
    let s' := (s.push ch x).advanceTime ch
    if fisfinite (s.mdDelay ch) && delayInRange (s.mdDelay ch) s.capF then
      s'.respond (.mdStep ch x) (s'.fracRead (laterDraws s.nan 10) ch (s.mdDelay ch))
    else s'.raise (.mdStep ch x) .delayOutOfRange x

end Sys2Proof.Machine
end

