-- ==== Sys2Proof/Machine/NestedApf.lean ====
section
/-!
DEFINITION. The nested all-pass commands (45_nested_apf.md R210 to R214).
-/
namespace Sys2Proof.Machine

/-- `NAPF_SET_G1 g` (R211). -/
def execNapfSetG1 (g : F32) (s : State) : Result :=
  s.checked (.napfSetG1 g) false false 0#32 <|
    if !fisfinite g then s.raise (.napfSetG1 g) .invalidOperand s.g1
    else { s with g1 := g }.respond (.napfSetG1 g) g

/-- `NAPF_SET_G2 g` (R212). -/
def execNapfSetG2 (g : F32) (s : State) : Result :=
  s.checked (.napfSetG2 g) false false 0#32 <|
    if !fisfinite g then s.raise (.napfSetG2 g) .invalidOperand s.g2
    else { s with g2 := g }.respond (.napfSetG2 g) g

/-- `gv = G2 * PV[ch]`, one product used twice (R213). -/
def napfFeedback (nan : Nat → F32) (g2 : F32) (c : ChanRegs) : F32 := fmul (nan 2) g2 c.pv

/-- The memory after a step: `PW1 <- x - (G1 * PW2)`, `PW2 <- PW1`, `PV <- PW1 - gv` (R213). -/
def napfMemory (nan : Nat → F32) (g1 g2 : F32) (c : ChanRegs) (x : F32) : ChanRegs :=
  { c with
    pw1 := fsub (nan 1) x (fmul (nan 0) g1 c.pw2)
    pw2 := c.pw1
    pv := fsub (nan 3) c.pw1 (napfFeedback nan g2 c) }

/-- `NAPF_STEP ch, sample` (R213). -/
def execNapfStep (ch : BitVec 8) (x : F32) (s : State) : Result :=
  s.checked (.napfStep ch x) false true x <|
    (s.setChan ch (napfMemory s.nan s.g1 s.g2 (s.chan ch) x)).respond (.napfStep ch x)
      (fadd (s.nan 4) (napfFeedback s.nan s.g2 (s.chan ch)) x)

end Sys2Proof.Machine
end

