-- ==== Sys2Proof/Machine/PitchShift.lean ====
section
/-!
DEFINITION. The pitch-shift engine's commands (43_pitch_shift.md R160 to R165).
-/
namespace Sys2Proof.Machine

/-- `1.0 - fexp2(s / 12)` (R162). -/
def State.delayRate (s : State) (semitones : F32) : F32 := fsub (s.nan 1) c1 (fexp2 (fdiv (s.nan 0) semitones c12))

/-- Every channel's delay at its initial value, when the line is configured (R162, R163). -/
def State.seedPitchDelay (s : State) (rate : F32) : State :=
  { s with
    chans := if s.dlConf then s.chans.map fun r => { r with psdly := psInit (laterDraws s.nan 2) rate s.cap } else s.chans }

/-- `PS_SET_SEMITONES s` (R162). -/
def execPsSetSemitones (semitones : F32) (s : State) : Result :=
  s.checked (.psSetSemitones semitones) false false 0#32 <|
    if !fisfinite semitones || !fisfinite (s.delayRate semitones) then
      s.raise (.psSetSemitones semitones) .invalidOperand s.psRate
    else
      { s.seedPitchDelay (s.delayRate semitones) with psSemi := semitones, psRate := s.delayRate semitones }.respond
        (.psSetSemitones semitones) (s.delayRate semitones)

/-- The slewed delay `wrapBoth(PSDLY[ch] + PSRATE, C)` (R165). -/
def State.slewedDelay (s : State) (ch : BitVec 8) : F32 :=
  wrapBoth (laterDraws s.nan 1) (fadd (s.nan 0) (s.chan ch).psdly s.psRate) s.cap

/-- A slewed delay the step accepts (R165). -/
def State.slewOk (s : State) (ch : BitVec 8) : Bool :=
  fisfinite (s.slewedDelay ch) && delayInRange (s.slewedDelay ch) s.capF

/-- `PS_STEP ch, sample` (R165): push, read at `PSDLY[ch]`, then slew; the push stands when the slew fails. -/
def execPsStep (ch : BitVec 8) (x : F32) (s : State) : Result :=
  s.checked (.psStep ch x) true true x <|
    let s' := s.push ch x
    if s.slewOk ch then
      (s'.setChan ch { s'.chan ch with psdly := s.slewedDelay ch }).respond (.psStep ch x)
        (s'.fracRead (laterDraws s.nan 10) ch (s.chan ch).psdly)
    else s'.raise (.psStep ch x) .delayOutOfRange x

end Sys2Proof.Machine
end

