-- ==== Sys2Proof/Machine/Dispatch.lean ====
section
/-!
DEFINITION. One arm per command (30_encoding.md R85), each one direct call of the command's meaning.
-/
namespace Sys2Proof.Machine

def exec (i : Instr) (s : State) : Host.Outcome State Fault Refusal :=
  match i with
  | .nop => Sys2Proof.Machine.execNop s
  | .prepare n rate => Sys2Proof.Machine.execPrepare n rate s
  | .rdreg ch reg => Sys2Proof.Machine.execRdreg ch reg s
  | .clrerr => Sys2Proof.Machine.execClrerr s
  | .dlConfig n capacity => Sys2Proof.Machine.execDlConfig n capacity s
  | .dlSetDelay samples => Sys2Proof.Machine.execDlSetDelay samples s
  | .dlSetDelayBpm bpm => Sys2Proof.Machine.execDlSetDelayBpm bpm s
  | .dlSetNotediv v => Sys2Proof.Machine.execDlSetNotediv v s
  | .dlSetInterp v => Sys2Proof.Machine.execDlSetInterp v s
  | .dlPush ch x => Sys2Proof.Machine.execDlPush ch x s
  | .dlPop ch => Sys2Proof.Machine.execDlPop ch s
  | .dlStep ch x => Sys2Proof.Machine.execDlStep ch x s
  | .dlPeek ch index => Sys2Proof.Machine.execDlPeek ch index s
  | .mdSetMode m => Sys2Proof.Machine.execMdSetMode m s
  | .mdSetRate percent => Sys2Proof.Machine.execMdSetRate percent s
  | .mdSetDepth samples => Sys2Proof.Machine.execMdSetDepth samples s
  | .mdSetBase samples => Sys2Proof.Machine.execMdSetBase samples s
  | .mdSetPredelayMs ms => Sys2Proof.Machine.execMdSetPredelayMs ms s
  | .mdStep ch x => Sys2Proof.Machine.execMdStep ch x s
  | .psSetSemitones semitones => Sys2Proof.Machine.execPsSetSemitones semitones s
  | .psStep ch x => Sys2Proof.Machine.execPsStep ch x s
  | .bqSetType t => Sys2Proof.Machine.execBqSetType t s
  | .bqSetForm f => Sys2Proof.Machine.execBqSetForm f s
  | .bqSetFreq hz => Sys2Proof.Machine.execBqSetFreq hz s
  | .bqSetQ q => Sys2Proof.Machine.execBqSetQ q s
  | .bqSetGain db => Sys2Proof.Machine.execBqSetGain db s
  | .bqUpdate => Sys2Proof.Machine.execBqUpdate s
  | .bqStep ch x => Sys2Proof.Machine.execBqStep ch x s
  | .napfSetG1 g => Sys2Proof.Machine.execNapfSetG1 g s
  | .napfSetG2 g => Sys2Proof.Machine.execNapfSetG2 g s
  | .napfStep ch x => Sys2Proof.Machine.execNapfStep ch x s

end Sys2Proof.Machine
end

