-- ==== Sys2Proof/Machine/Sequencer.lean ====
section
/-!
DEFINITION. The sequencer (00_scope.md R12): it takes one command word at a time, in arrival order, and performs the
whole of that command; an illegal word is answered, never executed as another command (30_encoding.md R86).
-/
namespace Sys2Proof.Machine

/-- Perform one command word: the command it decodes to, or the error of an illegal word. -/
def performWord (w : Word64) (s : State) : Result :=
  match decode w with
  | .ok i => exec i s
  | .error _ => execIllegal w s

/-- Take the first command word that waits and perform it; with none waiting the block is idle and holds all state
(60_exceptions.md R241; notes/assumptions/2.md). -/
def takeCommand (s : State) : Result :=
  match s.cmdIn with
  | [] => .next s
  | w :: rest => performWord w { s with cmdIn := rest }

/-- The host sends command words: they wait behind those sent before (00_scope.md R12, 70_reset_and_hazards.md R255). -/
def State.send (s : State) (words : List Word64) : State := { s with cmdIn := s.cmdIn ++ words }

end Sys2Proof.Machine
end

