-- ==== Sys2Proof/Machine/Step.lean ====
section
/-!
DEFINITION. One step of PWS-CORE: one command (00_scope.md R12).
-/
namespace Sys2Proof.Machine

/-- One step: the sequencer takes and performs one command word. -/
def step (s : State) : Host.Outcome State Fault Refusal := takeCommand s

/-- The state with a command word at the head of the command stream, so that the next step takes exactly it. The
block stores no program (20_memory.md R68): this stands for the host sending the word (notes/assumptions/1.md). -/
def State.withFetchWord (s : State) (nbits w : Nat) : State :=
  { s with cmdIn := BitVec.ofNat 64 (w % 2 ^ nbits) :: s.cmdIn }

end Sys2Proof.Machine
end

