-- ==== Sys2Proof/Machine/Response.lean ====
section
/-!
DEFINITION. The steady responses of the biquad (44_biquad.md R193): the recurrence of the filter in real arithmetic over the
F32 coefficients the registers hold. No command computes with it; it is what the source's expected responses speak of
(notes/assumptions/24.md).
-/
namespace Sys2Proof.Machine

/-- The value of a finite F32 as a rational number: units of 2^-149. -/
def value (x : F32) : ℚ := (signedUnits x : ℚ) / 2 ^ 149

/-- The numerator of the response, times z^2: `b0 z^2 + b1 z + b2`. The frequency 0 Hz is z = 1, Nyquist is z = -1. -/
def Coeffs.numerator (k : Coeffs) (z : ℚ) : ℚ := value k.b0 * z ^ 2 + value k.b1 * z + value k.b2

/-- The denominator of the response, times z^2: `a0 z^2 + a1 z + a2`. -/
def Coeffs.denominator (k : Coeffs) (z : ℚ) : ℚ := value k.a0 * z ^ 2 + value k.a1 * z + value k.a2

/-- The recurrence R187, and with A0 = 1.0 what R188 and R189 realize too (R191), in exact arithmetic: a0 times the output
is the three input products less the two products of earlier outputs. -/
def Coeffs.RealRecurrence (k : Coeffs) (x y : ℕ → ℂ) : Prop :=
  ∀ n, (value k.a0 : ℂ) * y (n + 2) =
    value k.b0 * x (n + 2) + value k.b1 * x (n + 1) + value k.b2 * x n - value k.a1 * y (n + 1) - value k.a2 * y n

/-- The filter passes the steady input `x z^n` as the steady output `y z^n`; z of modulus 1 is a frequency. -/
def Coeffs.Steady (k : Coeffs) (z x y : ℂ) : Prop := k.RealRecurrence (fun n => x * z ^ n) (fun n => y * z ^ n)

end Sys2Proof.Machine
end

