-- ==== Sys2Proof/Safety.lean ====
section
/-!
DEFINITION. What counts as a good state and a safe run of PWS-CORE, in the spec's own terms: the invariants of
10_state.md, and the words claims about responses and frames use.
-/
namespace Sys2Proof.Machine

/-! ## Invariants of the state -/

/-- The implementation parameters keep the constraints of 00_scope.md R6. -/
structure State.ParamsOk (s : State) : Prop where
  nchMax_pos : 1 ≤ s.nchMax
  nchMax_le : s.nchMax ≤ 255
  capMax_pos : 1 ≤ s.capMax
  capMax_le : s.capMax ≤ 2 ^ 24

/-- A per-channel register exists once for every channel below `NCH_MAX` (10_state.md R22), and the prepared channel
count is one `PREPARE` accepts (40_lifecycle.md R101). -/
structure State.ShapeOk (s : State) : Prop where
  chans_length : s.chans.length = s.nchMax
  nch_le : s.nch ≤ s.nchMax

/-- The reserved bits of the error registers: `ERRFLAGS` bit 0 and bits 31:10 are zero, `ERRLAST` bits 31:16 are zero and
its cause is a code of 60_exceptions.md R221 (10_state.md R23). -/
structure State.ErrorsOk (s : State) : Prop where
  flags_reserved : s.errFlags &&& 0xFFFFFC01#32 = 0#32
  last_reserved : s.errLast.extractLsb' 16 16 = 0#16
  last_cause : (s.errLast.extractLsb' 0 8).toNat ≤ 9

/-- The invariant of the delay line (10_state.md R26). -/
structure State.LineOk (s : State) : Prop where
  conf_cap : s.dlConf = true → 1 ≤ s.cap ∧ s.cap ≤ s.capMax
  conf_widx : s.dlConf = true → ∀ ch : BitVec 8, ch.toNat < s.nch → (s.chan ch).widx < s.cap
  conf_dly : s.dlConf = true → fisfinite s.dly = true ∧ delayInRange s.dly s.capF = true
  noconf_cap : s.dlConf = false → s.cap = 0

/-- The invariant of the pitch shifter (10_state.md R32). -/
def State.PitchOk (s : State) : Prop :=
  s.dlConf = true → ∀ ch : BitVec 8, ch.toNat < s.nch →
    fisfinite (s.chan ch).psdly = true ∧ delayInRange (s.chan ch).psdly s.capF = true

/-- The invariant of the biquad engine (10_state.md R35): while `BQVALID` = 1 the parameters are valid and the
coefficient registers hold what the update computes from the present parameters. Which NaN an operation inside the
update would return is the drawn one of some command (00_scope.md R10), hence `k`. -/
def State.CoefOk (s : State) : Prop :=
  s.bqValid = true → s.bqParamsValid = true ∧ s.coef.acceptable s.bqForm = true ∧
    ∃ k : Nat, s.coef = s.newCoeffs fun site => nanOf (Config.nanDraw k site)

/-- A setter refuses a parameter that is not finite (60_exceptions.md R233), so every parameter register is finite; the
two rate registers are `State.RateOk`. -/
structure State.FiniteOk (s : State) : Prop where
  sr : fisfinite s.sr = true
  noteDiv : fisfinite s.noteDiv = true
  mdDepth : fisfinite s.mdDepth = true
  mdBase : fisfinite s.mdBase = true
  psSemi : fisfinite s.psSemi = true
  psRate : fisfinite s.psRate = true
  bqF : fisfinite s.bqF = true
  bqQ : fisfinite s.bqQ = true
  bqG : fisfinite s.bqG = true
  g1 : fisfinite s.g1 = true
  g2 : fisfinite s.g2 = true

/-- The two rate registers: `MDRATE` is finite and in [0,1] (10_state.md R31), `MDRATEHZ` is finite and between `MINHZ` = 0.1
and `MAXHZ` of the present mode (42_mod_delay.md R142, R147). -/
structure State.RateOk (s : State) : Prop where
  rate_finite : fisfinite s.mdRate = true
  rate_low : fle c0 s.mdRate = true
  rate_high : fle s.mdRate c1 = true
  hz_finite : fisfinite s.mdRateHz = true
  hz_low : fle (minHz s.mdMode) s.mdRateHz = true
  hz_high : fle s.mdRateHz (maxHz s.mdMode) = true

/-- Every invariant together. -/
structure State.Inv (s : State) : Prop where
  params : s.ParamsOk
  shape : s.ShapeOk
  ram : s.mem.wf = true
  errors : s.ErrorsOk
  line : s.LineOk
  pitch : s.PitchOk
  coef : s.CoefOk
  finite : s.FiniteOk
  rate : s.RateOk

end Sys2Proof.Machine

namespace Sys2Proof

/-! ## Words about commands -/

/-- The sample operand of a step command or of `DL_PUSH`, the commands that pass their input on when they fail
(60_exceptions.md R234). -/
def Instr.sample : Instr → Option F32
  | .dlPush _ x | .dlStep _ x | .mdStep _ x | .psStep _ x | .bqStep _ x | .napfStep _ x => some x
  | .nop | .prepare .. | .rdreg .. | .clrerr | .dlConfig .. | .dlSetDelay _ | .dlSetDelayBpm _ | .dlSetNotediv _
  | .dlSetInterp _ | .dlPop _ | .dlPeek .. | .mdSetMode _ | .mdSetRate _ | .mdSetDepth _ | .mdSetBase _
  | .mdSetPredelayMs _ | .psSetSemitones _ | .bqSetType _ | .bqSetForm _ | .bqSetFreq _ | .bqSetQ _ | .bqSetGain _
  | .bqUpdate | .napfSetG1 _ | .napfSetG2 _ => none

/-- What a command answers when it fails a common check (60_exceptions.md R221): its input sample, or 0. -/
def Instr.failValue (i : Instr) : BitVec 32 := i.sample.getD 0#32

/-- The commands that test `PREPARED`: all but four (60_exceptions.md R228). -/
def Instr.needsPrepare : Instr → Bool
  | .nop | .prepare .. | .rdreg .. | .clrerr => false
  | .dlConfig .. | .dlSetDelay _ | .dlSetDelayBpm _ | .dlSetNotediv _ | .dlSetInterp _ | .dlPush .. | .dlPop _
  | .dlStep .. | .dlPeek .. | .mdSetMode _ | .mdSetRate _ | .mdSetDepth _ | .mdSetBase _ | .mdSetPredelayMs _
  | .mdStep .. | .psSetSemitones _ | .psStep .. | .bqSetType _ | .bqSetForm _ | .bqSetFreq _ | .bqSetQ _
  | .bqSetGain _ | .bqUpdate | .bqStep .. | .napfSetG1 _ | .napfSetG2 _ | .napfStep .. => true

/-- The commands that test `DLCONF` (60_exceptions.md R229). -/
def Instr.needsLine : Instr → Bool
  | .dlSetDelay _ | .dlSetDelayBpm _ | .dlPush .. | .dlPop _ | .dlStep .. | .dlPeek .. | .mdStep .. | .psStep .. => true
  | .nop | .prepare .. | .rdreg .. | .clrerr | .dlConfig .. | .dlSetNotediv _ | .dlSetInterp _ | .mdSetMode _
  | .mdSetRate _ | .mdSetDepth _ | .mdSetBase _ | .mdSetPredelayMs _ | .psSetSemitones _ | .bqSetType _
  | .bqSetForm _ | .bqSetFreq _ | .bqSetQ _ | .bqSetGain _ | .bqUpdate | .bqStep .. | .napfSetG1 _ | .napfSetG2 _
  | .napfStep .. => false

/-- The commands with a channel operand, `RDREG` for a per-channel register only (60_exceptions.md R221, R230). -/
def Instr.hasChannel : Instr → Bool
  | .rdreg _ (.channel _) | .dlPush .. | .dlPop _ | .dlStep .. | .dlPeek .. | .mdStep .. | .psStep .. | .bqStep ..
  | .napfStep .. => true
  | .rdreg _ (.global _) | .nop | .prepare .. | .clrerr | .dlConfig .. | .dlSetDelay _ | .dlSetDelayBpm _
  | .dlSetNotediv _ | .dlSetInterp _ | .mdSetMode _ | .mdSetRate _ | .mdSetDepth _ | .mdSetBase _
  | .mdSetPredelayMs _ | .psSetSemitones _ | .bqSetType _ | .bqSetForm _ | .bqSetFreq _ | .bqSetQ _ | .bqSetGain _
  | .bqUpdate | .napfSetG1 _ | .napfSetG2 _ => false

end Sys2Proof

namespace Sys2Proof.Machine

/-! ## Words about responses (30_encoding.md R83) -/

/-- The `CAUSE` field of a response word, bits 39:32. -/
def causeField (r : Word64) : BitVec 8 := r.extractLsb' 32 8

/-- The `VAL` field of a response word, bits 31:0. -/
def valField (r : Word64) : BitVec 32 := r.extractLsb' 0 32

/-- A response word carries the `OPC` and `CH` of its command word, and zero in bits 47:40 (R83). -/
def isResponseTo (r w : Word64) : Prop :=
  opcField r = opcField w ∧ chField r = chField w ∧ selField r = 0#8

/-- Everything of a state but the delay RAM and the per-channel registers, which claims about the delay engines speak
of through `memRead` and `chan`. -/
def State.besideRamAndChans (s : State) : State := { s with mem := { cells := [] }, chans := [] }

/-! ## Words about the delay line and the channels -/

/-- A source of NaN patterns: each is a NaN, and nothing else is known of it (00_scope.md R10). -/
def NanSource (nan : Nat → F32) : Prop := ∀ site, isNaN (nan site) = true

/-- A command on a channel passes the checks of 60_exceptions.md R228 and R230, in a state that holds the registers of
every channel. -/
structure State.ChannelReady (s : State) (ch : BitVec 8) : Prop where
  prepared : s.prepared = true
  channel : ch.toNat < s.nch
  shape : s.ShapeOk

/-- A command on a channel of the delay line passes also the check of R229, and the RAM is in canonical form. -/
structure State.LineReady (s : State) (ch : BitVec 8) : Prop where
  ready : s.ChannelReady ch
  configured : s.dlConf = true
  ram : s.mem.wf = true

/-- From `s` to `t` the sample `x` was written at `WIDX[ch]`, and no other word of the delay RAM and no register of
another channel changed (41_delay_line.md R118). -/
structure State.PushedOn (s t : State) (ch : BitVec 8) (x : F32) : Prop where
  stored : t.memRead ch (s.chan ch).widx = x
  otherWords : ∀ (ch' : BitVec 8) (i : Nat), ch' ≠ ch ∨ i ≠ (s.chan ch).widx → t.memRead ch' i = s.memRead ch' i
  otherChannels : ∀ ch' : BitVec 8, ch' ≠ ch → t.chan ch' = s.chan ch'
  ram : t.mem.wf = true

end Sys2Proof.Machine

namespace Sys2Proof

/-- The sample a command pushes on a channel: `DL_PUSH` and the step commands of the delay line push, whether or not
they raise a cause of their own (10_state.md R25, 70_reset_and_hazards.md R257). -/
def Instr.pushed (ch : BitVec 8) : Instr → Option F32
  | .dlPush c x | .dlStep c x | .mdStep c x | .psStep c x => if c = ch then some x else none
  | .nop | .prepare .. | .rdreg .. | .clrerr | .dlConfig .. | .dlSetDelay _ | .dlSetDelayBpm _ | .dlSetNotediv _
  | .dlSetInterp _ | .dlPop _ | .dlPeek .. | .mdSetMode _ | .mdSetRate _ | .mdSetDepth _ | .mdSetBase _
  | .mdSetPredelayMs _ | .psSetSemitones _ | .bqSetType _ | .bqSetForm _ | .bqSetFreq _ | .bqSetQ _ | .bqSetGain _
  | .bqUpdate | .bqStep .. | .napfSetG1 _ | .napfSetG2 _ | .napfStep .. => none

/-- The sample a command word pushes on a channel; an illegal word pushes none (60_exceptions.md R231). -/
def pushedSample (ch : BitVec 8) (w : Word64) : Option F32 :=
  match decode w with
  | .ok i => i.pushed ch
  | .error _ => none

end Sys2Proof
end

