-- ==== Sys2Proof/Certificates/Slice0/Obligations.lean ====
section
/-!
DEFINITION. The statements about the model, for the provers. `finish` is how a command ends (Machine/Ops.lean): the
response word is emitted, a cause from 1 to 9 is recorded in the error registers, nothing else of the state changes but
the model's draw counter; the statement ErrorRegisters says so of every command.
-/
section
open Sys2Proof Sys2Proof.Machine

/-- The eight example words of 30_encoding.md R89 decode to the commands beside them. -/
def Obligations.ExampleWordsDecode : Prop :=
  decode 0x01000100473B8000#64 = .ok (.prepare 1#8 0x473B8000#32) ∧
  decode 0x100001000000BB80#64 = .ok (.dlConfig 1#8 48000#32) ∧
  decode 0x1100000046BB8000#64 = .ok (.dlSetDelay 0x46BB8000#32) ∧
  decode 0x170000003F800000#64 = .ok (.dlStep 0#8 0x3F800000#32) ∧
  decode 0x1601000000000000#64 = .ok (.dlPop 1#8) ∧
  decode 0x0201140000000000#64 = .ok (.rdreg 1#8 (.channel .widx)) ∧
  decode 0x4100000000000000#64 = .ok (.bqSetForm .df1) ∧
  decode 0x460000003F800000#64 = .ok (.bqStep 0#8 0x3F800000#32)

/-- The register numbers of 10_state.md R23, R25, R31, R32, R33, R34 and R36, and no others; the enumeration values of
42_mod_delay.md R147 and 44_biquad.md R177, R178. -/
def Obligations.RegisterAndEnumerationNumbers : Prop :=
  let table : List (BitVec 8 × RegName) :=
    [(0x00#8, .global .status), (0x01#8, .global .errflags), (0x02#8, .global .errlast), (0x03#8, .global .sr),
     (0x04#8, .global .nch), (0x05#8, .global .version), (0x06#8, .global .nchmax), (0x07#8, .global .capmax),
     (0x10#8, .global .cap), (0x11#8, .global .dly), (0x12#8, .global .notediv), (0x13#8, .global .interp),
     (0x14#8, .channel .widx), (0x20#8, .global .mdmode), (0x21#8, .global .mdrate), (0x22#8, .global .mdratehz),
     (0x23#8, .global .mddepth), (0x24#8, .global .mdbase), (0x25#8, .channel .t), (0x30#8, .global .pssemi),
     (0x31#8, .global .psrate), (0x32#8, .channel .psdly), (0x40#8, .global .bqtype), (0x41#8, .global .bqform),
     (0x42#8, .global .bqf), (0x43#8, .global .bqq), (0x44#8, .global .bqg), (0x48#8, .global .b0),
     (0x49#8, .global .b1), (0x4A#8, .global .b2), (0x4B#8, .global .a0), (0x4C#8, .global .a1),
     (0x4D#8, .global .a2), (0x50#8, .channel .x1), (0x51#8, .channel .x2), (0x52#8, .channel .y1),
     (0x53#8, .channel .y2), (0x54#8, .channel .r1), (0x55#8, .channel .r2), (0x56#8, .channel .w1),
     (0x57#8, .channel .w2), (0x60#8, .global .g1), (0x61#8, .global .g2), (0x62#8, .channel .pw1),
     (0x63#8, .channel .pw2), (0x64#8, .channel .pv)]
  let modes : List (MdMode × BitVec 32) := [(.chorus, 0#32), (.flanger, 1#32), (.vibrato, 2#32), (.barberpole, 3#32)]
  let types : List (BqType × BitVec 32) :=
    [(.lpf, 0#32), (.hpf, 1#32), (.bpf, 2#32), (.notch, 3#32), (.peak, 4#32), (.lowshelf, 5#32), (.highshelf, 6#32),
     (.apf, 7#32)]
  let forms : List (BqForm × BitVec 32) := [(.df1, 0#32), (.tdf2, 1#32), (.df2, 2#32)]
  ((∀ row ∈ table, RegName.ofNumber row.1 = some row.2) ∧
    ∀ n : BitVec 8, (∀ row ∈ table, row.1 ≠ n) → RegName.ofNumber n = none) ∧
  (∀ row ∈ modes, row.1.value = row.2 ∧ decode (0x20000000#32 ++ row.2) = .ok (.mdSetMode row.1)) ∧
  (∀ row ∈ types, row.1.value = row.2 ∧ decode (0x40000000#32 ++ row.2) = .ok (.bqSetType row.1)) ∧
  ∀ row ∈ forms, row.1.value = row.2 ∧ decode (0x41000000#32 ++ row.2) = .ok (.bqSetForm row.1)

/-- No bit of an encoding is dropped: every well-formed command is decoded from its own word (30_encoding.md R81, R82,
R85). -/
def Obligations.DecodeOfEncode : Prop :=
  ∀ i : Instr, i.wellFormed = true → decode (encode i) = .ok i

/-- A word that is decoded is the one word of its command, so two words never stand for one command (30_encoding.md
R81, R85, R86). -/
def Obligations.EncodeOfDecode : Prop :=
  ∀ (w : Word64) (i : Instr), decode w = .ok i → i.wellFormed = true ∧ encode i = w

/-- The mask rows of spec/opcode_table.json, the three illegal cases beyond them, and the decoder agree
(30_encoding.md R86); no word matches two rows. -/
def Obligations.LegalWords : Prop :=
  (∀ w : Word64, (∃ i, decode w = .ok i) ↔ (∃ r ∈ tableRows, r.matches w = true) ∧ illegalBeyondMasks w = false) ∧
  (∀ (w : Word64) (i : Instr) (r : TableRow), decode w = .ok i → r ∈ tableRows → r.matches w = true →
    opcField r.value = i.opcode) ∧
  ∀ (w : Word64) (r r' : TableRow), r ∈ tableRows → r' ∈ tableRows → r.matches w = true → r'.matches w = true → r = r'

/-- One step is one command (00_scope.md R12). The last clause, what a step is while no word waits, is the model's own
(notes/assumptions/2.md; 60_exceptions.md R241). -/
def Obligations.StepRunsDecoded : Prop :=
  (∀ (s : State) (w : Word64) (rest : List Word64) (i : Instr), s.cmdIn = w :: rest → decode w = .ok i →
    step s = exec i { s with cmdIn := rest }) ∧
  (∀ (s : State) (w : Word64) (i : Instr), decode w = .ok i → step (s.withFetchWord 64 w.toNat) = exec i s) ∧
  ∀ s : State, s.cmdIn = [] → step s = .next s

/-- Illegal words (60_exceptions.md R231), illegality stated by the table of 30_encoding.md R86 and not by the
decoder. That VAL is 0 for a step or DL_PUSH too, against the lists of checks of 44_biquad.md R190 and its like, is
the model's choice (notes/assumptions/26.md). -/
def Obligations.IllegalWordAnswered : Prop :=
  ∀ (s : State) (w : Word64) (rest : List Word64), s.cmdIn = w :: rest →
    (∀ r ∈ tableRows, r.matches w = false) ∨ illegalBeyondMasks w = true →
    step s = .next ({ s with cmdIn := rest }.finish (opcField w) (chField w) .illegalCommand 0#32)

/-- No command stops, stalls or redirects the block: each word is answered once, in order (30_encoding.md R83,
00_scope.md R12), with a cause of 60_exceptions.md R221. -/
def Obligations.EveryWordAnswered : Prop :=
  ∀ (s : State) (w : Word64) (rest : List Word64), s.cmdIn = w :: rest →
    ∃ (t : State) (r : Word64), step s = .next t ∧ t.cmdIn = rest ∧ t.rspOut = s.rspOut ++ [r] ∧
      isResponseTo r w ∧ (causeField r).toNat ≤ 9

/-- A run is a finite list of command words (70_reset_and_hazards.md R255) and gives as many responses, in command
order (R254). -/
def Obligations.RunAnswersEveryWord : Prop :=
  ∀ s : State, ∃ (t : State) (rs : List Word64), Host.Core.run Sys2Proof.core s.cmdIn.length s = .next t ∧
    t.cmdIn = [] ∧ t.rspOut = s.rspOut ++ rs ∧ List.Forall₂ isResponseTo rs s.cmdIn

/-- A queue of command words cannot be observed (10_state.md R38). -/
def Obligations.QueueUnobserved : Prop :=
  ∀ (i : Instr) (s t : State) (q r : List Word64), exec i s = .next t →
    exec i { s with cmdIn := q, rspOut := r } =
      .next { t with cmdIn := q, rspOut := r ++ t.rspOut.drop s.rspOut.length }

/-- The cause codes (60_exceptions.md R221), and what raise Err(c) and respond do (R222, 30_encoding.md R83), for
every command. -/
def Obligations.ErrorRegisters : Prop :=
  (∀ row ∈ [(Cause.ok, 0#8), (.invalidConfiguration, 1#8), (.channelMismatch, 2#8), (.delayOutOfRange, 3#8),
      (.invalidFilterParameter, 4#8), (.invalidOperand, 5#8), (.notPrepared, 6#8), (.notConfigured, 7#8),
      (.badChannel, 8#8), (.illegalCommand, 9#8)], row.1.code = row.2) ∧
  ∀ (i : Instr) (s : State), ∃ (t : State) (c : Cause) (v : BitVec 32), exec i s = .next t ∧
    t.rspOut = s.rspOut ++ [i.opcode ++ i.channel ++ 0#8 ++ c.code ++ v] ∧
    (c ≠ .ok → t.errFlags = s.errFlags ||| (1#32 <<< c.code.toNat) ∧
      t.errLast = (i.opcode.zeroExtend 32 <<< 8) ||| c.code.zeroExtend 32) ∧
    (c = .ok → i ≠ .clrerr → t.errFlags = s.errFlags ∧ t.errLast = s.errLast)

/-- The check NotPrepared, which comes before every other check of a legal command (60_exceptions.md R228, R232). -/
def Obligations.NotPrepared : Prop :=
  ∀ (i : Instr) (s : State), i ≠ .nop → (∀ n rate, i ≠ .prepare n rate) → (∀ ch reg, i ≠ .rdreg ch reg) →
    i ≠ .clrerr → s.prepared = false →
    exec i s = .next (s.finish i.opcode i.channel .notPrepared (i.sample.getD 0#32))

/-- The check NotConfigured, which comes before BadChannel (60_exceptions.md R229, R232). -/
def Obligations.NotConfigured : Prop :=
  ∀ (i : Instr) (s : State),
    i.opcode ∈ [0x11#8, 0x12#8, 0x15#8, 0x16#8, 0x17#8, 0x18#8, 0x25#8, 0x31#8] → s.prepared = true →
    s.dlConf = false → exec i s = .next (s.finish i.opcode i.channel .notConfigured (i.sample.getD 0#32))

/-- The check BadChannel (60_exceptions.md R230). RDREG makes no other check, so it needs no PREPARE. -/
def Obligations.BadChannel : Prop :=
  (∀ (i : Instr) (s : State), i.hasChannel = true → (i.needsPrepare = true → s.prepared = true) →
    (i.needsLine = true → s.dlConf = true) → s.nch ≤ i.channel.toNat →
    exec i s = .next (s.finish i.opcode i.channel .badChannel (i.sample.getD 0#32))) ∧
  ∀ nchMax capMax : Nat, (State.resetWith nchMax capMax).nch = 0

/-- The identity pass (60_exceptions.md R234). The last clause, VAL = 0 with cause 9, is the model's choice against
the lists of checks of 44_biquad.md R190 and its like (notes/assumptions/26.md). -/
def Obligations.IdentityPass : Prop :=
  (∀ (i : Instr) (s : State) (x : F32), i.sample = some x →
    ∃ (t : State) (c : Cause) (v : BitVec 32), exec i s = .next t ∧
      t.rspOut = s.rspOut ++ [responseWord i.opcode i.channel c v] ∧
      (c = .ok ∨ 3 ≤ c.code.toNat ∧ c.code.toNat ≤ 8 ∧ v = x)) ∧
  ∀ (s : State) (w : Word64) (rest : List Word64) (e : DecodeError), s.cmdIn = w :: rest → decode w = .error e →
    ∃ (t : State) (r : Word64), step s = .next t ∧ t.rspOut = s.rspOut ++ [r] ∧ causeField r = 9#8 ∧
      valField r = 0#32

/-- NOP (40_lifecycle.md R100). -/
def Obligations.NopAnswersZero : Prop :=
  encode .nop = 0x0000000000000000#64 ∧ responseWord 0x00#8 0#8 .ok 0#32 = 0x0000000000000000#64 ∧
    ∀ s : State, exec .nop s = .next (s.finish 0x00#8 0#8 .ok 0#32)

/-- CLRERR (40_lifecycle.md R103). -/
def Obligations.ClearErrors : Prop :=
  ∀ s : State,
    exec .clrerr s = .next ({ s with errFlags := 0#32, errLast := 0#32 }.finish 0x03#8 0#8 .ok s.errFlags)

/-- RDREG (40_lifecycle.md R102), and the view STATUS (10_state.md R23). -/
def Obligations.ReadRegister : Prop :=
  (∀ (s : State) (r : GlobalReg), exec (.rdreg 0#8 (.global r)) s = .next (s.finish 0x02#8 0#8 .ok
    (match r with
     | .status => s.status
     | .errflags => s.errFlags | .errlast => s.errLast
     | .sr => s.sr | .nch => BitVec.ofNat 32 s.nch | .version => 0x00010000#32
     | .nchmax => BitVec.ofNat 32 s.nchMax | .capmax => BitVec.ofNat 32 s.capMax
     | .cap => BitVec.ofNat 32 s.cap | .dly => s.dly | .notediv => s.noteDiv
     | .interp => if s.interp then 1#32 else 0#32
     | .mdmode => s.mdMode.value | .mdrate => s.mdRate | .mdratehz => s.mdRateHz
     | .mddepth => s.mdDepth | .mdbase => s.mdBase
     | .pssemi => s.psSemi | .psrate => s.psRate
     | .bqtype => s.bqType.value | .bqform => s.bqForm.value
     | .bqf => s.bqF | .bqq => s.bqQ | .bqg => s.bqG
     | .b0 => s.coef.b0 | .b1 => s.coef.b1 | .b2 => s.coef.b2
     | .a0 => s.coef.a0 | .a1 => s.coef.a1 | .a2 => s.coef.a2
     | .g1 => s.g1 | .g2 => s.g2))) ∧
  (∀ (s : State) (ch : BitVec 8) (r : ChannelReg), exec (.rdreg ch (.channel r)) s = .next
    (if ch.toNat < s.nch then s.finish 0x02#8 ch .ok
      (match r with
       | .widx => BitVec.ofNat 32 (s.chan ch).widx | .t => (s.chan ch).t | .psdly => (s.chan ch).psdly
       | .x1 => (s.chan ch).x1 | .x2 => (s.chan ch).x2 | .y1 => (s.chan ch).y1 | .y2 => (s.chan ch).y2
       | .r1 => (s.chan ch).r1 | .r2 => (s.chan ch).r2 | .w1 => (s.chan ch).w1 | .w2 => (s.chan ch).w2
       | .pw1 => (s.chan ch).pw1 | .pw2 => (s.chan ch).pw2 | .pv => (s.chan ch).pv)
     else s.finish 0x02#8 ch .badChannel 0#32)) ∧
  ∀ s : State, s.status.getLsbD 0 = s.prepared ∧ s.status.getLsbD 1 = s.dlConf ∧ s.status.getLsbD 2 = s.bqValid ∧
    s.status.getLsbD 3 = (s.errFlags != 0#32) ∧ ∀ k, 4 ≤ k → s.status.getLsbD k = false

/-- PREPARE (40_lifecycle.md R101). Every register the rule does not name, and the delay RAM, is as before. -/
def Obligations.Prepare : Prop :=
  ∀ (n : BitVec 8) (rate : F32) (s : State),
    let u : State := { s with
      sr := rate, nch := n.toNat, prepared := true, dlConf := false, cap := 0
      chans := List.replicate s.chans.length
        { widx := 0, t := 0x00000000#32, psdly := 0x00000000#32, x1 := 0x00000000#32, x2 := 0x00000000#32,
          y1 := 0x00000000#32, y2 := 0x00000000#32, r1 := 0x00000000#32, r2 := 0x00000000#32, w1 := 0x00000000#32,
          w2 := 0x00000000#32, pw1 := 0x00000000#32, pw2 := 0x00000000#32, pv := 0x00000000#32 } }
    exec (.prepare n rate) s = .next
      (if n.toNat < 1 ∨ s.nchMax < n.toNat ∨ fisfinite rate = false ∨ flt c0 rate = false then
        { s with prepared := false, dlConf := false, cap := 0, bqValid := false }.finish 0x01#8 0#8
          .invalidConfiguration 0#32
      else if u.updateCoefficients.bqValid then u.updateCoefficients.finish 0x01#8 0#8 .ok rate
      else u.updateCoefficients.finish 0x01#8 0#8 .invalidFilterParameter rate)

/-- DL_CONFIG (41_delay_line.md R111). -/
def Obligations.DlConfig : Prop :=
  ∀ (n : BitVec 8) (capacity : BitVec 32) (s : State), s.prepared = true →
    ((capacity.toInt ≤ 0 ∨ (s.capMax : Int) < capacity.toInt) →
      exec (.dlConfig n capacity) s =
        .next ({ s with dlConf := false, cap := 0 }.finish 0x10#8 0#8 .invalidConfiguration 0#32)) ∧
    (0 < capacity.toInt → capacity.toInt ≤ (s.capMax : Int) → n.toNat ≠ s.nch →
      exec (.dlConfig n capacity) s =
        .next ({ s with dlConf := false, cap := 0 }.finish 0x10#8 0#8 .channelMismatch 0#32)) ∧
    (0 < capacity.toInt → capacity.toInt ≤ (s.capMax : Int) → n.toNat = s.nch →
      ∃ (nan : Nat → F32) (t : State), NanSource nan ∧ exec (.dlConfig n capacity) s = .next t ∧
        (∀ (ch : BitVec 8) (i : Nat), t.memRead ch i =
          if ch.toNat < s.nch ∧ i < capacity.toNat then 0x00000000#32 else s.memRead ch i) ∧
        t.chans = s.chans.map (fun r => { r with widx := 0, psdly := psInit nan s.psRate capacity.toNat }) ∧
        t.besideRamAndChans = ({ s with cap := capacity.toNat, dly := 0x00000000#32, dlConf := true }.finish
          0x10#8 0#8 .ok capacity).besideRamAndChans)

/-- DL_SET_INTERP (41_delay_line.md R112). That it makes no NotConfigured check, against the general sentence of R110,
is the model's choice (notes/assumptions/23.md). -/
def Obligations.DlSetInterp : Prop :=
  ∀ (v : Bool) (s : State), s.prepared = true →
    exec (.dlSetInterp v) s =
      .next ({ s with interp := v }.finish 0x14#8 0#8 .ok (if v then 1#32 else 0#32))

/-- DL_SET_DELAY and wrapNeg (41_delay_line.md R113, R122). -/
def Obligations.DlSetDelay : Prop :=
  ∀ (d : F32) (s : State), s.prepared = true → s.dlConf = true →
    ∃ nan : F32, isNaN nan = true ∧
      let d' := if flt d c0 then fadd nan d (i2f s.cap) else d
      exec (.dlSetDelay d) s = .next
        (if fisfinite d = false then s.finish 0x11#8 0#8 .invalidOperand s.dly
        else if fle c0 d' = true ∧ flt d' (i2f s.cap) = true then { s with dly := d' }.finish 0x11#8 0#8 .ok d'
        else s.finish 0x11#8 0#8 .delayOutOfRange s.dly)

/-- DL_SET_DELAY_BPM (41_delay_line.md R114). -/
def Obligations.DlSetDelayBpm : Prop :=
  ∀ (bpm : F32) (s : State), s.prepared = true → s.dlConf = true →
    ∃ nan : Nat → F32, NanSource nan ∧
      let d := ffloor (nan 4) (fmul (nan 3) (fmul (nan 2) (fdiv (nan 1) 0x42700000#32 bpm) s.noteDiv) s.sr)
      let d' := if flt d c0 then fadd (nan 0) d (i2f s.cap) else d
      exec (.dlSetDelayBpm bpm) s = .next
        (if fisfinite bpm = false ∨ flt c0 bpm = false then s.finish 0x12#8 0#8 .invalidOperand s.dly
        else if fisfinite d = false then s.finish 0x12#8 0#8 .invalidOperand s.dly
        else if fle c0 d' = true ∧ flt d' (i2f s.cap) = true then { s with dly := d' }.finish 0x12#8 0#8 .ok d'
        else s.finish 0x12#8 0#8 .delayOutOfRange s.dly)

/-- DL_SET_NOTEDIV, MD_SET_DEPTH, MD_SET_BASE, NAPF_SET_G1, NAPF_SET_G2 (41_delay_line.md R115, 42_mod_delay.md R144,
R145, 45_nested_apf.md R211, R212). That DL_SET_NOTEDIV makes no NotConfigured check, against the general sentence of
41_delay_line.md R110, is the model's choice (notes/assumptions/23.md). -/
def Obligations.StoringSetters : Prop :=
  ∀ (v : F32) (s : State), s.prepared = true →
    exec (.dlSetNotediv v) s = .next (if fisfinite v then { s with noteDiv := v }.finish 0x13#8 0#8 .ok v
      else s.finish 0x13#8 0#8 .invalidOperand s.noteDiv) ∧
    exec (.mdSetDepth v) s = .next (if fisfinite v then { s with mdDepth := v }.finish 0x22#8 0#8 .ok v
      else s.finish 0x22#8 0#8 .invalidOperand s.mdDepth) ∧
    exec (.mdSetBase v) s = .next (if fisfinite v then { s with mdBase := v }.finish 0x23#8 0#8 .ok v
      else s.finish 0x23#8 0#8 .invalidOperand s.mdBase) ∧
    exec (.napfSetG1 v) s = .next (if fisfinite v then { s with g1 := v }.finish 0x50#8 0#8 .ok v
      else s.finish 0x50#8 0#8 .invalidOperand s.g1) ∧
    exec (.napfSetG2 v) s = .next (if fisfinite v then { s with g2 := v }.finish 0x51#8 0#8 .ok v
      else s.finish 0x51#8 0#8 .invalidOperand s.g2)

/-- DL_PUSH (41_delay_line.md R118). The address stored to is WIDX[ch] of the channel, as the meaning takes it. -/
def Obligations.DlPush : Prop :=
  ∀ (ch : BitVec 8) (x : F32) (s : State), s.LineReady ch →
    ∃ t : State, exec (.dlPush ch x) s = .next t ∧ s.PushedOn t ch x ∧
      t.chan ch = { s.chan ch with widx := ((s.chan ch).widx + 1) % s.cap } ∧
      t.besideRamAndChans = (s.finish 0x15#8 ch .ok x).besideRamAndChans

/-- DL_POP (41_delay_line.md R119); what the read computes is the statement FractionalRead. It is idempotent
(20_memory.md R67) but for the pattern of a NaN the interpolation returns, which 00_scope.md R10 lets each operation
draw (notes/assumptions/25.md). -/
def Obligations.DlPop : Prop :=
  ∀ (ch : BitVec 8) (s : State), s.prepared = true → s.dlConf = true → ch.toNat < s.nch →
    (∃ nan : Nat → F32, NanSource nan ∧
      exec (.dlPop ch) s = .next (s.finish 0x16#8 ch .ok (s.fracRead nan ch s.dly))) ∧
    (fisfinite s.dly = true → ∃ v w : F32, exec (.dlPop ch) s = .next (s.finish 0x16#8 ch .ok v) ∧
      exec (.dlPop ch) (s.finish 0x16#8 ch .ok v) = .next ((s.finish 0x16#8 ch .ok v).finish 0x16#8 ch .ok w) ∧
      (w = v ∨ isNaN v = true ∧ isNaN w = true) ∧ (s.interp = false → w = v))

/-- DL_STEP (41_delay_line.md R120): the read sees the push. -/
def Obligations.DlStep : Prop :=
  ∀ (ch : BitVec 8) (x : F32) (s : State), s.LineReady ch →
    ∃ (nan : Nat → F32) (t : State), NanSource nan ∧ exec (.dlStep ch x) s = .next t ∧ s.PushedOn t ch x ∧
      t.chan ch = { s.chan ch with widx := ((s.chan ch).widx + 1) % s.cap } ∧
      t.besideRamAndChans = (s.finish 0x17#8 ch .ok (t.fracRead nan ch s.dly)).besideRamAndChans

/-- DL_PEEK (41_delay_line.md R121). -/
def Obligations.DlPeek : Prop :=
  ∀ (ch : BitVec 8) (index : BitVec 32) (s : State), s.prepared = true → s.dlConf = true → ch.toNat < s.nch →
    exec (.dlPeek ch index) s = .next
      (if s.cap ≤ index.toNat then s.finish 0x18#8 ch .invalidOperand 0#32
      else s.finish 0x18#8 ch .ok (s.memRead ch index.toNat))

/-- Splitting a delay (41_delay_line.md R116): no rounding, 0 <= fr < 1, for -0.0 also. -/
def Obligations.DelaySplit : Prop :=
  ∀ (nan : Nat → F32) (d : F32), fisfinite d = true → fle c0 d = true →
    splitInt nan d = ((units d / 2 ^ 149 : Nat) : Int) ∧ fisfinite (splitFrac nan d) = true ∧
      signBit (splitFrac nan d) = false ∧ units (splitFrac nan d) = units d % 2 ^ 149 ∧
      units (splitFrac nan d) < 2 ^ 149 ∧ (units d ≤ 2 ^ 24 * 2 ^ 149 → splitInt nan d ≤ 2 ^ 24) ∧
      (2 ^ 23 * 2 ^ 149 ≤ units d → splitFrac nan d = 0x00000000#32)

/-- The fractional delay read (41_delay_line.md R117) over the slots of 20_memory.md R62, on natural numbers. -/
def Obligations.FractionalRead : Prop :=
  ∀ (nan : Nat → F32) (s : State) (ch : BitVec 8) (d : F32), 1 ≤ s.cap → s.cap ≤ 2 ^ 24 → fisfinite d = true →
    fle c0 d = true → flt d (i2f s.cap) = true →
    let n := units d / 2 ^ 149
    let base := ((s.chan ch).widx + s.cap - 1) % s.cap
    let s0 := s.memRead ch ((base + s.cap - n) % s.cap)
    let s1 := s.memRead ch ((base + s.cap - n - 1) % s.cap)
    let fr := splitFrac nan d
    n ≤ s.cap - 1 ∧ s.fracRead nan ch d =
      if s.interp then fadd (nan 5) (fmul (nan 3) (fsub (nan 2) 0x3F800000#32 fr) s0) (fmul (nan 4) fr s1) else s0

/-- Corner cases (a) and (b) of 41_delay_line.md R117, for every source of NaN patterns, and the interpolation bounds
of R123, stated with a tolerance as R123 asks. R123 gives no number for it; the number is the model's own
(notes/assumptions/27.md). -/
def Obligations.InterpolationBounds : Prop :=
  (∀ (nan : Nat → F32) (s0 s1 : F32), NanSource nan →
    (fisfinite s0 = true → fisfinite s1 = true → feq (interpolate nan c0 s0 s1) s0 = true) ∧
    (fisfinite s1 = false → isNaN (interpolate nan c0 s0 s1) = true)) ∧
  ∀ (nan : Nat → F32) (fr s0 s1 : F32), fisfinite fr = true → fle c0 fr = true → fle fr c1 = true →
    fisfinite s0 = true → fisfinite s1 = true →
    let out := interpolate nan fr s0 s1
    let low := min (value s0) (value s1)
    let high := max (value s0) (value s1)
    let tolerance := max |value s0| |value s1| / 2 ^ 22 + 1 / 2 ^ 149
    let rest := fsub (nan 2) 0x3F800000#32 fr
    let part0 := fmul (nan 3) rest s0
    let part1 := fmul (nan 4) fr s1
    isNaN out = false ∧
    (fisfinite out = true → low - tolerance ≤ value out ∧ value out ≤ high + tolerance) ∧
    (|value s0| ≤ 2 ^ 127 → |value s1| ≤ 2 ^ 127 → fisfinite out = true) ∧
    (value rest = 1 - value fr → value part0 = value rest * value s0 → value part1 = value fr * value s1 →
      value out = value part0 + value part1 → low ≤ value out ∧ value out ≤ high)

/-- Wrap-around correctness (20_memory.md R64) at the level of the machine: the command words are sent and run. The
pushes are those of the channel, with any other words between them. -/
def Obligations.WrapAround : Prop :=
  ∀ (s : State) (ch n : BitVec 8) (capacity : BitVec 32) (ws : List Word64), s.prepared = true →
    s.ShapeOk → s.mem.wf = true → n.toNat = s.nch → ch.toNat < s.nch → 0 < capacity.toInt →
    capacity.toInt ≤ (s.capMax : Int) → (∀ w ∈ ws, ∀ m c, decode w ≠ .ok (.dlConfig m c)) →
    ∃ t : State, Host.Core.run Sys2Proof.core (ws.length + 1)
        { s with cmdIn := encode (.dlConfig n capacity) :: ws } = .next t ∧
      ((∀ w ∈ ws, ∀ m rate, decode w ≠ .ok (.prepare m rate)) → t.cap = capacity.toNat) ∧
      ∀ d, d < t.cap → t.memRead ch (((t.chan ch).widx + t.cap - 1 - d) % t.cap) =
        ((ws.filterMap (pushedSample ch)).reverse).getD d 0x00000000#32

/-- The delay-line identity and the end-to-end scenario (41_delay_line.md R120, R124), for every capacity, delay and
list of samples. -/
def Obligations.WholeDelayStream : Prop :=
  ∀ (s : State) (ch : BitVec 8) (xs : List F32), s.LineReady ch → s.LineOk → s.ParamsOk → s.interp = false →
    (∀ i, i < s.cap → s.memRead ch i = 0x00000000#32) →
    let delay := units s.dly / 2 ^ 149
    ∃ t : State, Host.Core.run Sys2Proof.core xs.length { s with cmdIn := xs.map fun x => encode (.dlStep ch x) } =
        .next t ∧
      t.rspOut = s.rspOut ++ (List.range xs.length).map fun k =>
        responseWord 0x17#8 ch .ok (if delay ≤ k then xs.getD (k - delay) 0x00000000#32 else 0x00000000#32)

/-- The rate mapping (42_mod_delay.md R142) with the bands of R147. -/
def Obligations.RateMapping : Prop :=
  ∀ (nan : Nat → F32) (mode : MdMode),
    let hi : F32 := if mode = .flanger then 0x40A00000#32 else 0x41200000#32
    (∀ r : F32, rateHz nan mode r = fadd (nan 2) 0x3DCCCCCD#32 (fmul (nan 1) r (fsub (nan 0) hi 0x3DCCCCCD#32))) ∧
      rateHz nan mode 0x00000000#32 = 0x3DCCCCCD#32 ∧ rateHz nan mode 0x3F800000#32 = hi

/-- The shapes (42_mod_delay.md R148, R147); the sine itself is open (00_scope.md R10) but for its law at +0.0. -/
def Obligations.Shapes : Prop :=
  (∀ (nan : Nat → F32) (mode : MdMode) (hz t : F32), shape nan mode hz t =
    if mode = .barberpole then
      fmul (nan 4) 0x40000000#32
        (fsub (nan 3) (fmul (nan 0) hz t) (ffloor (nan 2) (fadd (nan 1) (fmul (nan 0) hz t) 0x3F000000#32)))
    else fsin (fmul (nan 2) (fmul (nan 1) 0x40C90FDB#32 hz) t)) ∧
  ∀ (nan : Nat → F32) (mode : MdMode) (hz : F32), signBit hz = false → fle c0 hz = true →
    fle hz 0x41200000#32 = true → shape nan mode hz 0x00000000#32 = 0x00000000#32

/-- MD_SET_MODE (42_mod_delay.md R141); rateHz is the statement RateMapping. -/
def Obligations.MdSetMode : Prop :=
  ∀ (m : MdMode) (s : State), s.prepared = true →
    ∃ nan : Nat → F32, NanSource nan ∧
      exec (.mdSetMode m) s = .next ({ s with mdMode := m, mdRateHz := rateHz nan m s.mdRate }.finish 0x20#8 0#8 .ok
        (rateHz nan m s.mdRate))

/-- MD_SET_RATE (42_mod_delay.md R143). -/
def Obligations.MdSetRate : Prop :=
  ∀ (percent : F32) (s : State), s.prepared = true →
    ∃ nan : Nat → F32, NanSource nan ∧
      let r := fdiv (nan 3) percent 0x42C80000#32
      exec (.mdSetRate percent) s = .next
        (if fisfinite percent = true ∧ fle c0 percent = true ∧ fle percent 0x42C80000#32 = true then
          { s with mdRate := r, mdRateHz := rateHz nan s.mdMode r }.finish 0x21#8 0#8 .ok (rateHz nan s.mdMode r)
        else s.finish 0x21#8 0#8 .invalidOperand s.mdRateHz)

/-- MD_SET_PREDELAY_MS (42_mod_delay.md R146). -/
def Obligations.MdSetPredelayMs : Prop :=
  ∀ (ms : F32) (s : State), s.prepared = true →
    ∃ nan : Nat → F32, NanSource nan ∧
      let v := fdiv (nan 1) (fmul (nan 0) ms s.sr) 0x447A0000#32
      exec (.mdSetPredelayMs ms) s = .next
        (if fisfinite ms = true ∧ fisfinite v = true then { s with mdBase := v }.finish 0x24#8 0#8 .ok v
        else s.finish 0x24#8 0#8 .invalidOperand s.mdBase)

/-- MD_STEP (42_mod_delay.md R149). -/
def Obligations.MdStep : Prop :=
  ∀ (ch : BitVec 8) (x : F32) (s : State), s.LineReady ch →
    ∃ (nan : Nat → F32) (t : State), NanSource nan ∧ exec (.mdStep ch x) s = .next t ∧
      let d := fadd (nan 6) s.mdBase (fmul (nan 5) s.mdDepth (shape nan s.mdMode s.mdRateHz (s.chan ch).t))
      let d' := if flt d c0 then fadd (nan 7) d (i2f s.cap) else d
      s.PushedOn t ch x ∧
      t.chan ch = { s.chan ch with
        widx := ((s.chan ch).widx + 1) % s.cap
        t := fadd (nan 9) (s.chan ch).t (fdiv (nan 8) 0x3F800000#32 s.sr) } ∧
      t.besideRamAndChans =
        (if fisfinite d' = true ∧ fle c0 d' = true ∧ flt d' (i2f s.cap) = true then
          s.finish 0x25#8 ch .ok (t.fracRead (fun site => nan (10 + site)) ch d')
        else s.finish 0x25#8 ch .delayOutOfRange x).besideRamAndChans

/-- PS_SET_SEMITONES (43_pitch_shift.md R162); psInit is the statement InitialPitchDelay. -/
def Obligations.PsSetSemitones : Prop :=
  ∀ (semitones : F32) (s : State), s.prepared = true →
    ∃ nan : Nat → F32, NanSource nan ∧
      let rate := fsub (nan 1) 0x3F800000#32 (fexp2 (fdiv (nan 0) semitones 0x41400000#32))
      let seeded := s.chans.map fun r => { r with psdly := psInit (fun site => nan (2 + site)) rate s.cap }
      exec (.psSetSemitones semitones) s = .next
        (if fisfinite semitones = true ∧ fisfinite rate = true then
          { s with psSemi := semitones, psRate := rate, chans := if s.dlConf then seeded else s.chans }.finish
            0x30#8 0#8 .ok rate
        else s.finish 0x30#8 0#8 .invalidOperand s.psRate)

/-- The corner cases of 43_pitch_shift.md R162 that laws L2 and L3 of 00_scope.md R10 fix. -/
def Obligations.WholeOctaves : Prop :=
  ∀ (s : State) (semitones rate : F32), s.prepared = true → s.dlConf = true → 1 ≤ s.cap → s.cap ≤ 2 ^ 24 →
    (semitones, rate) ∈ [(0x00000000#32, 0x00000000#32), (0x80000000#32, 0x00000000#32),
      (0x41400000#32, 0xBF800000#32), (0xC1400000#32, (0x3F000000#32 : F32))] →
    exec (.psSetSemitones semitones) s = .next
      ({ s with psSemi := semitones, psRate := rate, chans := s.chans.map fun (r : ChanRegs) => ({ r with psdly := 0x00000000#32 } : ChanRegs) }.finish
        0x30#8 0#8 .ok rate)

/-- psInit and wrapBoth (43_pitch_shift.md R163, R164). -/
def Obligations.InitialPitchDelay : Prop :=
  ∀ (nan : Nat → F32) (rate : F32) (c : Nat), 1 ≤ c → c ≤ 2 ^ 24 → fisfinite rate = true →
    (flt rate c0 = false → psInit nan rate c = 0x00000000#32) ∧
    (flt rate c0 = true → ∃ fm : F32, fisfinite fm = true ∧ signBit fm = false ∧ units fm = units rate % 2 ^ 149 ∧
      psInit nan rate c =
        (let d := fmul (nan 3) (i2f c) fm
         if fle (i2f c) d then fsub (nan 5) d (i2f c) else d)) ∧
    (flt 0xBF800000#32 rate = true → flt rate c0 = true → psInit nan rate c =
      (let d := fmul (nan 3) (i2f c) (fneg rate)
       if fle (i2f c) d then fsub (nan 5) d (i2f c) else d)) ∧
    (rate = 0xBF800000#32 → psInit nan rate c = 0x00000000#32) ∧
    fisfinite (psInit nan rate c) = true ∧ fle c0 (psInit nan rate c) = true ∧
      flt (psInit nan rate c) (i2f c) = true

/-- PS_STEP and wrapBoth (43_pitch_shift.md R165, R164). -/
def Obligations.PsStep : Prop :=
  ∀ (ch : BitVec 8) (x : F32) (s : State), s.LineReady ch →
    ∃ (nan : Nat → F32) (t : State), NanSource nan ∧ exec (.psStep ch x) s = .next t ∧
      let d := fadd (nan 0) (s.chan ch).psdly s.psRate
      let d1 := if flt d c0 then fadd (nan 1) d (i2f s.cap) else d
      let d2 := if fle (i2f s.cap) d1 then fsub (nan 2) d1 (i2f s.cap) else d1
      let ok := fisfinite d2 = true ∧ fle c0 d2 = true ∧ flt d2 (i2f s.cap) = true
      s.PushedOn t ch x ∧
      (ok → t.chan ch = { s.chan ch with widx := ((s.chan ch).widx + 1) % s.cap, psdly := d2 } ∧
        t.besideRamAndChans = (s.finish 0x31#8 ch .ok
          (t.fracRead (fun site => nan (10 + site)) ch (s.chan ch).psdly)).besideRamAndChans) ∧
      (¬ok → t.chan ch = { s.chan ch with widx := ((s.chan ch).widx + 1) % s.cap } ∧
        t.besideRamAndChans = (s.finish 0x31#8 ch .delayOutOfRange x).besideRamAndChans)

/-- The sample-count invariant (43_pitch_shift.md R166). -/
def Obligations.SampleCount : Prop :=
  ∀ (s : State) (ch : BitVec 8) (xs : List F32), s.LineReady ch → (s.chan ch).widx < s.cap →
    ∃ (t : State) (rs : List Word64),
      Host.Core.run Sys2Proof.core xs.length { s with cmdIn := xs.map fun x => encode (.psStep ch x) } = .next t ∧
      t.rspOut = s.rspOut ++ rs ∧ (t.chan ch).widx = ((s.chan ch).widx + xs.length) % s.cap ∧
      ((∀ r ∈ rs, causeField r = 0#8) → ∀ nan : Nat → F32, NanSource nan →
        (t.chan ch).psdly =
          (fun d => wrapBoth nan (fadd (nan 2) d s.psRate) s.cap)^[xs.length] (s.chan ch).psdly)

/-- updateCoefficients(), bqParamsValid() and the common intermediates (44_biquad.md R186, R176, R183). The raw
coefficients are the statement CoefficientTable. -/
def Obligations.CoefficientUpdate : Prop :=
  ∀ s : State, ∃ nan : Nat → F32, NanSource nan ∧
    let w0 := fdiv (nan 2) (fmul (nan 1) 0x40C90FDB#32 s.bqF) s.sr
    let alpha := fdiv (nan 4) (fsin w0) (fmul (nan 3) 0x40000000#32 s.bqQ)
    let raw := rawCoeffs nan s.bqType (fcos w0) alpha s.bqG
    let new : Coeffs := if s.bqForm = .df1 then raw else
      { b0 := fdiv (nan 50) raw.b0 raw.a0, b1 := fdiv (nan 51) raw.b1 raw.a0, b2 := fdiv (nan 52) raw.b2 raw.a0
        a0 := 0x3F800000#32, a1 := fdiv (nan 53) raw.a1 raw.a0, a2 := fdiv (nan 54) raw.a2 raw.a0 }
    let valid := flt c0 s.bqQ = true ∧ fle c0 s.bqF = true ∧ flt s.bqF (fdiv (nan 60) s.sr 0x40000000#32) = true
    let good := (∀ c ∈ [new.b0, new.b1, new.b2, new.a0, new.a1, new.a2], fisfinite c = true) ∧
      ¬(s.bqForm = .df1 ∧ feq raw.a0 c0 = true)
    (valid ∧ good → s.updateCoefficients = { s with coef := new, bqValid := true }) ∧
    (¬(valid ∧ good) → s.updateCoefficients = { s with bqValid := false })

/-- The two tables of raw coefficients (44_biquad.md R184, R185), cell by cell. -/
def Obligations.CoefficientTable : Prop :=
  ∀ (nan : Nat → F32) (cs alpha g : F32),
    let one : F32 := 0x3F800000#32
    let two : F32 := 0x40000000#32
    let minusTwo : F32 := 0xC0000000#32
    let zero : F32 := 0x00000000#32
    let a := fpow10 (fdiv (nan 5) g 0x42200000#32)
    let beta := fmul (nan 22) (fmul (nan 21) two (fsqrt (nan 20) a)) alpha
    let ap := fadd (nan 23) a one
    let am := fsub (nan 24) a one
    let pc := fmul (nan 25) ap cs
    let mc := fmul (nan 26) am cs
    rawCoeffs nan .lpf cs alpha g =
      { b0 := fdiv (nan 14) (fsub (nan 13) one cs) two, b1 := fsub (nan 15) one cs
        b2 := fdiv (nan 17) (fsub (nan 16) one cs) two
        a0 := fadd (nan 10) one alpha, a1 := fmul (nan 11) minusTwo cs, a2 := fsub (nan 12) one alpha } ∧
    rawCoeffs nan .hpf cs alpha g =
      { b0 := fdiv (nan 14) (fadd (nan 13) one cs) two, b1 := fsub (nan 16) zero (fadd (nan 15) one cs)
        b2 := fdiv (nan 18) (fadd (nan 17) one cs) two
        a0 := fadd (nan 10) one alpha, a1 := fmul (nan 11) minusTwo cs, a2 := fsub (nan 12) one alpha } ∧
    rawCoeffs nan .bpf cs alpha g =
      { b0 := alpha, b1 := zero, b2 := fsub (nan 13) zero alpha
        a0 := fadd (nan 10) one alpha, a1 := fmul (nan 11) minusTwo cs, a2 := fsub (nan 12) one alpha } ∧
    rawCoeffs nan .notch cs alpha g =
      { b0 := one, b1 := fmul (nan 13) minusTwo cs, b2 := one
        a0 := fadd (nan 10) one alpha, a1 := fmul (nan 11) minusTwo cs, a2 := fsub (nan 12) one alpha } ∧
    rawCoeffs nan .apf cs alpha g =
      { b0 := fsub (nan 13) one alpha, b1 := fmul (nan 14) minusTwo cs, b2 := fadd (nan 15) one alpha
        a0 := fadd (nan 10) one alpha, a1 := fmul (nan 11) minusTwo cs, a2 := fsub (nan 12) one alpha } ∧
    rawCoeffs nan .peak cs alpha g =
      { b0 := fadd (nan 22) one (fmul (nan 20) alpha a), b1 := fmul (nan 23) minusTwo cs
        b2 := fsub (nan 24) one (fmul (nan 20) alpha a)
        a0 := fadd (nan 25) one (fdiv (nan 21) alpha a), a1 := fmul (nan 26) minusTwo cs
        a2 := fsub (nan 27) one (fdiv (nan 21) alpha a) } ∧
    rawCoeffs nan .lowshelf cs alpha g =
      { b0 := fmul (nan 29) a (fadd (nan 28) (fsub (nan 27) ap mc) beta)
        b1 := fmul (nan 32) (fmul (nan 30) two a) (fsub (nan 31) am pc)
        b2 := fmul (nan 35) a (fsub (nan 34) (fsub (nan 33) ap mc) beta)
        a0 := fadd (nan 37) (fadd (nan 36) ap mc) beta
        a1 := fmul (nan 39) minusTwo (fadd (nan 38) am pc)
        a2 := fsub (nan 41) (fadd (nan 40) ap mc) beta } ∧
    rawCoeffs nan .highshelf cs alpha g =
      { b0 := fmul (nan 29) a (fadd (nan 28) (fadd (nan 27) ap mc) beta)
        b1 := fmul (nan 32) (fmul (nan 30) minusTwo a) (fadd (nan 31) am pc)
        b2 := fmul (nan 35) a (fsub (nan 34) (fadd (nan 33) ap mc) beta)
        a0 := fadd (nan 37) (fsub (nan 36) ap mc) beta
        a1 := fmul (nan 39) two (fsub (nan 38) am pc)
        a2 := fsub (nan 41) (fsub (nan 40) ap mc) beta }

/-- What law L2 of 00_scope.md R10 fixes of the update (44_biquad.md R183, R184, R186), and the responses R193
expects: unity at 0 Hz and attenuation at Nyquist for an LPF, the inverse for an HPF, magnitude invariance for an APF.
R193 gives a tolerance without a number; the bounds are the model's own (notes/assumptions/24.md). `Steady z x y`
(Machine/Response.lean): the recurrence in exact arithmetic turns the input x z^n into y z^n. -/
def Obligations.ZeroFrequencyAndResponses : Prop :=
  (∀ s : State, s.bqF = c0 → fisfinite s.bqQ = true → flt c0 s.bqQ = true → fisfinite s.sr = true →
    flt c0 s.sr = true → s.bqType ≠ .peak → s.bqType ≠ .lowshelf → s.bqType ≠ .highshelf →
    let zeros : Coeffs := { b0 := 0x00000000#32, b1 := 0x00000000#32, b2 := 0x00000000#32
                            a0 := 0x3F800000#32, a1 := 0xC0000000#32, a2 := 0x3F800000#32 }
    let ones : Coeffs := { b0 := 0x3F800000#32, b1 := 0xC0000000#32, b2 := 0x3F800000#32
                           a0 := 0x3F800000#32, a1 := 0xC0000000#32, a2 := 0x3F800000#32 }
    (∀ nan : Nat → F32, s.newCoeffs nan = if s.bqType = .lpf ∨ s.bqType = .bpf then zeros else ones) ∧
      s.updateSucceeds = s.bqParamsValid) ∧
  ∀ (nan : Nat → F32) (form : BqForm) (cs alpha g : F32), lawL4 cs = true → fisfinite alpha = true →
    fle c0 alpha = true →
    let lpf := storedCoeffs nan form (rawCoeffs nan .lpf cs alpha g)
    let hpf := storedCoeffs nan form (rawCoeffs nan .hpf cs alpha g)
    let apf := storedCoeffs nan form (rawCoeffs nan .apf cs alpha g)
    (∀ x y : ℂ, lpf.Steady 1 x y →
      ‖y - x‖ * |(lpf.denominator 1 : ℝ)| ≤ ‖x‖ * ((value lpf.a0 : ℝ) / 2 ^ 20)) ∧
    (∀ x y : ℂ, lpf.Steady (-1) x y → ‖y‖ * |(lpf.denominator (-1) : ℝ)| ≤ ‖x‖ / 2 ^ 148) ∧
    (∀ x y : ℂ, hpf.Steady (-1) x y →
      ‖y - x‖ * |(hpf.denominator (-1) : ℝ)| ≤ ‖x‖ * ((value hpf.a0 : ℝ) / 2 ^ 20)) ∧
    (∀ x y : ℂ, hpf.Steady 1 x y → ‖y‖ * |(hpf.denominator 1 : ℝ)| ≤ ‖x‖ / 2 ^ 148) ∧
    (apf.b0 = apf.a2 ∧ apf.b1 = apf.a1 ∧ apf.b2 = apf.a0) ∧
    ∀ z x y : ℂ, ‖z‖ = 1 → value apf.a0 * z ^ 2 + value apf.a1 * z + value apf.a2 ≠ 0 → apf.Steady z x y →
      ‖y‖ = ‖x‖

/-- BQ_SET_TYPE, BQ_SET_FORM, BQ_UPDATE (44_biquad.md R177, R178, R182). -/
def Obligations.BqSelectors : Prop :=
  ∀ (s : State), s.prepared = true →
    let ends (u : State) (opc : BitVec 8) : Host.Outcome State Fault Refusal := .next
      (if u.updateCoefficients.bqValid then u.updateCoefficients.finish opc 0#8 .ok 1#32
      else u.updateCoefficients.finish opc 0#8 .invalidFilterParameter 0#32)
    (∀ t : BqType, exec (.bqSetType t) s = ends { s with bqType := t } 0x40#8) ∧
    (∀ f : BqForm, exec (.bqSetForm f) s = ends { s with
      bqForm := f
      chans := s.chans.map fun r => { r with
        x1 := 0x00000000#32, x2 := 0x00000000#32, y1 := 0x00000000#32, y2 := 0x00000000#32
        r1 := 0x00000000#32, r2 := 0x00000000#32, w1 := 0x00000000#32, w2 := 0x00000000#32 } } 0x41#8) ∧
    exec .bqUpdate s = ends s 0x45#8

/-- BQ_SET_FREQ, BQ_SET_Q, BQ_SET_GAIN (44_biquad.md R179, R180, R181). -/
def Obligations.BqParameters : Prop :=
  ∀ (v : F32) (s : State), s.prepared = true →
    let ends (u : State) (opc : BitVec 8) : Host.Outcome State Fault Refusal := .next
      (if fisfinite v = false then s.finish opc 0#8 .invalidOperand (if s.bqValid then 1#32 else 0#32)
      else if u.updateCoefficients.bqValid then u.updateCoefficients.finish opc 0#8 .ok 1#32
      else u.updateCoefficients.finish opc 0#8 .invalidFilterParameter 0#32)
    exec (.bqSetFreq v) s = ends { s with bqF := v } 0x42#8 ∧
    exec (.bqSetQ v) s = ends { s with bqQ := v } 0x43#8 ∧
    exec (.bqSetGain v) s = ends { s with bqG := v } 0x44#8

/-- Direct Form I (44_biquad.md R187, R190). -/
def Obligations.BqStepDf1 : Prop :=
  ∀ (ch : BitVec 8) (x : F32) (s : State), s.ChannelReady ch → s.bqValid = true → s.bqForm = .df1 →
    ∃ (nan : Nat → F32) (t : State), NanSource nan ∧ exec (.bqStep ch x) s = .next t ∧
      let k := s.coef
      let r := s.chan ch
      let y := fdiv (nan 9) (fsub (nan 8) (fsub (nan 7) (fadd (nan 6) (fadd (nan 5) (fmul (nan 0) k.b0 x)
        (fmul (nan 1) k.b1 r.x1)) (fmul (nan 2) k.b2 r.x2)) (fmul (nan 3) k.a1 r.y1)) (fmul (nan 4) k.a2 r.y2)) k.a0
      t.chan ch = { r with x2 := r.x1, x1 := x, y2 := r.y1, y1 := y } ∧
      (∀ ch' : BitVec 8, ch' ≠ ch → t.chan ch' = s.chan ch') ∧ t.mem = s.mem ∧
      t.besideRamAndChans = (s.finish 0x46#8 ch .ok y).besideRamAndChans

/-- Direct Form II Transposed (44_biquad.md R188, R190). -/
def Obligations.BqStepTdf2 : Prop :=
  ∀ (ch : BitVec 8) (x : F32) (s : State), s.ChannelReady ch → s.bqValid = true → s.bqForm = .tdf2 →
    ∃ (nan : Nat → F32) (t : State), NanSource nan ∧ exec (.bqStep ch x) s = .next t ∧
      let k := s.coef
      let r := s.chan ch
      let y := fadd (nan 1) (fmul (nan 0) k.b0 x) r.r1
      t.chan ch = { r with r1 := fadd (nan 5) (fsub (nan 4) (fmul (nan 2) k.b1 x) (fmul (nan 3) k.a1 y)) r.r2
                           r2 := fsub (nan 8) (fmul (nan 6) k.b2 x) (fmul (nan 7) k.a2 y) } ∧
      (∀ ch' : BitVec 8, ch' ≠ ch → t.chan ch' = s.chan ch') ∧ t.mem = s.mem ∧
      t.besideRamAndChans = (s.finish 0x46#8 ch .ok y).besideRamAndChans

/-- Direct Form II (44_biquad.md R189, R190). -/
def Obligations.BqStepDf2 : Prop :=
  ∀ (ch : BitVec 8) (x : F32) (s : State), s.ChannelReady ch → s.bqValid = true → s.bqForm = .df2 →
    ∃ (nan : Nat → F32) (t : State), NanSource nan ∧ exec (.bqStep ch x) s = .next t ∧
      let k := s.coef
      let r := s.chan ch
      let w := fsub (nan 3) (fsub (nan 1) x (fmul (nan 0) k.a1 r.w1)) (fmul (nan 2) k.a2 r.w2)
      let y := fadd (nan 8) (fadd (nan 6) (fmul (nan 4) k.b0 w) (fmul (nan 5) k.b1 r.w1)) (fmul (nan 7) k.b2 r.w2)
      t.chan ch = { r with w2 := r.w1, w1 := w } ∧
      (∀ ch' : BitVec 8, ch' ≠ ch → t.chan ch' = s.chan ch') ∧ t.mem = s.mem ∧
      t.besideRamAndChans = (s.finish 0x46#8 ch .ok y).besideRamAndChans

/-- The bypass of BQ_STEP (44_biquad.md R190). -/
def Obligations.BqBypass : Prop :=
  ∀ (ch : BitVec 8) (x : F32) (s : State), s.prepared = true → ch.toNat < s.nch → s.bqValid = false →
    exec (.bqStep ch x) s = .next (s.finish 0x46#8 ch .invalidFilterParameter x)

/-- NAPF_STEP (45_nested_apf.md R213), and its first response from cleared memory. -/
def Obligations.NapfStep : Prop :=
  (∀ (ch : BitVec 8) (x : F32) (s : State), s.ChannelReady ch →
    ∃ (nan : Nat → F32) (t : State), NanSource nan ∧ exec (.napfStep ch x) s = .next t ∧
      let r := s.chan ch
      let gv := fmul (nan 2) s.g2 r.pv
      t.chan ch = { r with pw1 := fsub (nan 1) x (fmul (nan 0) s.g1 r.pw2), pw2 := r.pw1, pv := fsub (nan 3) r.pw1 gv } ∧
      (∀ ch' : BitVec 8, ch' ≠ ch → t.chan ch' = s.chan ch') ∧ t.mem = s.mem ∧
      t.besideRamAndChans = (s.finish 0x52#8 ch .ok (fadd (nan 4) gv x)).besideRamAndChans) ∧
  ∀ (nan : Nat → F32) (g x : F32), fisfinite g = true → fisfinite x = true →
    feq (fadd (nan 1) (fmul (nan 0) g 0x00000000#32) x) x = true

/-- The "written by" columns of 10_state.md and R29, R37; PREPARE writes WIDX and PSDLY by 40_lifecycle.md R101
(notes/assumptions/11.md). -/
def Obligations.RegisterOwners : Prop :=
  ∀ (i : Instr) (s t : State), exec i s = .next t →
    t.nchMax = s.nchMax ∧ t.capMax = s.capMax ∧
    (t.prepared ≠ s.prepared ∨ t.sr ≠ s.sr ∨ t.nch ≠ s.nch → i.opcode = 0x01#8) ∧
    (t.dlConf ≠ s.dlConf ∨ t.cap ≠ s.cap → i.opcode ∈ [0x01#8, 0x10#8]) ∧
    (t.dly ≠ s.dly → i.opcode ∈ [0x10#8, 0x11#8, 0x12#8]) ∧
    (t.noteDiv ≠ s.noteDiv → i.opcode = 0x13#8) ∧
    (t.interp ≠ s.interp → i.opcode = 0x14#8) ∧
    (t.mdMode ≠ s.mdMode → i.opcode = 0x20#8) ∧
    (t.mdRate ≠ s.mdRate → i.opcode = 0x21#8) ∧
    (t.mdRateHz ≠ s.mdRateHz → i.opcode ∈ [0x20#8, 0x21#8]) ∧
    (t.mdDepth ≠ s.mdDepth → i.opcode = 0x22#8) ∧
    (t.mdBase ≠ s.mdBase → i.opcode ∈ [0x23#8, 0x24#8]) ∧
    (t.psSemi ≠ s.psSemi ∨ t.psRate ≠ s.psRate → i.opcode = 0x30#8) ∧
    (t.bqType ≠ s.bqType → i.opcode = 0x40#8) ∧
    (t.bqForm ≠ s.bqForm → i.opcode = 0x41#8) ∧
    (t.bqF ≠ s.bqF → i.opcode = 0x42#8) ∧
    (t.bqQ ≠ s.bqQ → i.opcode = 0x43#8) ∧
    (t.bqG ≠ s.bqG → i.opcode = 0x44#8) ∧
    (t.bqValid ≠ s.bqValid ∨ t.coef ≠ s.coef →
      i.opcode ∈ [0x01#8, 0x40#8, 0x41#8, 0x42#8, 0x43#8, 0x44#8, 0x45#8]) ∧
    (t.g1 ≠ s.g1 → i.opcode = 0x50#8) ∧
    (t.g2 ≠ s.g2 → i.opcode = 0x51#8) ∧
    (∀ (ch : BitVec 8) (k : Nat), t.memRead ch k ≠ s.memRead ch k →
      i.opcode ∈ [0x10#8, 0x15#8, 0x17#8, 0x25#8, 0x31#8]) ∧
    ∀ ch : BitVec 8,
      ((t.chan ch).widx ≠ (s.chan ch).widx → i.opcode ∈ [0x01#8, 0x10#8, 0x15#8, 0x17#8, 0x25#8, 0x31#8]) ∧
      ((t.chan ch).t ≠ (s.chan ch).t → i.opcode ∈ [0x01#8, 0x25#8]) ∧
      ((t.chan ch).psdly ≠ (s.chan ch).psdly → i.opcode ∈ [0x01#8, 0x10#8, 0x30#8, 0x31#8]) ∧
      ((t.chan ch).x1 ≠ (s.chan ch).x1 ∨ (t.chan ch).x2 ≠ (s.chan ch).x2 ∨ (t.chan ch).y1 ≠ (s.chan ch).y1 ∨
        (t.chan ch).y2 ≠ (s.chan ch).y2 ∨ (t.chan ch).r1 ≠ (s.chan ch).r1 ∨ (t.chan ch).r2 ≠ (s.chan ch).r2 ∨
        (t.chan ch).w1 ≠ (s.chan ch).w1 ∨ (t.chan ch).w2 ≠ (s.chan ch).w2 → i.opcode ∈ [0x01#8, 0x41#8, 0x46#8]) ∧
      ((t.chan ch).pw1 ≠ (s.chan ch).pw1 ∨ (t.chan ch).pw2 ≠ (s.chan ch).pw2 ∨ (t.chan ch).pv ≠ (s.chan ch).pv →
        i.opcode ∈ [0x01#8, 0x52#8])

/-- Channels share no filter memory and no buffer row (30_encoding.md R80, 20_memory.md R60). -/
def Obligations.ChannelsIndependent : Prop :=
  ∀ (i : Instr) (s s' : State), i.hasChannel = true → s.ShapeOk → s'.ShapeOk → s.mem.wf = true → s'.mem.wf = true →
    s.besideRamAndChans = s'.besideRamAndChans → s.chan i.channel = s'.chan i.channel →
    (∀ k, s.memRead i.channel k = s'.memRead i.channel k) →
    ∃ t t' : State, exec i s = .next t ∧ exec i s' = .next t' ∧
      t.besideRamAndChans = t'.besideRamAndChans ∧ t.chan i.channel = t'.chan i.channel ∧
      (∀ k, t.memRead i.channel k = t'.memRead i.channel k) ∧
      ∀ ch : BitVec 8, ch ≠ i.channel → t.chan ch = s.chan ch ∧ ∀ k, t.memRead ch k = s.memRead ch k

/-- The contents of the RAM before a DL_CONFIG are unreachable (10_state.md R27), over whole runs; so what they are at
reset matters to no run. -/
def Obligations.UnwrittenRamUnobserved : Prop :=
  (∀ (s s' : State) (n : Nat), s.dlConf = false → s.mem.wf = true → s'.mem.wf = true → s' = { s with mem := s'.mem } →
    ∃ t t' : State, Host.Core.run Sys2Proof.core n s = .next t ∧ Host.Core.run Sys2Proof.core n s' = .next t' ∧
      t.rspOut = t'.rspOut ∧ t' = { t with mem := t'.mem }) ∧
  ∀ nchMax capMax : Nat, (State.resetWith nchMax capMax).dlConf = false ∧ (State.resetWith nchMax capMax).cap = 0

/-- The invariants of 10_state.md R22, R23, R26, R31, R32, R35, the band of 42_mod_delay.md R142, R147, and the
parameter ranges of 00_scope.md R6 and 60_exceptions.md R233 (State.Inv in Sys2Proof/Safety.lean), kept by every step
from every state that has them. -/
def Obligations.StepKeepsInvariants : Prop :=
  ∀ s : State, s.Inv → ∃ t : State, step s = .next t ∧ t.Inv

/-- Reset starts in the invariants, for every NCH_MAX and CAP_MAX of 00_scope.md R6; the values in State.reset are the
model's choice (notes/assumptions/3.md). -/
def Obligations.ResetHasInvariants : Prop :=
  (∀ nchMax capMax : Nat, 1 ≤ nchMax → nchMax ≤ 255 → 1 ≤ capMax → capMax ≤ 2 ^ 24 →
    (State.resetWith nchMax capMax).Inv) ∧ State.reset.Inv

/-- The reset values (10_state.md R39, 70_reset_and_hazards.md R250) and the discarded commands (R251). That no
earlier response is held after reset is the model's choice (notes/assumptions/12.md), and so is what a channel at or
above NCH_MAX, which has no registers, answers (notes/assumptions/8.md). What the delay RAM holds is not stated: it is
unspecified and unreachable (R27). -/
def Obligations.ResetValues : Prop :=
  ∀ s : State,
    let t := s.hardwareReset
    (t.prepared = false ∧ t.dlConf = false ∧ t.bqValid = false ∧ t.errFlags = 0#32 ∧ t.errLast = 0#32 ∧
      t.status = 0x00000000#32 ∧ t.sr = 0x00000000#32 ∧ t.nch = 0 ∧ t.nchMax = s.nchMax ∧ t.capMax = s.capMax) ∧
    (t.cap = 0 ∧ t.dly = 0x00000000#32 ∧ t.noteDiv = 0x3F800000#32 ∧ t.interp = true) ∧
    (t.mdMode = .chorus ∧ t.mdRate = 0x00000000#32 ∧ t.mdRateHz = 0x3DCCCCCD#32 ∧ t.mdDepth = 0x00000000#32 ∧
      t.mdBase = 0x00000000#32) ∧
    (t.psSemi = 0x00000000#32 ∧ t.psRate = 0x00000000#32) ∧
    (t.bqType = .lpf ∧ t.bqForm = .tdf2 ∧ t.bqF = 0x447A0000#32 ∧ t.bqQ = 0x3F34FDF4#32 ∧ t.bqG = 0x00000000#32 ∧
      t.coef = { b0 := 0x00000000#32, b1 := 0x00000000#32, b2 := 0x00000000#32
                 a0 := 0x00000000#32, a1 := 0x00000000#32, a2 := 0x00000000#32 }) ∧
    (t.g1 = 0x00000000#32 ∧ t.g2 = 0x00000000#32) ∧ t.cmdIn = [] ∧ t.rspOut = [] ∧ t.chans.length = s.nchMax ∧
    ∀ ch : BitVec 8, t.chan ch =
      { widx := 0, t := 0x00000000#32, psdly := 0x00000000#32, x1 := 0x00000000#32, x2 := 0x00000000#32,
        y1 := 0x00000000#32, y2 := 0x00000000#32, r1 := 0x00000000#32, r2 := 0x00000000#32, w1 := 0x00000000#32,
        w2 := 0x00000000#32, pw1 := 0x00000000#32, pw2 := 0x00000000#32, pv := 0x00000000#32 }

end
end

