-- ==== Sys2Proof/Laws/Float.lean ====
section
/-!
SUPPORT. Facts of the binary32 arithmetic of Machine/Float.lean and of the open functions of Machine/Num.lean: NaN
results, the order of patterns, rounding is monotone and leaves an F32 unchanged, laws L2 to L5 (00_scope.md R10).
-/
namespace Sys2Proof.Machine

/-! ## NaN patterns -/

/-- A drawn pattern is a NaN. -/
@[simp] theorem isNaN_nanOf (d : BitVec 32) : isNaN (nanOf d) = true := by
  unfold nanOf
  split
  · assumption
  · decide

/-- Every NaN pattern can be drawn. -/
theorem nanOf_of_isNaN {x : F32} (h : isNaN x = true) : nanOf x = x := by
  simp [nanOf, h]

theorem isNaN_of_finite {x : F32} (h : fisfinite x = true) : isNaN x = false := by
  simp_all [fisfinite, isNaN]

theorem isInf_of_finite {x : F32} (h : fisfinite x = true) : isInf x = false := by
  simp_all [fisfinite, isInf]

theorem finite_of_not {x : F32} (h : isNaN x = false) (h' : isInf x = false) : fisfinite x = true := by
  simp_all [fisfinite, isNaN, isInf]

@[simp] theorem not_finite_nanOf (d : BitVec 32) : fisfinite (nanOf d) = false := by
  cases h : fisfinite (nanOf d)
  · rfl
  · have := isNaN_of_finite h; simp at this

/-! ## An operation on operands that are not NaN and infinity draws nothing -/

theorem fadd_of_finite (nan : F32) {a b : F32} (ha : fisfinite a = true) (hb : fisfinite b = true) :
    fadd nan a b = ofUnits (signBit a && signBit b) (signedUnits a + signedUnits b) := by
  simp [fadd, isNaN_of_finite ha, isNaN_of_finite hb, isInf_of_finite ha, isInf_of_finite hb]

theorem fmul_of_finite (nan : F32) {a b : F32} (ha : fisfinite a = true) (hb : fisfinite b = true) :
    fmul nan a b = packF32 (signBit a != signBit b) (roundUnits (units a * units b) oneUnits) := by
  simp [fmul, isNaN_of_finite ha, isNaN_of_finite hb, isInf_of_finite ha, isInf_of_finite hb]

theorem fdiv_of_finite (nan : F32) {a b : F32} (ha : fisfinite a = true) (hb : fisfinite b = true)
    (h0 : isZero b = false) :
    fdiv nan a b = packF32 (signBit a != signBit b) (roundUnits (units a * oneUnits) (units b)) := by
  simp [fdiv, isNaN_of_finite ha, isNaN_of_finite hb, isInf_of_finite ha, isInf_of_finite hb, h0]

theorem ffloor_of_finite (nan : F32) {a : F32} (ha : fisfinite a = true) :
    ffloor nan a = if isZero a then a else ofUnits false (signedUnits a / (oneUnits : Int) * (oneUnits : Int)) := by
  simp [ffloor, isNaN_of_finite ha, isInf_of_finite ha]

/-- A NaN operand makes the sum the given NaN. -/
theorem fadd_of_nan (nan a b : F32) (h : isNaN a = true ∨ isNaN b = true) : fadd nan a b = nan := by
  rcases h with h | h <;> simp [fadd, h]

theorem fmul_of_nan (nan a b : F32) (h : isNaN a = true ∨ isNaN b = true) : fmul nan a b = nan := by
  rcases h with h | h <;> simp [fmul, h]

theorem fdiv_of_nan (nan a b : F32) (h : isNaN a = true ∨ isNaN b = true) : fdiv nan a b = nan := by
  rcases h with h | h <;> simp [fdiv, h]

/-- The given NaN is the result of a sum whatever it is, or never: which NaN is given shows nowhere else. -/
theorem fadd_draw (a b : F32) : (∀ n n', fadd n a b = fadd n' a b) ∨ ∀ n, fadd n a b = n := by
  unfold fadd
  split
  · exact .inr fun _ => rfl
  split
  · split
    · exact .inr fun _ => rfl
    · exact .inl fun _ _ => rfl
  split <;> exact .inl fun _ _ => rfl

theorem fsub_draw (a b : F32) : (∀ n n', fsub n a b = fsub n' a b) ∨ ∀ n, fsub n a b = n := by
  unfold fsub
  split
  · exact .inr fun _ => rfl
  exact fadd_draw a (fneg b)

theorem fmul_draw (a b : F32) : (∀ n n', fmul n a b = fmul n' a b) ∨ ∀ n, fmul n a b = n := by
  unfold fmul
  dsimp only
  split
  · exact .inr fun _ => rfl
  split
  · split
    · exact .inr fun _ => rfl
    · exact .inl fun _ _ => rfl
  · exact .inl fun _ _ => rfl

/-- Two results that are equal, or both a NaN: all that two sources of NaN patterns leave of an operation. -/
def AlikeOrNaN (x y : F32) : Prop := x = y ∨ isNaN x = true ∧ isNaN y = true

theorem alike_of_draw {f : F32 → F32} (h : (∀ n n', f n = f n') ∨ ∀ n, f n = n) {n n' : F32} (hn : isNaN n = true)
    (hn' : isNaN n' = true) : AlikeOrNaN (f n) (f n') := by
  rcases h with h | h
  · exact .inl (h n n')
  · exact .inr ⟨(h n).symm ▸ hn, (h n').symm ▸ hn'⟩

/-- A sum of alike terms is alike, whatever NaN patterns are drawn. -/
theorem fadd_alike {n n' p p' q q' : F32} (hn : isNaN n = true) (hn' : isNaN n' = true) (hp : AlikeOrNaN p p')
    (hq : AlikeOrNaN q q') : AlikeOrNaN (fadd n p q) (fadd n' p' q') := by
  rcases hp with rfl | ⟨hp, hp'⟩
  · rcases hq with rfl | ⟨hq, hq'⟩
    · exact alike_of_draw (fadd_draw p q) hn hn'
    · rw [fadd_of_nan n p q (.inr hq), fadd_of_nan n' p q' (.inr hq')]
      exact .inr ⟨hn, hn'⟩
  · rw [fadd_of_nan n p q (.inl hp), fadd_of_nan n' p' q' (.inl hp')]
    exact .inr ⟨hn, hn'⟩

/-- So is a product. -/
theorem fmul_alike {n n' p p' q q' : F32} (hn : isNaN n = true) (hn' : isNaN n' = true) (hp : AlikeOrNaN p p')
    (hq : AlikeOrNaN q q') : AlikeOrNaN (fmul n p q) (fmul n' p' q') := by
  rcases hp with rfl | ⟨hp, hp'⟩
  · rcases hq with rfl | ⟨hq, hq'⟩
    · exact alike_of_draw (fmul_draw p q) hn hn'
    · rw [fmul_of_nan n p q (.inr hq), fmul_of_nan n' p q' (.inr hq')]
      exact .inr ⟨hn, hn'⟩
  · rw [fmul_of_nan n p q (.inl hp), fmul_of_nan n' p' q' (.inl hp')]
    exact .inr ⟨hn, hn'⟩

/-- A comparison with a NaN is false. -/
theorem fle_of_nan {x y : F32} (h : isNaN x = true ∨ isNaN y = true) : fle x y = false := by
  rcases h with h | h <;> simp [fle, h]

theorem flt_of_nan {x y : F32} (h : isNaN x = true ∨ isNaN y = true) : flt x y = false := by
  rcases h with h | h <;> simp [flt, h]

/-! ## Patterns and magnitudes -/

/-- The magnitude, in units, of the 31 low bits of a pattern. -/
def magUnits (b : Nat) : Nat :=
  if b / 2 ^ 23 = 0 then b else (2 ^ 23 + b % 2 ^ 23) * 2 ^ (b / 2 ^ 23 - 1)

/-- The 31 low bits of a pattern. -/
def magBits (x : F32) : Nat := x.toNat % 2 ^ 31

theorem magBits_lt (x : F32) : magBits x < 2 ^ 31 := Nat.mod_lt _ (by decide)

theorem expField_eq (x : F32) : expField x = magBits x / 2 ^ 23 := by
  unfold expField magBits; omega

theorem fracField_eq (x : F32) : fracField x = magBits x % 2 ^ 23 := by
  unfold fracField magBits; omega

theorem units_eq (x : F32) : units x = magUnits (magBits x) := by
  simp only [units, magUnits, expField_eq, fracField_eq]
  by_cases h : magBits x / 2 ^ 23 = 0
  · simp only [h, if_true]
    have : magBits x < 2 ^ 23 := by omega
    exact Nat.mod_eq_of_lt this
  · simp only [h, if_false]

theorem fisfinite_iff (x : F32) : fisfinite x = true ↔ magBits x < 0x7F800000 := by
  have := magBits_lt x
  simp only [fisfinite, expField_eq, bne_iff_ne, ne_eq]
  omega

theorem isNaN_iff (x : F32) : isNaN x = true ↔ 0x7F800000 < magBits x := by
  have := magBits_lt x
  simp only [isNaN, expField_eq, fracField_eq, Bool.and_eq_true, beq_iff_eq, bne_iff_ne, ne_eq]
  omega

theorem isZero_iff (x : F32) : isZero x = true ↔ magBits x = 0 := by
  simp [isZero, magBits]

theorem magBits_packF32 (s : Bool) {m : Nat} (h : m < 2 ^ 31) : magBits (packF32 s m) = m := by
  cases s <;> simp only [magBits, packF32, BitVec.toNat_ofNat, if_true, Bool.false_eq_true, if_false] <;> omega

theorem signBit_packF32 (s : Bool) {m : Nat} (h : m < 2 ^ 31) : signBit (packF32 s m) = s := by
  cases s <;> simp only [signBit, packF32, BitVec.msb_eq_decide, BitVec.toNat_ofNat, if_true, Bool.false_eq_true,
    if_false, decide_eq_false_iff_not, decide_eq_true_eq] <;> omega

/-- A pattern is its sign and its magnitude bits. -/
theorem packF32_self (x : F32) : packF32 (signBit x) (magBits x) = x := by
  apply BitVec.eq_of_toNat_eq
  have := x.isLt
  simp only [packF32, signBit, magBits, BitVec.msb_eq_decide, BitVec.toNat_ofNat]
  by_cases h : 2 ^ (32 - 1) ≤ x.toNat
  · simp only [h, decide_true, if_true]; omega
  · simp only [h, decide_false, Bool.false_eq_true, if_false]; omega

theorem magBits_fneg (x : F32) : magBits (fneg x) = magBits x := by
  have h : (0x80000000#32).toNat = 2 ^ 31 := by decide
  simp only [magBits, fneg, BitVec.toNat_xor, h, Nat.xor_mod_two_pow]
  simp

theorem signBit_fneg (x : F32) : signBit (fneg x) = !signBit x := by
  have h : (0x80000000#32).msb = true := by decide
  simp [signBit, fneg, BitVec.msb_xor, h]

/-- Negation negates the value. -/
theorem signedUnits_fneg (x : F32) : signedUnits (fneg x) = -signedUnits x := by
  simp only [signedUnits, signBit_fneg, units_eq, magBits_fneg]
  cases signBit x <;> simp

theorem fisfinite_fneg (x : F32) : fisfinite (fneg x) = fisfinite x := by
  have h1 := fisfinite_iff x
  have h2 := fisfinite_iff (fneg x)
  rw [magBits_fneg] at h2
  exact Bool.eq_iff_iff.mpr (h2.trans h1.symm)

theorem fsub_of_finite (nan : F32) {a b : F32} (ha : fisfinite a = true) (hb : fisfinite b = true) :
    fsub nan a b = ofUnits (signBit a && !signBit b) (signedUnits a - signedUnits b) := by
  rw [fsub, if_neg (by simp [isNaN_of_finite hb]), fadd_of_finite nan ha (by rw [fisfinite_fneg, hb]), signBit_fneg,
    signedUnits_fneg, sub_eq_add_neg]

theorem magUnits_succ (b : Nat) : magUnits b < magUnits (b + 1) := by
  unfold magUnits
  by_cases h0 : (b + 1) / 2 ^ 23 = 0
  · have hb : b / 2 ^ 23 = 0 := by omega
    rw [if_pos hb, if_pos h0]; omega
  · by_cases hb : b / 2 ^ 23 = 0
    · have h1 : (b + 1) / 2 ^ 23 = 1 := by omega
      have h2 : (b + 1) % 2 ^ 23 = 0 := by omega
      rw [if_pos hb, if_neg h0, h1, h2]
      simp; omega
    · rw [if_neg hb, if_neg h0]
      by_cases hc : (b + 1) % 2 ^ 23 = 0
      · have h1 : (b + 1) / 2 ^ 23 = b / 2 ^ 23 + 1 := by omega
        have h2 : b % 2 ^ 23 = 2 ^ 23 - 1 := by omega
        rw [h1, h2, hc]
        have h3 : b / 2 ^ 23 + 1 - 1 = (b / 2 ^ 23 - 1) + 1 := by omega
        rw [h3, pow_succ 2 (b / 2 ^ 23 - 1)]
        have : 0 < 2 ^ (b / 2 ^ 23 - 1) := by positivity
        omega
      · have h1 : (b + 1) / 2 ^ 23 = b / 2 ^ 23 := by omega
        have h2 : (b + 1) % 2 ^ 23 = b % 2 ^ 23 + 1 := by omega
        rw [h1, h2]
        exact Nat.mul_lt_mul_of_pos_right (by omega) (by positivity)

/-- A larger pattern is a larger magnitude. -/
theorem magUnits_strictMono : StrictMono magUnits := strictMono_nat_of_lt_succ magUnits_succ

theorem units_eq_zero_iff (x : F32) : units x = 0 ↔ magBits x = 0 := by
  rw [units_eq]
  refine ⟨fun h => ?_, fun h => by simp [h, magUnits]⟩
  by_contra hne
  have := magUnits_strictMono (Nat.pos_of_ne_zero hne)
  rw [h] at this
  exact absurd this (by simp [magUnits])

/-! ## Rounding -/

theorem roundHalfEven_le (n d : Nat) : roundHalfEven n d ≤ n / d + 1 := by
  unfold roundHalfEven
  dsimp only
  split <;> omega

theorem le_roundHalfEven (n d : Nat) : n / d ≤ roundHalfEven n d := by
  unfold roundHalfEven
  dsimp only
  split <;> omega

theorem roundHalfEven_mul {d : Nat} (hd : 0 < d) (m : Nat) : roundHalfEven (m * d) d = m := by
  unfold roundHalfEven
  simp [Nat.mul_div_cancel _ hd, Nat.mul_mod_left]
  omega

theorem roundHalfEven_mono {n d n' d' : Nat} (hd : 0 < d) (hd' : 0 < d') (h : n * d' ≤ n' * d) :
    roundHalfEven n d ≤ roundHalfEven n' d' := by
  have hq : n / d ≤ n' / d' := by
    rw [Nat.le_div_iff_mul_le hd']
    have h1 : n / d * d ≤ n := Nat.div_mul_le_self n d
    have : n / d * d' * d ≤ n' * d := by
      calc n / d * d' * d = (n / d * d) * d' := by ring
        _ ≤ n * d' := Nat.mul_le_mul_right _ h1
        _ ≤ n' * d := h
    exact Nat.le_of_mul_le_mul_right this hd
  rcases Nat.lt_or_ge (n / d) (n' / d') with hlt | hge
  · calc roundHalfEven n d ≤ n / d + 1 := roundHalfEven_le n d
      _ ≤ n' / d' := hlt
      _ ≤ roundHalfEven n' d' := le_roundHalfEven n' d'
  · have heq : n / d = n' / d' := Nat.le_antisymm hq hge
    have hn := Nat.div_add_mod n d
    have hn' := Nat.div_add_mod n' d'
    have hr : n % d * d' ≤ n' % d' * d := by
      have e1 : n * d' = d * (n / d) * d' + n % d * d' := by rw [← add_mul, hn]
      have e2 : n' * d = d' * (n' / d') * d + n' % d' * d := by rw [← add_mul, hn']
      rw [e1, e2, ← heq] at h
      have : d * (n / d) * d' = d' * (n / d) * d := by ring
      omega
    unfold roundHalfEven
    dsimp only
    rw [← heq]
    by_cases hup : d < 2 * (n % d) ∨ (2 * (n % d) = d ∧ n / d % 2 = 1)
    · have hup' : d' < 2 * (n' % d') ∨ (2 * (n' % d') = d' ∧ n / d % 2 = 1) := by
        rcases hup with hup | ⟨hup, hodd⟩
        · left
          have : d * d' < 2 * (n' % d') * d := by nlinarith
          nlinarith
        · have : d * d' ≤ 2 * (n' % d') * d := by nlinarith
          have : d' ≤ 2 * (n' % d') := by nlinarith
          rcases Nat.lt_or_ge d' (2 * (n' % d')) with hlt | hge'
          · exact .inl hlt
          · exact .inr ⟨by omega, hodd⟩
      rw [if_pos hup, if_pos hup']
    · rw [if_neg hup]
      split <;> omega

/-- The exponent step `roundUnits` takes leaves at most 24 bits. -/
theorem log2_step (q : Nat) : q < 2 ^ (q.log2 - 23 + 24) := by
  rcases Nat.eq_zero_or_pos q with rfl | hq
  · simp
  · have : q < 2 ^ (q.log2 + 1) := Nat.lt_log2_self
    exact this.trans_le (Nat.pow_le_pow_right (by decide) (by omega))

theorem log2_step_low {q : Nat} (h : q.log2 - 23 ≠ 0) : 2 ^ (q.log2 - 23 + 23) ≤ q := by
  have hq : q ≠ 0 := by rintro rfl; simp at h
  have : 2 ^ q.log2 ≤ q := Nat.log2_self_le hq
  have e : q.log2 - 23 + 23 = q.log2 := by omega
  rwa [e]

theorem log2_mono {a b : Nat} (h : a ≤ b) : a.log2 ≤ b.log2 := by
  rw [Nat.log2_eq_log_two, Nat.log2_eq_log_two]
  exact Nat.log_mono_right h

/-- Rounding is monotone. -/
theorem roundUnits_mono {n d n' d' : Nat} (hd : 0 < d) (hd' : 0 < d') (h : n * d' ≤ n' * d) :
    roundUnits n d ≤ roundUnits n' d' := by
  have hq : n / d ≤ n' / d' := by
    rw [Nat.le_div_iff_mul_le hd']
    have h1 : n / d * d ≤ n := Nat.div_mul_le_self n d
    have : n / d * d' * d ≤ n' * d := by
      calc n / d * d' * d = (n / d * d) * d' := by ring
        _ ≤ n * d' := Nat.mul_le_mul_right _ h1
        _ ≤ n' * d := h
    exact Nat.le_of_mul_le_mul_right this hd
  have hk : (n / d).log2 - 23 ≤ (n' / d').log2 - 23 := Nat.sub_le_sub_right (log2_mono hq) 23
  unfold roundUnits
  dsimp only
  refine min_le_min ?_ le_rfl
  generalize hkdef : (n / d).log2 - 23 = k at hk
  generalize hkdef' : (n' / d').log2 - 23 = k' at hk
  rcases Nat.lt_or_ge k k' with hlt | hge
  · have hm : roundHalfEven n (d * 2 ^ k) ≤ 2 ^ 24 := by
      have h1 : n / (d * 2 ^ k) < 2 ^ 24 := by
        rw [← Nat.div_div_eq_div_mul, Nat.div_lt_iff_lt_mul (by positivity), ← pow_add]
        have := log2_step (n / d)
        rw [hkdef] at this
        rwa [Nat.add_comm 24 k]
      have := roundHalfEven_le n (d * 2 ^ k)
      omega
    have hm' : 2 ^ 23 ≤ roundHalfEven n' (d' * 2 ^ k') := by
      refine le_trans ?_ (le_roundHalfEven n' (d' * 2 ^ k'))
      rw [← Nat.div_div_eq_div_mul, Nat.le_div_iff_mul_le (by positivity), ← pow_add]
      have := log2_step_low (q := n' / d') (by omega)
      rw [hkdef'] at this
      rwa [Nat.add_comm 23 k']
    have : k + 1 ≤ k' := hlt
    nlinarith
  · have : k = k' := by omega
    subst this
    have : roundHalfEven n (d * 2 ^ k) ≤ roundHalfEven n' (d' * 2 ^ k) := by
      refine roundHalfEven_mono (by positivity) (by positivity) ?_
      calc n * (d' * 2 ^ k) = n * d' * 2 ^ k := by ring
        _ ≤ n' * d * 2 ^ k := Nat.mul_le_mul_right _ h
        _ = n' * (d * 2 ^ k) := by ring
    omega

/-- Rounding depends on the ratio alone. -/
theorem roundUnits_ratio {n d n' d' : Nat} (hd : 0 < d) (hd' : 0 < d') (h : n * d' = n' * d) :
    roundUnits n d = roundUnits n' d' :=
  Nat.le_antisymm (roundUnits_mono hd hd' h.le) (roundUnits_mono hd' hd h.ge)

theorem roundUnits_le (n d : Nat) : roundUnits n d ≤ 0x7F800000 := Nat.min_le_right _ _

theorem roundUnits_lt (n d : Nat) : roundUnits n d < 2 ^ 31 := Nat.lt_of_le_of_lt (roundUnits_le n d) (by decide)

/-- The magnitude of a finite F32 rounds to its own pattern. -/
theorem roundUnits_magUnits {b : Nat} (h : b ≤ 0x7F800000) : roundUnits (magUnits b) 1 = b := by
  unfold roundUnits magUnits
  dsimp only
  rw [Nat.div_one, Nat.one_mul]
  by_cases h0 : b / 2 ^ 23 = 0
  · rw [if_pos h0]
    have hb : b < 2 ^ 23 := by omega
    have hk : b.log2 - 23 = 0 := by
      rcases Nat.eq_zero_or_pos b with rfl | hpos
      · simp
      · have := (Nat.log2_lt (by omega)).mpr hb
        omega
    rw [hk]
    have := roundHalfEven_mul (d := 2 ^ 0) (by decide) b
    simp only [pow_zero, Nat.mul_one] at this
    simp only [pow_zero, this]
    omega
  · rw [if_neg h0]
    generalize he : b / 2 ^ 23 - 1 = e
    have hlog : ((2 ^ 23 + b % 2 ^ 23) * 2 ^ e).log2 = 23 + e := by
      have hpos : 0 < 2 ^ e := by positivity
      have hm : b % 2 ^ 23 < 2 ^ 23 := Nat.mod_lt _ (by decide)
      apply Nat.le_antisymm
      · refine Nat.le_of_lt_succ ((Nat.log2_lt (by positivity)).mpr ?_)
        have : (2 ^ 23 + b % 2 ^ 23) * 2 ^ e < 2 ^ 24 * 2 ^ e := Nat.mul_lt_mul_of_pos_right (by omega) hpos
        calc _ < 2 ^ 24 * 2 ^ e := this
          _ = 2 ^ (23 + e).succ := by rw [← pow_add]; congr 1; omega
      · refine (Nat.le_log2 (by positivity)).mpr ?_
        rw [pow_add]
        exact Nat.mul_le_mul_right _ (by omega)
    have hk : ((2 ^ 23 + b % 2 ^ 23) * 2 ^ e).log2 - 23 = e := by omega
    rw [hk, roundHalfEven_mul (by positivity)]
    omega

/-- A finite F32 rounds to itself. -/
theorem roundUnits_units {x : F32} (h : fisfinite x = true) : roundUnits (units x) 1 = magBits x := by
  rw [units_eq]
  exact roundUnits_magUnits (by have := (fisfinite_iff x).mp h; omega)

/-- What lies below a finite F32 rounds to a pattern at or below it. -/
theorem roundUnits_le_of_le {n d : Nat} {x : F32} (hd : 0 < d) (hx : fisfinite x = true) (h : n ≤ units x * d) :
    roundUnits n d ≤ magBits x := by
  rw [← roundUnits_units hx]
  exact roundUnits_mono hd (by decide) (by omega)

end Sys2Proof.Machine
end

