-- ==== Sys2Proof/Laws/Delay.lean ====
section
/-!
SUPPORT. Facts about delays: the order of F32 patterns without a sign, the capacity as an F32, that the initial
pitch-shift delay is always in range (43_pitch_shift.md R163, R164), and that the rate mapping stays in its band
(42_mod_delay.md R142, R143).
-/
namespace Sys2Proof.Machine

/-! ## Values of packed patterns -/

theorem units_packF32 (s : Bool) {m : Nat} (h : m < 2 ^ 31) : units (packF32 s m) = magUnits m := by
  rw [units_eq, magBits_packF32 s h]

theorem finite_packF32 (s : Bool) {m : Nat} (h : m < 0x7F800000) : fisfinite (packF32 s m) = true :=
  (fisfinite_iff _).mpr (by rw [magBits_packF32 s (by omega)]; exact h)

theorem signedUnits_of_nonneg {x : F32} (h : signBit x = false) : signedUnits x = (units x : Int) := by
  simp [signedUnits, h]

/-- A nonnegative finite value: no sign bit, not an infinity, not a NaN. -/
def isPlain (x : F32) : Prop := signBit x = false ∧ fisfinite x = true

theorem plain_packF32 {m : Nat} (h : m < 0x7F800000) : isPlain (packF32 false m) :=
  ⟨signBit_packF32 false (by omega), finite_packF32 false h⟩

theorem plain_self {x : F32} (h : isPlain x) : packF32 false (magBits x) = x := by
  have := packF32_self x
  rwa [h.1] at this

theorem flt_plain {x y : F32} (hx : isPlain x) (hy : isPlain y) : flt x y = decide (magBits x < magBits y) := by
  simp only [flt, isNaN_of_finite hx.2, isNaN_of_finite hy.2, signedUnits_of_nonneg hx.1, signedUnits_of_nonneg hy.1,
    units_eq, Bool.not_false, Bool.true_and, Nat.cast_lt, magUnits_strictMono.lt_iff_lt]

theorem fle_plain {x y : F32} (hx : isPlain x) (hy : isPlain y) : fle x y = decide (magBits x ≤ magBits y) := by
  simp only [fle, isNaN_of_finite hx.2, isNaN_of_finite hy.2, signedUnits_of_nonneg hx.1, signedUnits_of_nonneg hy.1,
    units_eq, Bool.not_false, Bool.true_and, Nat.cast_le, magUnits_strictMono.le_iff_le]

theorem plain_c0 : isPlain c0 := by constructor <;> decide

theorem magBits_c0 : magBits c0 = 0 := by decide

/-- A nonnegative finite delay is in range exactly when its pattern is below the capacity's. -/
theorem delayInRange_plain {d fC : F32} (hd : isPlain d) (hC : isPlain fC) :
    delayInRange d fC = decide (magBits d < magBits fC) := by
  simp [delayInRange, fle_plain plain_c0 hd, flt_plain hd hC, magBits_c0]

/-- A sum of units rounded, with the sign of the exact result. -/
theorem ofUnits_nonneg {z : Int} (h : 0 ≤ z) : ofUnits false z = packF32 false (roundUnits z.natAbs 1) := by
  unfold ofUnits
  by_cases h0 : z = 0
  · subst h0; decide
  · rw [if_neg h0, decide_eq_false (by omega)]

/-- A finite value at or above zero has no sign, or is -0.0. -/
theorem plain_or_negZero {d : F32} (h : fisfinite d = true) (h0 : fle c0 d = true) : isPlain d ∨ d = 0x80000000#32 := by
  by_cases hs : signBit d = false
  · exact .inl ⟨hs, h⟩
  · have hs : signBit d = true := by simpa using hs
    have hz : signedUnits c0 = 0 := by decide
    simp only [fle, Bool.and_eq_true, decide_eq_true_eq, hz] at h0
    have h1 := h0.2
    simp only [signedUnits, hs, if_true] at h1
    have hm := (units_eq_zero_iff d).mp (by omega)
    have hd := packF32_self d
    rw [hs, hm] at hd
    rw [← hd]
    exact .inr (by decide)

/-- A finite value above zero. -/
theorem plain_of_pos {x : F32} (hf : fisfinite x = true) (h : flt c0 x = true) : isPlain x ∧ 0 < units x := by
  have hz : signedUnits c0 = 0 := by decide
  simp only [flt, Bool.and_eq_true, decide_eq_true_eq, hz] at h
  have h1 := h.2
  unfold signedUnits at h1
  cases hs : signBit x
  · simp [hs] at h1; exact ⟨⟨hs, hf⟩, h1⟩
  · simp [hs] at h1; omega

/-! ## Numbers that are exact (00_scope.md R10) -/

/-- A number of at most 24 bits times a power of two, below 2^128, is the magnitude of some finite F32. -/
theorem exists_magUnits (m j : Nat) (hm : m < 2 ^ 24) (hj : j ≤ 253) :
    ∃ b, b < 0x7F800000 ∧ magUnits b = m * 2 ^ j := by
  induction j generalizing m with
  | zero =>
    by_cases h : m < 2 ^ 23
    · exact ⟨m, by omega, by simp only [magUnits]; rw [if_pos (by omega)]; omega⟩
    · refine ⟨m, by omega, ?_⟩
      have h1 : m / 2 ^ 23 = 1 := by omega
      unfold magUnits
      have e : m = 2 ^ 23 + m % 2 ^ 23 := by omega
      have e1 : 2 ^ (1 - 1) = 1 := rfl
      rw [h1, if_neg Nat.one_ne_zero, e1, Nat.mul_one, Nat.mul_one]
      exact e.symm
  | succ j ih =>
    by_cases h : m < 2 ^ 23
    · obtain ⟨b, hb, he⟩ := ih (m * 2) (by omega) (by omega)
      exact ⟨b, hb, by rw [he, pow_succ 2 j]; ring⟩
    · refine ⟨(j + 2) * 2 ^ 23 + (m - 2 ^ 23), by omega, ?_⟩
      have h1 : ((j + 2) * 2 ^ 23 + (m - 2 ^ 23)) / 2 ^ 23 = j + 2 := by omega
      have h2 : ((j + 2) * 2 ^ 23 + (m - 2 ^ 23)) % 2 ^ 23 = m - 2 ^ 23 := by omega
      unfold magUnits
      have h3 : 2 ^ 23 + (m - 2 ^ 23) = m := by omega
      rw [h1, h2, if_neg (Nat.succ_ne_zero _), h3, show j + 2 - 1 = j + 1 from rfl]

/-- Such a number rounds to a pattern of exactly its value. -/
theorem roundUnits_exact (m j : Nat) (hm : m < 2 ^ 24) (hj : j ≤ 253) :
    roundUnits (m * 2 ^ j) 1 < 0x7F800000 ∧ magUnits (roundUnits (m * 2 ^ j) 1) = m * 2 ^ j := by
  obtain ⟨b, hb, he⟩ := exists_magUnits m j hm hj
  rw [← he, roundUnits_magUnits (by omega)]
  exact ⟨hb, rfl⟩

theorem units_c1 : units c1 = oneUnits := by decide +kernel

theorem magBits_c1 : magBits c1 = 0x3F800000 := by decide

/-! ## The capacity (41_delay_line.md R110) -/

/-- `i2f` of a capacity is exact: it is below 2^24 or 2^24 itself. -/
theorem i2f_capacity {c : Nat} (hc : c ≤ 2 ^ 24) : isPlain (i2f c) ∧ units (i2f c) = c * oneUnits := by
  have hz : (0 : Int) ≤ (c : Int) * (oneUnits : Int) := by positivity
  have hna : ((c : Int) * (oneUnits : Int)).natAbs = c * oneUnits := by
    rw [Int.natAbs_mul, Int.natAbs_natCast, Int.natAbs_natCast]
  have hex : roundUnits (c * oneUnits) 1 < 0x7F800000 ∧ magUnits (roundUnits (c * oneUnits) 1) = c * oneUnits := by
    rcases Nat.lt_or_ge c (2 ^ 24) with h | h
    · exact roundUnits_exact c 149 h (by omega)
    · have : c = 2 ^ 24 := by omega
      subst this
      have := roundUnits_exact 1 173 (by decide) (by decide)
      have e : (1 : Nat) * 2 ^ 173 = 2 ^ 24 * oneUnits := by decide +kernel
      rwa [e] at this
  unfold i2f
  rw [ofUnits_nonneg hz, hna]
  exact ⟨plain_packF32 hex.1, by rw [units_packF32 false (by omega), hex.2]⟩

theorem magBits_capacity_pos {c : Nat} (h1 : 1 ≤ c) (hc : c ≤ 2 ^ 24) : 0 < magBits (i2f c) := by
  refine Nat.pos_of_ne_zero fun h => ?_
  have h2 := (units_eq_zero_iff _).mpr h
  rw [(i2f_capacity hc).2] at h2
  have : 0 < c * oneUnits := Nat.mul_pos h1 (by decide +kernel)
  omega

/-- A delay of +0.0 is in range of every capacity. -/
theorem zero_in_range {c : Nat} (h1 : 1 ≤ c) (hc : c ≤ 2 ^ 24) : delayInRange c0 (i2f c) = true := by
  rw [delayInRange_plain plain_c0 (i2f_capacity hc).1, magBits_c0]
  exact decide_eq_true (magBits_capacity_pos h1 hc)

/-! ## The initial pitch-shift delay (43_pitch_shift.md R163, R164) -/

/-- A delay from +0.0 to the capacity is brought into range by `wrapBoth`. -/
theorem wrapBoth_in_range (nan : Nat → F32) {d : F32} {c : Nat} (h1 : 1 ≤ c) (hc : c ≤ 2 ^ 24) (hd : isPlain d)
    (hle : magBits d ≤ magBits (i2f c)) :
    fisfinite (wrapBoth nan d c) = true ∧ delayInRange (wrapBoth nan d c) (i2f c) = true := by
  have hC := (i2f_capacity hc).1
  have hneg : flt d c0 = false := by simp [flt_plain hd plain_c0, magBits_c0]
  unfold wrapBoth
  simp only [hneg, Bool.false_eq_true, if_false, fle_plain hC hd]
  by_cases heq : magBits (i2f c) ≤ magBits d
  · have hdc : d = i2f c := by
      rw [← plain_self hd, ← plain_self hC, Nat.le_antisymm hle heq]
    simp only [heq, decide_true, if_true]
    have hsub : fsub (nan 1) d (i2f c) = c0 := by
      rw [hdc, fsub_of_finite _ hC.2 hC.2, hC.1, Int.sub_self]
      decide
    rw [hsub]
    exact ⟨by decide, zero_in_range h1 hc⟩
  · simp only [heq, decide_false, Bool.false_eq_true, if_false]
    refine ⟨hd.2, ?_⟩
    rw [delayInRange_plain hd hC]
    exact decide_eq_true (by omega)

/-- The largest whole number of ones not above a finite magnitude rounds to a pattern of exactly that value. -/
theorem roundUnits_floor {b : Nat} (hb : b < 0x7F800000) :
    roundUnits (magUnits b / oneUnits * oneUnits) 1 < 0x7F800000 ∧
      magUnits (roundUnits (magUnits b / oneUnits * oneUnits) 1) = magUnits b / oneUnits * oneUnits := by
  by_cases h0 : b / 2 ^ 23 = 0
  · have hu : magUnits b / oneUnits = 0 := by
      unfold magUnits
      rw [if_pos h0]
      refine Nat.div_eq_of_lt ?_
      have : (2 : Nat) ^ 23 ≤ oneUnits := by decide +kernel
      omega
    rw [hu, Nat.zero_mul]
    decide
  · have hm : magUnits b = (2 ^ 23 + b % 2 ^ 23) * 2 ^ (b / 2 ^ 23 - 1) := by
      unfold magUnits; rw [if_neg h0]
    by_cases hj : 149 ≤ b / 2 ^ 23 - 1
    · have hdvd : magUnits b / oneUnits * oneUnits = magUnits b := by
        refine Nat.div_mul_cancel ?_
        rw [hm]
        exact Dvd.dvd.mul_left (pow_dvd_pow 2 hj) _
      rw [hdvd, roundUnits_magUnits (by omega)]
      exact ⟨hb, rfl⟩
    · generalize he : b / 2 ^ 23 - 1 = e at *
      have hone : oneUnits = 2 ^ (149 - e) * 2 ^ e := by rw [← pow_add, oneUnits]; congr 1; omega
      have hq : magUnits b / oneUnits = (2 ^ 23 + b % 2 ^ 23) / 2 ^ (149 - e) := by
        rw [hm, hone, Nat.mul_div_mul_right _ _ (by positivity)]
      rw [hq]
      refine roundUnits_exact _ 149 ?_ (by decide)
      exact Nat.lt_of_le_of_lt (Nat.div_le_self _ _) (by omega)

theorem sub_natCast {a b c : Nat} (h : a = b + c) : (a : Int) - (b : Int) = (c : Int) := by omega

/-- The initial pitch-shift delay of a finite rate is in range. -/
theorem psInit_in_range (nan : Nat → F32) {rate : F32} {c : Nat} (hr : fisfinite rate = true) (h1 : 1 ≤ c)
    (hc : c ≤ 2 ^ 24) :
    fisfinite (psInit nan rate c) = true ∧ delayInRange (psInit nan rate c) (i2f c) = true := by
  unfold psInit
  by_cases hneg : flt rate c0 = true
  · rw [if_pos hneg]
    have hb := (fisfinite_iff rate).mp hr
    have hsu : signedUnits rate < 0 := by
      have : signedUnits c0 = 0 := by decide
      simp only [flt, Bool.and_eq_true, decide_eq_true_eq, this] at hneg
      exact hneg.2
    have hval : signedUnits rate = -(units rate : Int) := by
      unfold signedUnits at hsu ⊢
      split at hsu
      · rename_i h; rw [if_pos h]
      · omega
    have hm : fsub (nan 0) c0 rate = packF32 false (magBits rate) := by
      have h0 : signedUnits c0 = 0 := by decide
      have hs0 : signBit c0 = false := by decide
      rw [fsub_of_finite _ (by decide) hr, h0, hval, hs0, Bool.false_and, ofUnits_nonneg (by omega)]
      have e : (0 - -(units rate : Int)).natAbs = units rate := by omega
      rw [e, roundUnits_units hr]
    have hpos : magBits rate ≠ 0 := by
      intro h
      have := (units_eq_zero_iff rate).mpr h
      omega
    have hmz : isZero (packF32 false (magBits rate)) = false := by
      rw [Bool.eq_false_iff, ne_eq, isZero_iff, magBits_packF32 false (by omega)]
      exact hpos
    have hmp : isPlain (packF32 false (magBits rate)) := plain_packF32 hb
    have hmu : units (packF32 false (magBits rate)) = magUnits (magBits rate) := units_packF32 false (by omega)
    have hfl := roundUnits_floor hb
    have hfloor : ffloor (nan 1) (packF32 false (magBits rate)) =
        packF32 false (roundUnits (magUnits (magBits rate) / oneUnits * oneUnits) 1) := by
      rw [ffloor_of_finite _ hmp.2, hmz, signedUnits_of_nonneg hmp.1, hmu]
      simp only [Bool.false_eq_true, if_false]
      rw [ofUnits_nonneg (by positivity)]
      congr 2
    have hflp : isPlain (packF32 false (roundUnits (magUnits (magBits rate) / oneUnits * oneUnits) 1)) :=
      plain_packF32 hfl.1
    have hfm : isPlain (fsub (nan 2) (fsub (nan 0) c0 rate) (ffloor (nan 1) (fsub (nan 0) c0 rate))) ∧
        magBits (fsub (nan 2) (fsub (nan 0) c0 rate) (ffloor (nan 1) (fsub (nan 0) c0 rate))) ≤ magBits c1 := by
      rw [hm, hfloor, fsub_of_finite _ hmp.2 hflp.2, signedUnits_of_nonneg hmp.1, signedUnits_of_nonneg hflp.1, hmu,
        units_packF32 false (by omega), hfl.2, hmp.1, Bool.false_and]
      have hdm := Nat.div_add_mod (magUnits (magBits rate)) oneUnits
      have hdm' : magUnits (magBits rate) / oneUnits * oneUnits + magUnits (magBits rate) % oneUnits =
          magUnits (magBits rate) := by rw [Nat.mul_comm]; exact hdm
      have hlt : magUnits (magBits rate) % oneUnits < oneUnits := Nat.mod_lt _ (by decide +kernel)
      rw [sub_natCast hdm'.symm, ofUnits_nonneg (Int.natCast_nonneg _), Int.natAbs_natCast]
      have hle : roundUnits (magUnits (magBits rate) % oneUnits) 1 ≤ magBits c1 :=
        roundUnits_le_of_le (by decide) (by decide) (by rw [units_c1, Nat.mul_one]; exact Nat.le_of_lt hlt)
      have hc1 := magBits_c1
      exact ⟨plain_packF32 (by omega), by rw [magBits_packF32 false (by omega)]; exact hle⟩
    have hC := i2f_capacity hc
    obtain ⟨hfmp, hfmle⟩ := hfm
    have hfmu : units (fsub (nan 2) (fsub (nan 0) c0 rate) (ffloor (nan 1) (fsub (nan 0) c0 rate))) ≤ oneUnits := by
      rw [← units_c1, units_eq, units_eq]
      exact magUnits_strictMono.monotone hfmle
    have hle : roundUnits (units (i2f c) *
        units (fsub (nan 2) (fsub (nan 0) c0 rate) (ffloor (nan 1) (fsub (nan 0) c0 rate)))) oneUnits ≤
        magBits (i2f c) :=
      roundUnits_le_of_le (by decide +kernel) hC.1.2 (Nat.mul_le_mul_left _ hfmu)
    have hCb := (fisfinite_iff _).mp hC.1.2
    refine wrapBoth_in_range _ h1 hc ?_ ?_ <;>
      rw [fmul_of_finite _ hC.1.2 hfmp.2, hC.1.1, hfmp.1]
    · exact plain_packF32 (by omega)
    · rw [show (false != false) = false from rfl, magBits_packF32 false (by omega)]
      exact hle
  · rw [if_neg hneg]
    exact ⟨by decide, zero_in_range h1 hc⟩

/-! ## The rate mapping (42_mod_delay.md R142, R143) -/

/-- A percentage `MD_SET_RATE` accepts becomes a rate in [0,1] (42_mod_delay.md R143). -/
theorem rate_of_percent (nan : F32) {p : F32} (h : percentOk p = true) :
    fisfinite (fdiv nan p c100) = true ∧ fle c0 (fdiv nan p c100) = true ∧ fle (fdiv nan p c100) c1 = true := by
  simp only [percentOk, Bool.and_eq_true] at h
  obtain ⟨⟨hf, h0⟩, h1⟩ := h
  have hc : isPlain c100 := ⟨by decide, by decide⟩
  rw [fdiv_of_finite nan hf hc.2 (by decide), hc.1]
  rcases plain_or_negZero hf h0 with hp | rfl
  · rw [fle_plain hp hc, decide_eq_true_eq] at h1
    have hu : units p ≤ units c100 := by
      rw [units_eq, units_eq]; exact magUnits_strictMono.monotone h1
    have hle : roundUnits (units p * oneUnits) (units c100) ≤ magBits c1 :=
      roundUnits_le_of_le (by decide +kernel) (by decide)
        (by rw [units_c1, Nat.mul_comm oneUnits]; exact Nat.mul_le_mul_right _ hu)
    have hc1 := magBits_c1
    have hpl := plain_packF32 (m := roundUnits (units p * oneUnits) (units c100)) (by omega)
    rw [hp.1, show (false != false) = false from rfl, fle_plain plain_c0 hpl, fle_plain hpl ⟨by decide, by decide⟩,
      magBits_packF32 _ (by omega), magBits_c0]
    exact ⟨hpl.2, decide_eq_true (Nat.zero_le _), decide_eq_true hle⟩
  · decide

/-- The rate mapping sends [0,1] into the band of the mode (42_mod_delay.md R142). -/
theorem rateHz_in_band (nan : Nat → F32) (mode : MdMode) {r : F32} (hr : fisfinite r = true) (h0 : fle c0 r = true)
    (h1 : fle r c1 = true) :
    fisfinite (rateHz nan mode r) = true ∧ fle (minHz mode) (rateHz nan mode r) = true ∧
      fle (rateHz nan mode r) (maxHz mode) = true := by
  -- the width of the band, whatever the source of NaN patterns
  obtain ⟨w, hw, hwf, hsum⟩ : ∃ w : F32, (∀ n, fsub n (maxHz mode) (minHz mode) = w) ∧ isPlain w ∧
      roundUnits (units cTenth + units w) 1 ≤ magBits (maxHz mode) := by
    cases mode
    case flanger =>
      refine ⟨0x409CCCCD#32, fun n => ?_, ⟨by decide, by decide⟩, by decide +kernel⟩
      show fsub n c5 cTenth = _
      rw [fsub_of_finite _ (by decide) (by decide)]; decide +kernel
    all_goals
      refine ⟨0x411E6666#32, fun n => ?_, ⟨by decide, by decide⟩, by decide +kernel⟩
      show fsub n c10 cTenth = _
      rw [fsub_of_finite _ (by decide) (by decide)]; decide +kernel
  have hm : minHz mode = cTenth := rfl
  have hT : isPlain cTenth := ⟨by decide, by decide⟩
  have hM : isPlain (maxHz mode) := by cases mode <;> exact ⟨by decide, by decide⟩
  -- the product is between +0.0 and the width, or is -0.0
  have hu : units r ≤ oneUnits := by
    rcases plain_or_negZero hr h0 with hp | rfl
    · have hc : isPlain c1 := ⟨by decide, by decide⟩
      rw [fle_plain hp hc, decide_eq_true_eq] at h1
      rw [← units_c1, units_eq, units_eq]
      exact magUnits_strictMono.monotone h1
    · decide +kernel
  have hone : 0 < oneUnits := by decide +kernel
  have hple : roundUnits (units r * units w) oneUnits ≤ magBits w :=
    roundUnits_le_of_le hone hwf.2 (by rw [Nat.mul_comm]; exact Nat.mul_le_mul_left _ hu)
  have hwb := (fisfinite_iff w).mp hwf.2
  obtain ⟨p, hp⟩ : ∃ p, fmul (nan 1) r w = p := ⟨_, rfl⟩
  have hpf : fisfinite p = true ∧ signedUnits p = (units p : Int) ∧ units p ≤ units w := by
    rw [← hp, fmul_of_finite _ hr hwf.2, hwf.1]
    have hb := roundUnits_lt (units r * units w) oneUnits
    refine ⟨finite_packF32 _ (by omega), ?_, ?_⟩
    · rcases plain_or_negZero hr h0 with hpl | rfl
      · rw [hpl.1]; exact signedUnits_of_nonneg (signBit_packF32 _ hb)
      · have hz : units 0x80000000#32 = 0 := by decide
        rw [hz, Nat.zero_mul]
        decide +kernel
    · rw [units_packF32 _ hb]
      exact (magUnits_strictMono.monotone hple).trans_eq (units_eq w).symm
  have hmb : magBits (maxHz mode) < 0x7F800000 := (fisfinite_iff _).mp hM.2
  have hval : rateHz nan mode r = packF32 false (roundUnits (units cTenth + units p) 1) := by
    unfold rateHz
    rw [hw, hp, hm, fadd_of_finite _ hT.2 hpf.1, hpf.2.1, signedUnits_of_nonneg hT.1, hT.1, Bool.false_and,
      ofUnits_nonneg (by positivity)]
    rfl
  have hup : roundUnits (units cTenth + units p) 1 ≤ magBits (maxHz mode) :=
    (roundUnits_mono Nat.one_pos Nat.one_pos (by simp only [Nat.mul_one]; exact Nat.add_le_add_left hpf.2.2 _)).trans hsum
  have hlo : magBits cTenth ≤ roundUnits (units cTenth + units p) 1 := by
    rw [← roundUnits_units hT.2]
    exact roundUnits_mono Nat.one_pos Nat.one_pos (by simp only [Nat.mul_one]; exact Nat.le_add_right _ _)
  have hpl := plain_packF32 (m := roundUnits (units cTenth + units p) 1) (by omega)
  rw [hval, hm, fle_plain hT hpl, fle_plain hpl hM, magBits_packF32 _ (by omega)]
  exact ⟨hpl.2, decide_eq_true hlo, decide_eq_true hup⟩

end Sys2Proof.Machine
end

