-- ==== Sys2Proof/Laws/State.lean ====
section
/-!
SUPPORT. One lemma per field of State per named update: what the update leaves of the field. All hold by rfl, and
simp uses them, so no proof unfolds a record update.
-/
namespace Sys2Proof.Machine

variable (s : State) (opc ch k : BitVec 8) (c : Cause) (v : BitVec 32) (x : F32) (n : Nat) (r : ChanRegs)
  (ws : List Word64)

/-! ## finish -/

@[simp] theorem State.finish_prepared : (s.finish opc ch c v).prepared = s.prepared := rfl
@[simp] theorem State.finish_dlConf : (s.finish opc ch c v).dlConf = s.dlConf := rfl
@[simp] theorem State.finish_bqValid : (s.finish opc ch c v).bqValid = s.bqValid := rfl
@[simp] theorem State.finish_errFlags : (s.finish opc ch c v).errFlags = errFlagsAfter s.errFlags c := rfl
@[simp] theorem State.finish_errLast : (s.finish opc ch c v).errLast = errLastAfter s.errLast opc c := rfl
@[simp] theorem State.finish_sr : (s.finish opc ch c v).sr = s.sr := rfl
@[simp] theorem State.finish_nch : (s.finish opc ch c v).nch = s.nch := rfl
@[simp] theorem State.finish_nchMax : (s.finish opc ch c v).nchMax = s.nchMax := rfl
@[simp] theorem State.finish_capMax : (s.finish opc ch c v).capMax = s.capMax := rfl
@[simp] theorem State.finish_cap : (s.finish opc ch c v).cap = s.cap := rfl
@[simp] theorem State.finish_dly : (s.finish opc ch c v).dly = s.dly := rfl
@[simp] theorem State.finish_noteDiv : (s.finish opc ch c v).noteDiv = s.noteDiv := rfl
@[simp] theorem State.finish_interp : (s.finish opc ch c v).interp = s.interp := rfl
@[simp] theorem State.finish_mdMode : (s.finish opc ch c v).mdMode = s.mdMode := rfl
@[simp] theorem State.finish_mdRate : (s.finish opc ch c v).mdRate = s.mdRate := rfl
@[simp] theorem State.finish_mdRateHz : (s.finish opc ch c v).mdRateHz = s.mdRateHz := rfl
@[simp] theorem State.finish_mdDepth : (s.finish opc ch c v).mdDepth = s.mdDepth := rfl
@[simp] theorem State.finish_mdBase : (s.finish opc ch c v).mdBase = s.mdBase := rfl
@[simp] theorem State.finish_psSemi : (s.finish opc ch c v).psSemi = s.psSemi := rfl
@[simp] theorem State.finish_psRate : (s.finish opc ch c v).psRate = s.psRate := rfl
@[simp] theorem State.finish_bqType : (s.finish opc ch c v).bqType = s.bqType := rfl
@[simp] theorem State.finish_bqForm : (s.finish opc ch c v).bqForm = s.bqForm := rfl
@[simp] theorem State.finish_bqF : (s.finish opc ch c v).bqF = s.bqF := rfl
@[simp] theorem State.finish_bqQ : (s.finish opc ch c v).bqQ = s.bqQ := rfl
@[simp] theorem State.finish_bqG : (s.finish opc ch c v).bqG = s.bqG := rfl
@[simp] theorem State.finish_coef : (s.finish opc ch c v).coef = s.coef := rfl
@[simp] theorem State.finish_g1 : (s.finish opc ch c v).g1 = s.g1 := rfl
@[simp] theorem State.finish_g2 : (s.finish opc ch c v).g2 = s.g2 := rfl
@[simp] theorem State.finish_chans : (s.finish opc ch c v).chans = s.chans := rfl
@[simp] theorem State.finish_mem : (s.finish opc ch c v).mem = s.mem := rfl
@[simp] theorem State.finish_cmdIn : (s.finish opc ch c v).cmdIn = s.cmdIn := rfl
@[simp] theorem State.finish_rspOut : (s.finish opc ch c v).rspOut = s.rspOut ++ [responseWord opc ch c v] := rfl
@[simp] theorem State.finish_draws : (s.finish opc ch c v).draws = s.draws + 1 := rfl

/-! ## memWrite -/

@[simp] theorem State.memWrite_prepared : (s.memWrite ch n x).prepared = s.prepared := rfl
@[simp] theorem State.memWrite_dlConf : (s.memWrite ch n x).dlConf = s.dlConf := rfl
@[simp] theorem State.memWrite_bqValid : (s.memWrite ch n x).bqValid = s.bqValid := rfl
@[simp] theorem State.memWrite_errFlags : (s.memWrite ch n x).errFlags = s.errFlags := rfl
@[simp] theorem State.memWrite_errLast : (s.memWrite ch n x).errLast = s.errLast := rfl
@[simp] theorem State.memWrite_sr : (s.memWrite ch n x).sr = s.sr := rfl
@[simp] theorem State.memWrite_nch : (s.memWrite ch n x).nch = s.nch := rfl
@[simp] theorem State.memWrite_nchMax : (s.memWrite ch n x).nchMax = s.nchMax := rfl
@[simp] theorem State.memWrite_capMax : (s.memWrite ch n x).capMax = s.capMax := rfl
@[simp] theorem State.memWrite_cap : (s.memWrite ch n x).cap = s.cap := rfl
@[simp] theorem State.memWrite_dly : (s.memWrite ch n x).dly = s.dly := rfl
@[simp] theorem State.memWrite_noteDiv : (s.memWrite ch n x).noteDiv = s.noteDiv := rfl
@[simp] theorem State.memWrite_interp : (s.memWrite ch n x).interp = s.interp := rfl
@[simp] theorem State.memWrite_mdMode : (s.memWrite ch n x).mdMode = s.mdMode := rfl
@[simp] theorem State.memWrite_mdRate : (s.memWrite ch n x).mdRate = s.mdRate := rfl
@[simp] theorem State.memWrite_mdRateHz : (s.memWrite ch n x).mdRateHz = s.mdRateHz := rfl
@[simp] theorem State.memWrite_mdDepth : (s.memWrite ch n x).mdDepth = s.mdDepth := rfl
@[simp] theorem State.memWrite_mdBase : (s.memWrite ch n x).mdBase = s.mdBase := rfl
@[simp] theorem State.memWrite_psSemi : (s.memWrite ch n x).psSemi = s.psSemi := rfl
@[simp] theorem State.memWrite_psRate : (s.memWrite ch n x).psRate = s.psRate := rfl
@[simp] theorem State.memWrite_bqType : (s.memWrite ch n x).bqType = s.bqType := rfl
@[simp] theorem State.memWrite_bqForm : (s.memWrite ch n x).bqForm = s.bqForm := rfl
@[simp] theorem State.memWrite_bqF : (s.memWrite ch n x).bqF = s.bqF := rfl
@[simp] theorem State.memWrite_bqQ : (s.memWrite ch n x).bqQ = s.bqQ := rfl
@[simp] theorem State.memWrite_bqG : (s.memWrite ch n x).bqG = s.bqG := rfl
@[simp] theorem State.memWrite_coef : (s.memWrite ch n x).coef = s.coef := rfl
@[simp] theorem State.memWrite_g1 : (s.memWrite ch n x).g1 = s.g1 := rfl
@[simp] theorem State.memWrite_g2 : (s.memWrite ch n x).g2 = s.g2 := rfl
@[simp] theorem State.memWrite_chans : (s.memWrite ch n x).chans = s.chans := rfl
@[simp] theorem State.memWrite_mem : (s.memWrite ch n x).mem = s.mem.write (ramAddress ch n) x := rfl
@[simp] theorem State.memWrite_cmdIn : (s.memWrite ch n x).cmdIn = s.cmdIn := rfl
@[simp] theorem State.memWrite_rspOut : (s.memWrite ch n x).rspOut = s.rspOut := rfl
@[simp] theorem State.memWrite_draws : (s.memWrite ch n x).draws = s.draws := rfl

/-! ## setChan -/

@[simp] theorem State.setChan_prepared : (s.setChan ch r).prepared = s.prepared := rfl
@[simp] theorem State.setChan_dlConf : (s.setChan ch r).dlConf = s.dlConf := rfl
@[simp] theorem State.setChan_bqValid : (s.setChan ch r).bqValid = s.bqValid := rfl
@[simp] theorem State.setChan_errFlags : (s.setChan ch r).errFlags = s.errFlags := rfl
@[simp] theorem State.setChan_errLast : (s.setChan ch r).errLast = s.errLast := rfl
@[simp] theorem State.setChan_sr : (s.setChan ch r).sr = s.sr := rfl
@[simp] theorem State.setChan_nch : (s.setChan ch r).nch = s.nch := rfl
@[simp] theorem State.setChan_nchMax : (s.setChan ch r).nchMax = s.nchMax := rfl
@[simp] theorem State.setChan_capMax : (s.setChan ch r).capMax = s.capMax := rfl
@[simp] theorem State.setChan_cap : (s.setChan ch r).cap = s.cap := rfl
@[simp] theorem State.setChan_dly : (s.setChan ch r).dly = s.dly := rfl
@[simp] theorem State.setChan_noteDiv : (s.setChan ch r).noteDiv = s.noteDiv := rfl
@[simp] theorem State.setChan_interp : (s.setChan ch r).interp = s.interp := rfl
@[simp] theorem State.setChan_mdMode : (s.setChan ch r).mdMode = s.mdMode := rfl
@[simp] theorem State.setChan_mdRate : (s.setChan ch r).mdRate = s.mdRate := rfl
@[simp] theorem State.setChan_mdRateHz : (s.setChan ch r).mdRateHz = s.mdRateHz := rfl
@[simp] theorem State.setChan_mdDepth : (s.setChan ch r).mdDepth = s.mdDepth := rfl
@[simp] theorem State.setChan_mdBase : (s.setChan ch r).mdBase = s.mdBase := rfl
@[simp] theorem State.setChan_psSemi : (s.setChan ch r).psSemi = s.psSemi := rfl
@[simp] theorem State.setChan_psRate : (s.setChan ch r).psRate = s.psRate := rfl
@[simp] theorem State.setChan_bqType : (s.setChan ch r).bqType = s.bqType := rfl
@[simp] theorem State.setChan_bqForm : (s.setChan ch r).bqForm = s.bqForm := rfl
@[simp] theorem State.setChan_bqF : (s.setChan ch r).bqF = s.bqF := rfl
@[simp] theorem State.setChan_bqQ : (s.setChan ch r).bqQ = s.bqQ := rfl
@[simp] theorem State.setChan_bqG : (s.setChan ch r).bqG = s.bqG := rfl
@[simp] theorem State.setChan_coef : (s.setChan ch r).coef = s.coef := rfl
@[simp] theorem State.setChan_g1 : (s.setChan ch r).g1 = s.g1 := rfl
@[simp] theorem State.setChan_g2 : (s.setChan ch r).g2 = s.g2 := rfl
@[simp] theorem State.setChan_chans : (s.setChan ch r).chans = s.chans.set ch.toNat r := rfl
@[simp] theorem State.setChan_mem : (s.setChan ch r).mem = s.mem := rfl
@[simp] theorem State.setChan_cmdIn : (s.setChan ch r).cmdIn = s.cmdIn := rfl
@[simp] theorem State.setChan_rspOut : (s.setChan ch r).rspOut = s.rspOut := rfl
@[simp] theorem State.setChan_draws : (s.setChan ch r).draws = s.draws := rfl

/-! ## push -/

@[simp] theorem State.push_prepared : (s.push ch x).prepared = s.prepared := rfl
@[simp] theorem State.push_dlConf : (s.push ch x).dlConf = s.dlConf := rfl
@[simp] theorem State.push_bqValid : (s.push ch x).bqValid = s.bqValid := rfl
@[simp] theorem State.push_errFlags : (s.push ch x).errFlags = s.errFlags := rfl
@[simp] theorem State.push_errLast : (s.push ch x).errLast = s.errLast := rfl
@[simp] theorem State.push_sr : (s.push ch x).sr = s.sr := rfl
@[simp] theorem State.push_nch : (s.push ch x).nch = s.nch := rfl
@[simp] theorem State.push_nchMax : (s.push ch x).nchMax = s.nchMax := rfl
@[simp] theorem State.push_capMax : (s.push ch x).capMax = s.capMax := rfl
@[simp] theorem State.push_cap : (s.push ch x).cap = s.cap := rfl
@[simp] theorem State.push_dly : (s.push ch x).dly = s.dly := rfl
@[simp] theorem State.push_noteDiv : (s.push ch x).noteDiv = s.noteDiv := rfl
@[simp] theorem State.push_interp : (s.push ch x).interp = s.interp := rfl
@[simp] theorem State.push_mdMode : (s.push ch x).mdMode = s.mdMode := rfl
@[simp] theorem State.push_mdRate : (s.push ch x).mdRate = s.mdRate := rfl
@[simp] theorem State.push_mdRateHz : (s.push ch x).mdRateHz = s.mdRateHz := rfl
@[simp] theorem State.push_mdDepth : (s.push ch x).mdDepth = s.mdDepth := rfl
@[simp] theorem State.push_mdBase : (s.push ch x).mdBase = s.mdBase := rfl
@[simp] theorem State.push_psSemi : (s.push ch x).psSemi = s.psSemi := rfl
@[simp] theorem State.push_psRate : (s.push ch x).psRate = s.psRate := rfl
@[simp] theorem State.push_bqType : (s.push ch x).bqType = s.bqType := rfl
@[simp] theorem State.push_bqForm : (s.push ch x).bqForm = s.bqForm := rfl
@[simp] theorem State.push_bqF : (s.push ch x).bqF = s.bqF := rfl
@[simp] theorem State.push_bqQ : (s.push ch x).bqQ = s.bqQ := rfl
@[simp] theorem State.push_bqG : (s.push ch x).bqG = s.bqG := rfl
@[simp] theorem State.push_coef : (s.push ch x).coef = s.coef := rfl
@[simp] theorem State.push_g1 : (s.push ch x).g1 = s.g1 := rfl
@[simp] theorem State.push_g2 : (s.push ch x).g2 = s.g2 := rfl
@[simp] theorem State.push_chans :
    (s.push ch x).chans = s.chans.set ch.toNat { s.chan ch with widx := advance (s.chan ch).widx s.cap } := rfl
@[simp] theorem State.push_mem : (s.push ch x).mem = s.mem.write (ramAddress ch (s.chan ch).widx) x := rfl
@[simp] theorem State.push_cmdIn : (s.push ch x).cmdIn = s.cmdIn := rfl
@[simp] theorem State.push_rspOut : (s.push ch x).rspOut = s.rspOut := rfl
@[simp] theorem State.push_draws : (s.push ch x).draws = s.draws := rfl

/-! ## advanceTime -/

@[simp] theorem State.advanceTime_prepared : (s.advanceTime ch).prepared = s.prepared := rfl
@[simp] theorem State.advanceTime_dlConf : (s.advanceTime ch).dlConf = s.dlConf := rfl
@[simp] theorem State.advanceTime_bqValid : (s.advanceTime ch).bqValid = s.bqValid := rfl
@[simp] theorem State.advanceTime_errFlags : (s.advanceTime ch).errFlags = s.errFlags := rfl
@[simp] theorem State.advanceTime_errLast : (s.advanceTime ch).errLast = s.errLast := rfl
@[simp] theorem State.advanceTime_sr : (s.advanceTime ch).sr = s.sr := rfl
@[simp] theorem State.advanceTime_nch : (s.advanceTime ch).nch = s.nch := rfl
@[simp] theorem State.advanceTime_nchMax : (s.advanceTime ch).nchMax = s.nchMax := rfl
@[simp] theorem State.advanceTime_capMax : (s.advanceTime ch).capMax = s.capMax := rfl
@[simp] theorem State.advanceTime_cap : (s.advanceTime ch).cap = s.cap := rfl
@[simp] theorem State.advanceTime_dly : (s.advanceTime ch).dly = s.dly := rfl
@[simp] theorem State.advanceTime_noteDiv : (s.advanceTime ch).noteDiv = s.noteDiv := rfl
@[simp] theorem State.advanceTime_interp : (s.advanceTime ch).interp = s.interp := rfl
@[simp] theorem State.advanceTime_mdMode : (s.advanceTime ch).mdMode = s.mdMode := rfl
@[simp] theorem State.advanceTime_mdRate : (s.advanceTime ch).mdRate = s.mdRate := rfl
@[simp] theorem State.advanceTime_mdRateHz : (s.advanceTime ch).mdRateHz = s.mdRateHz := rfl
@[simp] theorem State.advanceTime_mdDepth : (s.advanceTime ch).mdDepth = s.mdDepth := rfl
@[simp] theorem State.advanceTime_mdBase : (s.advanceTime ch).mdBase = s.mdBase := rfl
@[simp] theorem State.advanceTime_psSemi : (s.advanceTime ch).psSemi = s.psSemi := rfl
@[simp] theorem State.advanceTime_psRate : (s.advanceTime ch).psRate = s.psRate := rfl
@[simp] theorem State.advanceTime_bqType : (s.advanceTime ch).bqType = s.bqType := rfl
@[simp] theorem State.advanceTime_bqForm : (s.advanceTime ch).bqForm = s.bqForm := rfl
@[simp] theorem State.advanceTime_bqF : (s.advanceTime ch).bqF = s.bqF := rfl
@[simp] theorem State.advanceTime_bqQ : (s.advanceTime ch).bqQ = s.bqQ := rfl
@[simp] theorem State.advanceTime_bqG : (s.advanceTime ch).bqG = s.bqG := rfl
@[simp] theorem State.advanceTime_coef : (s.advanceTime ch).coef = s.coef := rfl
@[simp] theorem State.advanceTime_g1 : (s.advanceTime ch).g1 = s.g1 := rfl
@[simp] theorem State.advanceTime_g2 : (s.advanceTime ch).g2 = s.g2 := rfl
@[simp] theorem State.advanceTime_chans :
    (s.advanceTime ch).chans = s.chans.set ch.toNat { s.chan ch with t := fadd (s.nan 9) (s.chan ch).t (fdiv (s.nan 8) c1 s.sr) } := rfl
@[simp] theorem State.advanceTime_mem : (s.advanceTime ch).mem = s.mem := rfl
@[simp] theorem State.advanceTime_cmdIn : (s.advanceTime ch).cmdIn = s.cmdIn := rfl
@[simp] theorem State.advanceTime_rspOut : (s.advanceTime ch).rspOut = s.rspOut := rfl
@[simp] theorem State.advanceTime_draws : (s.advanceTime ch).draws = s.draws := rfl

/-! ## updateCoefficients -/

@[simp] theorem State.updateCoefficients_prepared : s.updateCoefficients.prepared = s.prepared := rfl
@[simp] theorem State.updateCoefficients_dlConf : s.updateCoefficients.dlConf = s.dlConf := rfl
@[simp] theorem State.updateCoefficients_bqValid : s.updateCoefficients.bqValid = s.updateSucceeds := rfl
@[simp] theorem State.updateCoefficients_errFlags : s.updateCoefficients.errFlags = s.errFlags := rfl
@[simp] theorem State.updateCoefficients_errLast : s.updateCoefficients.errLast = s.errLast := rfl
@[simp] theorem State.updateCoefficients_sr : s.updateCoefficients.sr = s.sr := rfl
@[simp] theorem State.updateCoefficients_nch : s.updateCoefficients.nch = s.nch := rfl
@[simp] theorem State.updateCoefficients_nchMax : s.updateCoefficients.nchMax = s.nchMax := rfl
@[simp] theorem State.updateCoefficients_capMax : s.updateCoefficients.capMax = s.capMax := rfl
@[simp] theorem State.updateCoefficients_cap : s.updateCoefficients.cap = s.cap := rfl
@[simp] theorem State.updateCoefficients_dly : s.updateCoefficients.dly = s.dly := rfl
@[simp] theorem State.updateCoefficients_noteDiv : s.updateCoefficients.noteDiv = s.noteDiv := rfl
@[simp] theorem State.updateCoefficients_interp : s.updateCoefficients.interp = s.interp := rfl
@[simp] theorem State.updateCoefficients_mdMode : s.updateCoefficients.mdMode = s.mdMode := rfl
@[simp] theorem State.updateCoefficients_mdRate : s.updateCoefficients.mdRate = s.mdRate := rfl
@[simp] theorem State.updateCoefficients_mdRateHz : s.updateCoefficients.mdRateHz = s.mdRateHz := rfl
@[simp] theorem State.updateCoefficients_mdDepth : s.updateCoefficients.mdDepth = s.mdDepth := rfl
@[simp] theorem State.updateCoefficients_mdBase : s.updateCoefficients.mdBase = s.mdBase := rfl
@[simp] theorem State.updateCoefficients_psSemi : s.updateCoefficients.psSemi = s.psSemi := rfl
@[simp] theorem State.updateCoefficients_psRate : s.updateCoefficients.psRate = s.psRate := rfl
@[simp] theorem State.updateCoefficients_bqType : s.updateCoefficients.bqType = s.bqType := rfl
@[simp] theorem State.updateCoefficients_bqForm : s.updateCoefficients.bqForm = s.bqForm := rfl
@[simp] theorem State.updateCoefficients_bqF : s.updateCoefficients.bqF = s.bqF := rfl
@[simp] theorem State.updateCoefficients_bqQ : s.updateCoefficients.bqQ = s.bqQ := rfl
@[simp] theorem State.updateCoefficients_bqG : s.updateCoefficients.bqG = s.bqG := rfl
@[simp] theorem State.updateCoefficients_coef :
    s.updateCoefficients.coef = if s.updateSucceeds then s.newCoeffs s.nan else s.coef := rfl
@[simp] theorem State.updateCoefficients_g1 : s.updateCoefficients.g1 = s.g1 := rfl
@[simp] theorem State.updateCoefficients_g2 : s.updateCoefficients.g2 = s.g2 := rfl
@[simp] theorem State.updateCoefficients_chans : s.updateCoefficients.chans = s.chans := rfl
@[simp] theorem State.updateCoefficients_mem : s.updateCoefficients.mem = s.mem := rfl
@[simp] theorem State.updateCoefficients_cmdIn : s.updateCoefficients.cmdIn = s.cmdIn := rfl
@[simp] theorem State.updateCoefficients_rspOut : s.updateCoefficients.rspOut = s.rspOut := rfl
@[simp] theorem State.updateCoefficients_draws : s.updateCoefficients.draws = s.draws := rfl

/-! ## prepareWrites -/

@[simp] theorem State.prepareWrites_prepared : (s.prepareWrites k x).prepared = true := rfl
@[simp] theorem State.prepareWrites_dlConf : (s.prepareWrites k x).dlConf = false := rfl
@[simp] theorem State.prepareWrites_bqValid : (s.prepareWrites k x).bqValid = s.bqValid := rfl
@[simp] theorem State.prepareWrites_errFlags : (s.prepareWrites k x).errFlags = s.errFlags := rfl
@[simp] theorem State.prepareWrites_errLast : (s.prepareWrites k x).errLast = s.errLast := rfl
@[simp] theorem State.prepareWrites_sr : (s.prepareWrites k x).sr = x := rfl
@[simp] theorem State.prepareWrites_nch : (s.prepareWrites k x).nch = k.toNat := rfl
@[simp] theorem State.prepareWrites_nchMax : (s.prepareWrites k x).nchMax = s.nchMax := rfl
@[simp] theorem State.prepareWrites_capMax : (s.prepareWrites k x).capMax = s.capMax := rfl
@[simp] theorem State.prepareWrites_cap : (s.prepareWrites k x).cap = 0 := rfl
@[simp] theorem State.prepareWrites_dly : (s.prepareWrites k x).dly = s.dly := rfl
@[simp] theorem State.prepareWrites_noteDiv : (s.prepareWrites k x).noteDiv = s.noteDiv := rfl
@[simp] theorem State.prepareWrites_interp : (s.prepareWrites k x).interp = s.interp := rfl
@[simp] theorem State.prepareWrites_mdMode : (s.prepareWrites k x).mdMode = s.mdMode := rfl
@[simp] theorem State.prepareWrites_mdRate : (s.prepareWrites k x).mdRate = s.mdRate := rfl
@[simp] theorem State.prepareWrites_mdRateHz : (s.prepareWrites k x).mdRateHz = s.mdRateHz := rfl
@[simp] theorem State.prepareWrites_mdDepth : (s.prepareWrites k x).mdDepth = s.mdDepth := rfl
@[simp] theorem State.prepareWrites_mdBase : (s.prepareWrites k x).mdBase = s.mdBase := rfl
@[simp] theorem State.prepareWrites_psSemi : (s.prepareWrites k x).psSemi = s.psSemi := rfl
@[simp] theorem State.prepareWrites_psRate : (s.prepareWrites k x).psRate = s.psRate := rfl
@[simp] theorem State.prepareWrites_bqType : (s.prepareWrites k x).bqType = s.bqType := rfl
@[simp] theorem State.prepareWrites_bqForm : (s.prepareWrites k x).bqForm = s.bqForm := rfl
@[simp] theorem State.prepareWrites_bqF : (s.prepareWrites k x).bqF = s.bqF := rfl
@[simp] theorem State.prepareWrites_bqQ : (s.prepareWrites k x).bqQ = s.bqQ := rfl
@[simp] theorem State.prepareWrites_bqG : (s.prepareWrites k x).bqG = s.bqG := rfl
@[simp] theorem State.prepareWrites_coef : (s.prepareWrites k x).coef = s.coef := rfl
@[simp] theorem State.prepareWrites_g1 : (s.prepareWrites k x).g1 = s.g1 := rfl
@[simp] theorem State.prepareWrites_g2 : (s.prepareWrites k x).g2 = s.g2 := rfl
@[simp] theorem State.prepareWrites_chans : (s.prepareWrites k x).chans = s.chans.map fun _ => ChanRegs.cleared := rfl
@[simp] theorem State.prepareWrites_mem : (s.prepareWrites k x).mem = s.mem := rfl
@[simp] theorem State.prepareWrites_cmdIn : (s.prepareWrites k x).cmdIn = s.cmdIn := rfl
@[simp] theorem State.prepareWrites_rspOut : (s.prepareWrites k x).rspOut = s.rspOut := rfl
@[simp] theorem State.prepareWrites_draws : (s.prepareWrites k x).draws = s.draws := rfl

/-! ## configureLine -/

@[simp] theorem State.configureLine_prepared : (s.configureLine n).prepared = s.prepared := rfl
@[simp] theorem State.configureLine_dlConf : (s.configureLine n).dlConf = true := rfl
@[simp] theorem State.configureLine_bqValid : (s.configureLine n).bqValid = s.bqValid := rfl
@[simp] theorem State.configureLine_errFlags : (s.configureLine n).errFlags = s.errFlags := rfl
@[simp] theorem State.configureLine_errLast : (s.configureLine n).errLast = s.errLast := rfl
@[simp] theorem State.configureLine_sr : (s.configureLine n).sr = s.sr := rfl
@[simp] theorem State.configureLine_nch : (s.configureLine n).nch = s.nch := rfl
@[simp] theorem State.configureLine_nchMax : (s.configureLine n).nchMax = s.nchMax := rfl
@[simp] theorem State.configureLine_capMax : (s.configureLine n).capMax = s.capMax := rfl
@[simp] theorem State.configureLine_cap : (s.configureLine n).cap = n := rfl
@[simp] theorem State.configureLine_dly : (s.configureLine n).dly = c0 := rfl
@[simp] theorem State.configureLine_noteDiv : (s.configureLine n).noteDiv = s.noteDiv := rfl
@[simp] theorem State.configureLine_interp : (s.configureLine n).interp = s.interp := rfl
@[simp] theorem State.configureLine_mdMode : (s.configureLine n).mdMode = s.mdMode := rfl
@[simp] theorem State.configureLine_mdRate : (s.configureLine n).mdRate = s.mdRate := rfl
@[simp] theorem State.configureLine_mdRateHz : (s.configureLine n).mdRateHz = s.mdRateHz := rfl
@[simp] theorem State.configureLine_mdDepth : (s.configureLine n).mdDepth = s.mdDepth := rfl
@[simp] theorem State.configureLine_mdBase : (s.configureLine n).mdBase = s.mdBase := rfl
@[simp] theorem State.configureLine_psSemi : (s.configureLine n).psSemi = s.psSemi := rfl
@[simp] theorem State.configureLine_psRate : (s.configureLine n).psRate = s.psRate := rfl
@[simp] theorem State.configureLine_bqType : (s.configureLine n).bqType = s.bqType := rfl
@[simp] theorem State.configureLine_bqForm : (s.configureLine n).bqForm = s.bqForm := rfl
@[simp] theorem State.configureLine_bqF : (s.configureLine n).bqF = s.bqF := rfl
@[simp] theorem State.configureLine_bqQ : (s.configureLine n).bqQ = s.bqQ := rfl
@[simp] theorem State.configureLine_bqG : (s.configureLine n).bqG = s.bqG := rfl
@[simp] theorem State.configureLine_coef : (s.configureLine n).coef = s.coef := rfl
@[simp] theorem State.configureLine_g1 : (s.configureLine n).g1 = s.g1 := rfl
@[simp] theorem State.configureLine_g2 : (s.configureLine n).g2 = s.g2 := rfl
@[simp] theorem State.configureLine_chans :
    (s.configureLine n).chans = s.chans.map fun r => { r with widx := 0, psdly := psInit s.nan s.psRate n } := rfl
@[simp] theorem State.configureLine_mem : (s.configureLine n).mem = s.mem.fillRows s.nch n := rfl
@[simp] theorem State.configureLine_cmdIn : (s.configureLine n).cmdIn = s.cmdIn := rfl
@[simp] theorem State.configureLine_rspOut : (s.configureLine n).rspOut = s.rspOut := rfl
@[simp] theorem State.configureLine_draws : (s.configureLine n).draws = s.draws := rfl

/-! ## unconfigureLine -/

@[simp] theorem State.unconfigureLine_prepared : s.unconfigureLine.prepared = s.prepared := rfl
@[simp] theorem State.unconfigureLine_dlConf : s.unconfigureLine.dlConf = false := rfl
@[simp] theorem State.unconfigureLine_bqValid : s.unconfigureLine.bqValid = s.bqValid := rfl
@[simp] theorem State.unconfigureLine_errFlags : s.unconfigureLine.errFlags = s.errFlags := rfl
@[simp] theorem State.unconfigureLine_errLast : s.unconfigureLine.errLast = s.errLast := rfl
@[simp] theorem State.unconfigureLine_sr : s.unconfigureLine.sr = s.sr := rfl
@[simp] theorem State.unconfigureLine_nch : s.unconfigureLine.nch = s.nch := rfl
@[simp] theorem State.unconfigureLine_nchMax : s.unconfigureLine.nchMax = s.nchMax := rfl
@[simp] theorem State.unconfigureLine_capMax : s.unconfigureLine.capMax = s.capMax := rfl
@[simp] theorem State.unconfigureLine_cap : s.unconfigureLine.cap = 0 := rfl
@[simp] theorem State.unconfigureLine_dly : s.unconfigureLine.dly = s.dly := rfl
@[simp] theorem State.unconfigureLine_noteDiv : s.unconfigureLine.noteDiv = s.noteDiv := rfl
@[simp] theorem State.unconfigureLine_interp : s.unconfigureLine.interp = s.interp := rfl
@[simp] theorem State.unconfigureLine_mdMode : s.unconfigureLine.mdMode = s.mdMode := rfl
@[simp] theorem State.unconfigureLine_mdRate : s.unconfigureLine.mdRate = s.mdRate := rfl
@[simp] theorem State.unconfigureLine_mdRateHz : s.unconfigureLine.mdRateHz = s.mdRateHz := rfl
@[simp] theorem State.unconfigureLine_mdDepth : s.unconfigureLine.mdDepth = s.mdDepth := rfl
@[simp] theorem State.unconfigureLine_mdBase : s.unconfigureLine.mdBase = s.mdBase := rfl
@[simp] theorem State.unconfigureLine_psSemi : s.unconfigureLine.psSemi = s.psSemi := rfl
@[simp] theorem State.unconfigureLine_psRate : s.unconfigureLine.psRate = s.psRate := rfl
@[simp] theorem State.unconfigureLine_bqType : s.unconfigureLine.bqType = s.bqType := rfl
@[simp] theorem State.unconfigureLine_bqForm : s.unconfigureLine.bqForm = s.bqForm := rfl
@[simp] theorem State.unconfigureLine_bqF : s.unconfigureLine.bqF = s.bqF := rfl
@[simp] theorem State.unconfigureLine_bqQ : s.unconfigureLine.bqQ = s.bqQ := rfl
@[simp] theorem State.unconfigureLine_bqG : s.unconfigureLine.bqG = s.bqG := rfl
@[simp] theorem State.unconfigureLine_coef : s.unconfigureLine.coef = s.coef := rfl
@[simp] theorem State.unconfigureLine_g1 : s.unconfigureLine.g1 = s.g1 := rfl
@[simp] theorem State.unconfigureLine_g2 : s.unconfigureLine.g2 = s.g2 := rfl
@[simp] theorem State.unconfigureLine_chans : s.unconfigureLine.chans = s.chans := rfl
@[simp] theorem State.unconfigureLine_mem : s.unconfigureLine.mem = s.mem := rfl
@[simp] theorem State.unconfigureLine_cmdIn : s.unconfigureLine.cmdIn = s.cmdIn := rfl
@[simp] theorem State.unconfigureLine_rspOut : s.unconfigureLine.rspOut = s.rspOut := rfl
@[simp] theorem State.unconfigureLine_draws : s.unconfigureLine.draws = s.draws := rfl

/-! ## seedPitchDelay -/

@[simp] theorem State.seedPitchDelay_prepared : (s.seedPitchDelay x).prepared = s.prepared := rfl
@[simp] theorem State.seedPitchDelay_dlConf : (s.seedPitchDelay x).dlConf = s.dlConf := rfl
@[simp] theorem State.seedPitchDelay_bqValid : (s.seedPitchDelay x).bqValid = s.bqValid := rfl
@[simp] theorem State.seedPitchDelay_errFlags : (s.seedPitchDelay x).errFlags = s.errFlags := rfl
@[simp] theorem State.seedPitchDelay_errLast : (s.seedPitchDelay x).errLast = s.errLast := rfl
@[simp] theorem State.seedPitchDelay_sr : (s.seedPitchDelay x).sr = s.sr := rfl
@[simp] theorem State.seedPitchDelay_nch : (s.seedPitchDelay x).nch = s.nch := rfl
@[simp] theorem State.seedPitchDelay_nchMax : (s.seedPitchDelay x).nchMax = s.nchMax := rfl
@[simp] theorem State.seedPitchDelay_capMax : (s.seedPitchDelay x).capMax = s.capMax := rfl
@[simp] theorem State.seedPitchDelay_cap : (s.seedPitchDelay x).cap = s.cap := rfl
@[simp] theorem State.seedPitchDelay_dly : (s.seedPitchDelay x).dly = s.dly := rfl
@[simp] theorem State.seedPitchDelay_noteDiv : (s.seedPitchDelay x).noteDiv = s.noteDiv := rfl
@[simp] theorem State.seedPitchDelay_interp : (s.seedPitchDelay x).interp = s.interp := rfl
@[simp] theorem State.seedPitchDelay_mdMode : (s.seedPitchDelay x).mdMode = s.mdMode := rfl
@[simp] theorem State.seedPitchDelay_mdRate : (s.seedPitchDelay x).mdRate = s.mdRate := rfl
@[simp] theorem State.seedPitchDelay_mdRateHz : (s.seedPitchDelay x).mdRateHz = s.mdRateHz := rfl
@[simp] theorem State.seedPitchDelay_mdDepth : (s.seedPitchDelay x).mdDepth = s.mdDepth := rfl
@[simp] theorem State.seedPitchDelay_mdBase : (s.seedPitchDelay x).mdBase = s.mdBase := rfl
@[simp] theorem State.seedPitchDelay_psSemi : (s.seedPitchDelay x).psSemi = s.psSemi := rfl
@[simp] theorem State.seedPitchDelay_psRate : (s.seedPitchDelay x).psRate = s.psRate := rfl
@[simp] theorem State.seedPitchDelay_bqType : (s.seedPitchDelay x).bqType = s.bqType := rfl
@[simp] theorem State.seedPitchDelay_bqForm : (s.seedPitchDelay x).bqForm = s.bqForm := rfl
@[simp] theorem State.seedPitchDelay_bqF : (s.seedPitchDelay x).bqF = s.bqF := rfl
@[simp] theorem State.seedPitchDelay_bqQ : (s.seedPitchDelay x).bqQ = s.bqQ := rfl
@[simp] theorem State.seedPitchDelay_bqG : (s.seedPitchDelay x).bqG = s.bqG := rfl
@[simp] theorem State.seedPitchDelay_coef : (s.seedPitchDelay x).coef = s.coef := rfl
@[simp] theorem State.seedPitchDelay_g1 : (s.seedPitchDelay x).g1 = s.g1 := rfl
@[simp] theorem State.seedPitchDelay_g2 : (s.seedPitchDelay x).g2 = s.g2 := rfl
@[simp] theorem State.seedPitchDelay_chans :
    (s.seedPitchDelay x).chans = if s.dlConf then s.chans.map fun r => { r with psdly := psInit (laterDraws s.nan 2) x s.cap } else s.chans := rfl
@[simp] theorem State.seedPitchDelay_mem : (s.seedPitchDelay x).mem = s.mem := rfl
@[simp] theorem State.seedPitchDelay_cmdIn : (s.seedPitchDelay x).cmdIn = s.cmdIn := rfl
@[simp] theorem State.seedPitchDelay_rspOut : (s.seedPitchDelay x).rspOut = s.rspOut := rfl
@[simp] theorem State.seedPitchDelay_draws : (s.seedPitchDelay x).draws = s.draws := rfl

/-! ## send -/

@[simp] theorem State.send_prepared : (s.send ws).prepared = s.prepared := rfl
@[simp] theorem State.send_dlConf : (s.send ws).dlConf = s.dlConf := rfl
@[simp] theorem State.send_bqValid : (s.send ws).bqValid = s.bqValid := rfl
@[simp] theorem State.send_errFlags : (s.send ws).errFlags = s.errFlags := rfl
@[simp] theorem State.send_errLast : (s.send ws).errLast = s.errLast := rfl
@[simp] theorem State.send_sr : (s.send ws).sr = s.sr := rfl
@[simp] theorem State.send_nch : (s.send ws).nch = s.nch := rfl
@[simp] theorem State.send_nchMax : (s.send ws).nchMax = s.nchMax := rfl
@[simp] theorem State.send_capMax : (s.send ws).capMax = s.capMax := rfl
@[simp] theorem State.send_cap : (s.send ws).cap = s.cap := rfl
@[simp] theorem State.send_dly : (s.send ws).dly = s.dly := rfl
@[simp] theorem State.send_noteDiv : (s.send ws).noteDiv = s.noteDiv := rfl
@[simp] theorem State.send_interp : (s.send ws).interp = s.interp := rfl
@[simp] theorem State.send_mdMode : (s.send ws).mdMode = s.mdMode := rfl
@[simp] theorem State.send_mdRate : (s.send ws).mdRate = s.mdRate := rfl
@[simp] theorem State.send_mdRateHz : (s.send ws).mdRateHz = s.mdRateHz := rfl
@[simp] theorem State.send_mdDepth : (s.send ws).mdDepth = s.mdDepth := rfl
@[simp] theorem State.send_mdBase : (s.send ws).mdBase = s.mdBase := rfl
@[simp] theorem State.send_psSemi : (s.send ws).psSemi = s.psSemi := rfl
@[simp] theorem State.send_psRate : (s.send ws).psRate = s.psRate := rfl
@[simp] theorem State.send_bqType : (s.send ws).bqType = s.bqType := rfl
@[simp] theorem State.send_bqForm : (s.send ws).bqForm = s.bqForm := rfl
@[simp] theorem State.send_bqF : (s.send ws).bqF = s.bqF := rfl
@[simp] theorem State.send_bqQ : (s.send ws).bqQ = s.bqQ := rfl
@[simp] theorem State.send_bqG : (s.send ws).bqG = s.bqG := rfl
@[simp] theorem State.send_coef : (s.send ws).coef = s.coef := rfl
@[simp] theorem State.send_g1 : (s.send ws).g1 = s.g1 := rfl
@[simp] theorem State.send_g2 : (s.send ws).g2 = s.g2 := rfl
@[simp] theorem State.send_chans : (s.send ws).chans = s.chans := rfl
@[simp] theorem State.send_mem : (s.send ws).mem = s.mem := rfl
@[simp] theorem State.send_cmdIn : (s.send ws).cmdIn = s.cmdIn ++ ws := rfl
@[simp] theorem State.send_rspOut : (s.send ws).rspOut = s.rspOut := rfl
@[simp] theorem State.send_draws : (s.send ws).draws = s.draws := rfl

end Sys2Proof.Machine
end

