-- ==== Sys2Proof/Laws/Memory.lean ====
section
/-!
SUPPORT. The laws of the delay RAM (20_memory.md R60, R61, R70): a read after a write, the fill, and the canonical form
that every operation keeps.
-/
namespace Sys2Proof.Machine

/-! ## Addresses -/

theorem ramAddress_mod (ch : BitVec 8) (i : Nat) : ramAddress ch i % 256 = ch.toNat := by
  have := ch.isLt; unfold ramAddress; omega

theorem ramAddress_div (ch : BitVec 8) (i : Nat) : ramAddress ch i / 256 = i := by
  have := ch.isLt; unfold ramAddress; omega

/-- No two words of the RAM share an address. -/
@[simp] theorem ramAddress_eq_iff (ch ch' : BitVec 8) (i i' : Nat) :
    ramAddress ch i = ramAddress ch' i' ↔ ch = ch' ∧ i = i' := by
  refine ⟨fun h => ⟨?_, ?_⟩, fun ⟨h, h'⟩ => by rw [h, h']⟩
  · have := congrArg (· % 256) h
    simp only [ramAddress_mod] at this
    exact BitVec.eq_of_toNat_eq this
  · have := congrArg (· / 256) h
    simpa only [ramAddress_div] using this

theorem inRows_ramAddress (nch cap : Nat) (ch : BitVec 8) (i : Nat) :
    inRows nch cap (ramAddress ch i) = (decide (ch.toNat < nch) && decide (i < cap)) := by
  simp [inRows, ramAddress_mod, ramAddress_div]

/-! ## Lists of cells -/

theorem readCells_consCell_same (a : Nat) (v : F32) (l : List (Nat × F32)) (h : readCells l a = Memory.unlisted) :
    readCells (consCell a v l) a = v := by
  unfold consCell
  split
  · rename_i hv; rw [h, hv]
  · simp [readCells]

theorem readCells_consCell_other {a b : Nat} (v : F32) (l : List (Nat × F32)) (h : a ≠ b) :
    readCells (consCell a v l) b = readCells l b := by
  unfold consCell
  split
  · rfl
  · simp [readCells, h]

theorem readCells_of_above (l : List (Nat × F32)) (a : Nat) (h : ∀ c ∈ l, a < c.1) : readCells l a = Memory.unlisted := by
  induction l with
  | nil => rfl
  | cons c l ih =>
    have hc := h c (by simp)
    rw [readCells, if_neg (by omega)]
    exact ih fun d hd => h d (by simp [hd])

theorem readCells_writeCells_same (l : List (Nat × F32)) (a : Nat) (v : F32)
    (h : l.Pairwise fun a b => a.1 < b.1) : readCells (writeCells l a v) a = v := by
  induction l with
  | nil => exact readCells_consCell_same a v [] rfl
  | cons c l ih =>
    obtain ⟨k, w⟩ := c
    rw [List.pairwise_cons] at h
    have above : ∀ d ∈ l, k < d.1 := h.1
    simp only [writeCells]
    split
    · refine readCells_consCell_same a v _ (readCells_of_above _ a ?_)
      intro d hd
      rcases List.mem_cons.mp hd with rfl | hd
      · assumption
      · have := above d hd; omega
    · split
      · subst a; exact readCells_consCell_same k v l (readCells_of_above l k above)
      · rw [readCells, if_neg (by omega)]; exact ih h.2

theorem readCells_writeCells_other (l : List (Nat × F32)) {a b : Nat} (v : F32) (h : a ≠ b) :
    readCells (writeCells l a v) b = readCells l b := by
  induction l with
  | nil => exact readCells_consCell_other v [] h
  | cons c l ih =>
    obtain ⟨k, w⟩ := c
    simp only [writeCells]
    split
    · exact readCells_consCell_other v _ h
    · split
      · subst a; rw [readCells_consCell_other v _ h, readCells, if_neg h]
      · simp only [readCells, ih]

theorem mem_consCell {a : Nat} {v : F32} {l : List (Nat × F32)} {c : Nat × F32} (h : c ∈ consCell a v l) :
    c ∈ l ∨ (c = (a, v) ∧ v ≠ Memory.unlisted) := by
  unfold consCell at h
  split at h
  · exact .inl h
  · rcases List.mem_cons.mp h with h | h
    · exact .inr ⟨h, by assumption⟩
    · exact .inl h

theorem mem_writeCells {l : List (Nat × F32)} {a : Nat} {v : F32} {c : Nat × F32} (h : c ∈ writeCells l a v) :
    c ∈ l ∨ (c = (a, v) ∧ v ≠ Memory.unlisted) := by
  induction l with
  | nil => exact mem_consCell h
  | cons d l ih =>
    obtain ⟨k, w⟩ := d
    simp only [writeCells] at h
    split at h
    · exact mem_consCell h
    · split at h
      · exact (mem_consCell h).imp_left (List.mem_cons_of_mem _)
      · rcases List.mem_cons.mp h with h | h
        · exact .inl (h ▸ List.mem_cons_self)
        · exact (ih h).imp_left (List.mem_cons_of_mem _)

theorem writeCells_nonzero {l : List (Nat × F32)} {a : Nat} {v : F32}
    (h : ∀ c ∈ l, c.2 ≠ Memory.unlisted) : ∀ c ∈ writeCells l a v, c.2 ≠ Memory.unlisted := by
  intro c hc
  rcases mem_writeCells hc with hc | ⟨rfl, hv⟩
  · exact h c hc
  · exact hv

theorem writeCells_rising {l : List (Nat × F32)} {a : Nat} {v : F32} (h : l.Pairwise fun a b => a.1 < b.1) :
    (writeCells l a v).Pairwise fun a b => a.1 < b.1 := by
  induction l with
  | nil => simp only [writeCells, consCell]; split <;> simp
  | cons d l ih =>
    obtain ⟨k, w⟩ := d
    have hk := List.pairwise_cons.mp h
    have above : ∀ x ∈ l, k < x.1 := hk.1
    simp only [writeCells]
    split
    · unfold consCell
      split
      · exact h
      · refine List.pairwise_cons.mpr ⟨fun x hx => ?_, h⟩
        rcases List.mem_cons.mp hx with rfl | hx
        · assumption
        · have := above x hx; show a < x.1; omega
    · split
      · subst a
        unfold consCell
        split
        · exact hk.2
        · exact List.pairwise_cons.mpr ⟨above, hk.2⟩
      · refine List.pairwise_cons.mpr ⟨fun x hx => ?_, ih hk.2⟩
        rcases mem_writeCells hx with hx | ⟨rfl, -⟩
        · exact above x hx
        · show k < a; omega

theorem readCells_filter (l : List (Nat × F32)) (p : Nat → Bool) (a : Nat) :
    readCells (l.filter fun c => !p c.1) a = if p a then Memory.unlisted else readCells l a := by
  induction l with
  | nil => simp [readCells]
  | cons c l ih =>
    obtain ⟨k, w⟩ := c
    by_cases hk : k = a
    · subst hk
      cases hp : p k <;> simp_all [readCells]
    · cases hp : p k <;> simp [hp, readCells, hk, ih]

/-! ## The RAM -/

/-- The canonical form as a proposition. -/
theorem Memory.wf_iff (m : Memory) :
    m.wf = true ↔ (m.cells.Pairwise fun a b => a.1 < b.1) ∧ ∀ c ∈ m.cells, c.2 ≠ Memory.unlisted := by
  simp [Memory.wf]

/-- A read after a write to the same word gives the value written. -/
theorem Memory.read_write_same {m : Memory} (h : m.wf = true) (a : Nat) (v : F32) : (m.write a v).read a = v :=
  readCells_writeCells_same m.cells a v ((m.wf_iff.mp h).1)

/-- A write leaves every other word alone. -/
theorem Memory.read_write_other (m : Memory) {a b : Nat} (v : F32) (h : a ≠ b) : (m.write a v).read b = m.read b :=
  readCells_writeCells_other m.cells v h

/-- A write keeps the canonical form. -/
theorem Memory.write_wf {m : Memory} (h : m.wf = true) (a : Nat) (v : F32) : (m.write a v).wf = true :=
  (m.write a v).wf_iff.mpr ⟨writeCells_rising (m.wf_iff.mp h).1, writeCells_nonzero (m.wf_iff.mp h).2⟩

/-- The fill keeps the canonical form. -/
theorem Memory.fillRows_wf {m : Memory} (h : m.wf = true) (nch cap : Nat) : (m.fillRows nch cap).wf = true := by
  obtain ⟨h1, h2⟩ := m.wf_iff.mp h
  exact (m.fillRows nch cap).wf_iff.mpr ⟨h1.filter _, fun c hc => h2 c (List.mem_filter.mp hc).1⟩

/-- After the fill every word of the rows reads +0.0 and every other word as before. -/
theorem Memory.read_fillRows (m : Memory) (nch cap a : Nat) :
    (m.fillRows nch cap).read a = if inRows nch cap a then c0 else m.read a :=
  readCells_filter m.cells (inRows nch cap) a

/-- Two memories in canonical form that read alike are equal. -/
theorem Memory.ext_of_read {m m' : Memory} (h : m.wf = true) (h' : m'.wf = true)
    (hr : ∀ a, m.read a = m'.read a) : m = m' := by
  obtain ⟨l⟩ := m
  obtain ⟨l'⟩ := m'
  rw [Memory.wf_iff] at h h'
  obtain ⟨hp, hz⟩ := h
  obtain ⟨hp', hz'⟩ := h'
  simp only [Memory.read] at hr
  congr 1
  dsimp only at hp hz hp' hz'
  induction l generalizing l' with
  | nil =>
    cases l' with
    | nil => rfl
    | cons c l' =>
      exact absurd (by simpa [readCells] using (hr c.1).symm) (hz' c (by simp))
  | cons c l ih =>
    cases l' with
    | nil => exact absurd (by simpa [readCells] using hr c.1) (hz c (by simp))
    | cons c' l' =>
      obtain ⟨k, v⟩ := c
      obtain ⟨k', v'⟩ := c'
      rw [List.pairwise_cons] at hp hp'
      have above : ∀ d ∈ l, k < d.1 := hp.1
      have above' : ∀ d ∈ l', k' < d.1 := hp'.1
      have hv : v ≠ Memory.unlisted := hz (k, v) (by simp)
      have hv' : v' ≠ Memory.unlisted := hz' (k', v') (by simp)
      have hk : k = k' := by
        rcases Nat.lt_trichotomy k k' with hlt | heq | hgt
        · have h1 := hr k
          rw [readCells_of_above ((k', v') :: l') k] at h1
          · exact absurd (by simpa [readCells] using h1) hv
          · intro d hd
            rcases List.mem_cons.mp hd with rfl | hd
            · exact hlt
            · have := above' d hd; omega
        · exact heq
        · have h1 := hr k'
          rw [readCells_of_above ((k, v) :: l) k'] at h1
          · exact absurd (by simpa [readCells] using h1.symm) hv'
          · intro d hd
            rcases List.mem_cons.mp hd with rfl | hd
            · exact hgt
            · have := above d hd; omega
      subst hk
      have hvv : v = v' := by simpa [readCells] using hr k
      subst hvv
      have : l = l' := by
        refine ih l' (fun a => ?_) hp.2 (fun d hd => hz d (List.mem_cons_of_mem _ hd)) hp'.2
          (fun d hd => hz' d (List.mem_cons_of_mem _ hd))
        have ha := hr a
        by_cases hka : k = a
        · subst hka
          rw [readCells_of_above l k above, readCells_of_above l' k above']
        · simpa [readCells, hka] using ha
      rw [this]

end Sys2Proof.Machine
end

