-- ==== Sys2Proof/Laws/PerInstr.lean ====
section
/-!
SUPPORT. Facts made per instruction: family EncodeFields, the fields of a command's word (30_encoding.md R81, R85).
-/
namespace Sys2Proof.Laws.EncodeFields

/-- The fields of the encoded word are the command's own, and the reserved field is zero. -/
def Statement (i : Instr) : Prop :=
  opcField (encode i) = i.opcode ∧ chField (encode i) = i.channel ∧ selField (encode i) = i.selector ∧
    rsvField (encode i) = 0#8 ∧ opdField (encode i) = i.operand

/-- The fields of a word put together from fields are those fields. -/
theorem fields_commandWord (opc ch sel rsv : BitVec 8) (opd : BitVec 32) :
    opcField (commandWord opc ch sel rsv opd) = opc ∧ chField (commandWord opc ch sel rsv opd) = ch ∧
      selField (commandWord opc ch sel rsv opd) = sel ∧ rsvField (commandWord opc ch sel rsv opd) = rsv ∧
      opdField (commandWord opc ch sel rsv opd) = opd := by
  unfold opcField chField selField rsvField opdField commandWord
  refine ⟨?_, ?_, ?_, ?_, ?_⟩ <;>
  · apply BitVec.eq_of_getLsbD_eq
    intro i hi
    simp only [BitVec.getLsbD_extractLsb', BitVec.getLsbD_append, hi, decide_true, Bool.true_and]
    repeat first | rw [if_neg (by omega)] | rw [if_pos (by omega)]
    try congr 1
    try omega

theorem nop : Statement (.nop) := fields_commandWord _ _ _ _ _
theorem prepare (n : BitVec 8) (rate : F32) : Statement (.prepare n rate) := fields_commandWord _ _ _ _ _
theorem rdreg (ch : BitVec 8) (reg : RegName) : Statement (.rdreg ch reg) := fields_commandWord _ _ _ _ _
theorem clrerr : Statement (.clrerr) := fields_commandWord _ _ _ _ _
theorem dlConfig (n : BitVec 8) (capacity : BitVec 32) : Statement (.dlConfig n capacity) := fields_commandWord _ _ _ _ _
theorem dlSetDelay (samples : F32) : Statement (.dlSetDelay samples) := fields_commandWord _ _ _ _ _
theorem dlSetDelayBpm (bpm : F32) : Statement (.dlSetDelayBpm bpm) := fields_commandWord _ _ _ _ _
theorem dlSetNotediv (v : F32) : Statement (.dlSetNotediv v) := fields_commandWord _ _ _ _ _
theorem dlSetInterp (v : Bool) : Statement (.dlSetInterp v) := fields_commandWord _ _ _ _ _
theorem dlPush (ch : BitVec 8) (x : F32) : Statement (.dlPush ch x) := fields_commandWord _ _ _ _ _
theorem dlPop (ch : BitVec 8) : Statement (.dlPop ch) := fields_commandWord _ _ _ _ _
theorem dlStep (ch : BitVec 8) (x : F32) : Statement (.dlStep ch x) := fields_commandWord _ _ _ _ _
theorem dlPeek (ch : BitVec 8) (index : BitVec 32) : Statement (.dlPeek ch index) := fields_commandWord _ _ _ _ _
theorem mdSetMode (m : MdMode) : Statement (.mdSetMode m) := fields_commandWord _ _ _ _ _
theorem mdSetRate (percent : F32) : Statement (.mdSetRate percent) := fields_commandWord _ _ _ _ _
theorem mdSetDepth (samples : F32) : Statement (.mdSetDepth samples) := fields_commandWord _ _ _ _ _
theorem mdSetBase (samples : F32) : Statement (.mdSetBase samples) := fields_commandWord _ _ _ _ _
theorem mdSetPredelayMs (ms : F32) : Statement (.mdSetPredelayMs ms) := fields_commandWord _ _ _ _ _
theorem mdStep (ch : BitVec 8) (x : F32) : Statement (.mdStep ch x) := fields_commandWord _ _ _ _ _
theorem psSetSemitones (semitones : F32) : Statement (.psSetSemitones semitones) := fields_commandWord _ _ _ _ _
theorem psStep (ch : BitVec 8) (x : F32) : Statement (.psStep ch x) := fields_commandWord _ _ _ _ _
theorem bqSetType (t : BqType) : Statement (.bqSetType t) := fields_commandWord _ _ _ _ _
theorem bqSetForm (f : BqForm) : Statement (.bqSetForm f) := fields_commandWord _ _ _ _ _
theorem bqSetFreq (hz : F32) : Statement (.bqSetFreq hz) := fields_commandWord _ _ _ _ _
theorem bqSetQ (q : F32) : Statement (.bqSetQ q) := fields_commandWord _ _ _ _ _
theorem bqSetGain (db : F32) : Statement (.bqSetGain db) := fields_commandWord _ _ _ _ _
theorem bqUpdate : Statement (.bqUpdate) := fields_commandWord _ _ _ _ _
theorem bqStep (ch : BitVec 8) (x : F32) : Statement (.bqStep ch x) := fields_commandWord _ _ _ _ _
theorem napfSetG1 (g : F32) : Statement (.napfSetG1 g) := fields_commandWord _ _ _ _ _
theorem napfSetG2 (g : F32) : Statement (.napfSetG2 g) := fields_commandWord _ _ _ _ _
theorem napfStep (ch : BitVec 8) (x : F32) : Statement (.napfStep ch x) := fields_commandWord _ _ _ _ _

end Sys2Proof.Laws.EncodeFields
end

