-- ==== Sys2Proof/Laws/Ops.lean ====
section
/-!
SUPPORT. One lemma per shared operation of Machine/Ops.lean, Machine/Operands.lean and Machine/Sequencer.lean that says
what it can do, so that proofs cite it and never unfold the operation.
-/
namespace Sys2Proof.Machine

/-! ## Index arithmetic on natural numbers (20_memory.md R62) -/

theorem modCap_natCast (i c : Nat) : modCap (i : Int) c = i % c := by
  unfold modCap; omega

theorem modCap_lt (i : Int) {c : Nat} (h : 1 ≤ c) : modCap i c < c := by
  have h0 : (c : Int) ≠ 0 := by omega
  have h1 := Int.emod_nonneg i h0
  have h2 := Int.emod_lt_of_pos i (show (0 : Int) < c by omega)
  unfold modCap; omega

theorem modCap_add_self (i : Int) (c : Nat) : modCap (i + c) c = modCap i c := by
  unfold modCap; rw [Int.add_emod_right]

theorem advance_eq (w c : Nat) : advance w c = (w + 1) % c := modCap_natCast (w + 1) c

theorem advance_lt (w : Nat) {c : Nat} (h : 1 ≤ c) : advance w c < c := modCap_lt _ h

theorem newestSlot_eq (w : Nat) {c : Nat} (h : 1 ≤ c) : newestSlot w c = (w + c - 1) % c := by
  unfold newestSlot
  rw [← modCap_add_self, ← modCap_natCast]
  congr 1; omega

theorem newestSlot_lt (w : Nat) {c : Nat} (h : 1 ≤ c) : newestSlot w c < c := modCap_lt _ h

theorem delayedSlot_lt (w : Nat) {c : Nat} (n : Int) (h : 1 ≤ c) : delayedSlot w c n < c := modCap_lt _ h

theorem modCap_modCap_sub (i n : Int) {c : Nat} (h : 1 ≤ c) : modCap ((modCap i c : Int) - n) c = modCap (i - n) c := by
  have h0 : (c : Int) ≠ 0 := by omega
  have h1 := Int.emod_nonneg i h0
  unfold modCap
  rw [Int.toNat_of_nonneg h1, Int.sub_emod (i % c), Int.emod_emod, ← Int.sub_emod]

/-- The slot of a whole delay counts back from the next slot to be written. -/
theorem delayedSlot_eq (w n : Nat) {c : Nat} (h : 1 ≤ c) (hn : n ≤ c) :
    delayedSlot w c (n : Int) = (w + 2 * c - 1 - n) % c := by
  unfold delayedSlot newestSlot
  rw [modCap_modCap_sub _ _ h, ← modCap_add_self, ← modCap_add_self, ← modCap_natCast]
  congr 1; omega

/-- The newest slot after a push is the slot the push wrote. -/
theorem newestSlot_advance {w c : Nat} (h : w < c) : newestSlot (advance w c) c = w := by
  rw [newestSlot_eq _ (by omega), advance_eq]
  rcases Nat.lt_or_ge (w + 1) c with h1 | h1
  · rw [Nat.mod_eq_of_lt h1, show w + 1 + c - 1 = w + c by omega, Nat.add_mod_right, Nat.mod_eq_of_lt h]
  · have : w + 1 = c := by omega
    subst this
    rw [Nat.mod_self, Nat.zero_add, Nat.add_sub_cancel, Nat.mod_eq_of_lt (Nat.lt_succ_self w)]

/-! ## Reads of a state -/

variable (s : State) (opc ch ch' : BitVec 8) (c : Cause) (v : BitVec 32) (x : F32) (k : Nat) (r : ChanRegs)

@[simp] theorem State.finish_chan : (s.finish opc ch' c v).chan ch = s.chan ch := rfl
@[simp] theorem State.memWrite_chan : (s.memWrite ch' k x).chan ch = s.chan ch := rfl
@[simp] theorem State.updateCoefficients_chan : s.updateCoefficients.chan ch = s.chan ch := rfl
@[simp] theorem State.finish_memRead : (s.finish opc ch' c v).memRead ch k = s.memRead ch k := rfl
@[simp] theorem State.setChan_memRead : (s.setChan ch' r).memRead ch k = s.memRead ch k := rfl
@[simp] theorem State.advanceTime_memRead : (s.advanceTime ch').memRead ch k = s.memRead ch k := rfl
@[simp] theorem State.memWrite_nan : (s.memWrite ch k x).nan = s.nan := rfl
@[simp] theorem State.push_nan : (s.push ch x).nan = s.nan := rfl
@[simp] theorem State.setChan_nan : (s.setChan ch r).nan = s.nan := rfl
@[simp] theorem State.push_capF : (s.push ch x).capF = s.capF := rfl

/-- A write of one channel's registers is seen by a read of them. -/
theorem State.chan_setChan_same (h : ch.toNat < s.chans.length) : (s.setChan ch r).chan ch = r := by
  simp [State.chan, State.setChan, List.getD, h]

/-- A write of one channel's registers leaves every other channel alone. -/
theorem State.chan_setChan_other {ch ch' : BitVec 8} (h : ch' ≠ ch) : (s.setChan ch r).chan ch' = s.chan ch' := by
  have : ch.toNat ≠ ch'.toNat := fun e => h (BitVec.eq_of_toNat_eq e.symm)
  simp [State.chan, State.setChan, List.getD, this]

@[simp] theorem State.setChan_length : (s.setChan ch r).chans.length = s.chans.length := by simp

/-- A map over every channel's registers, read back. -/
theorem State.getD_map_chans (f : ChanRegs → ChanRegs) (h : ch.toNat < s.chans.length) :
    (s.chans.map f).getD ch.toNat ChanRegs.cleared = f (s.chan ch) := by
  simp [State.chan, List.getD, h]

theorem State.memRead_memWrite_same (h : s.mem.wf = true) : (s.memWrite ch k x).memRead ch k = x :=
  Memory.read_write_same h _ x

theorem State.memRead_memWrite_other {ch ch' : BitVec 8} {k k' : Nat} (h : ch' ≠ ch ∨ k' ≠ k) :
    (s.memWrite ch k x).memRead ch' k' = s.memRead ch' k' := by
  refine Memory.read_write_other s.mem x fun e => ?_
  obtain ⟨e1, e2⟩ := (ramAddress_eq_iff ch ch' k k').mp e
  exact h.elim (fun h => h e1.symm) (fun h => h e2.symm)

/-! ## The push (41_delay_line.md R118) -/

theorem State.push_chan_same (h : ch.toNat < s.chans.length) :
    (s.push ch x).chan ch = { s.chan ch with widx := advance (s.chan ch).widx s.cap } :=
  (s.memWrite ch (s.chan ch).widx x).chan_setChan_same ch _ h

theorem State.push_chan_other {ch ch' : BitVec 8} (h : ch' ≠ ch) : (s.push ch x).chan ch' = s.chan ch' :=
  (s.memWrite ch (s.chan ch).widx x).chan_setChan_other _ h

theorem State.push_memRead_same (h : s.mem.wf = true) : (s.push ch x).memRead ch (s.chan ch).widx = x :=
  s.memRead_memWrite_same ch x _ h

theorem State.push_memRead_other {ch ch' : BitVec 8} {k : Nat} (h : ch' ≠ ch ∨ k ≠ (s.chan ch).widx) :
    (s.push ch x).memRead ch' k = s.memRead ch' k :=
  s.memRead_memWrite_other x h

@[simp] theorem State.push_length : (s.push ch x).chans.length = s.chans.length := by simp

/-- The fill of `DL_CONFIG` (R111), read back. -/
theorem State.configureLine_memRead (n : Nat) :
    (s.configureLine n).memRead ch k = if ch.toNat < s.nch ∧ k < n then c0 else s.memRead ch k := by
  simp only [State.memRead, State.configureLine_mem, Memory.read_fillRows, inRows_ramAddress, Bool.and_eq_true,
    decide_eq_true_eq]

/-- What a push does, in one lemma (41_delay_line.md R118). -/
theorem State.push_pushedOn (h : s.mem.wf = true) : s.PushedOn (s.push ch x) ch x :=
  ⟨s.push_memRead_same ch x h, fun _ _ hh => s.push_memRead_other x hh, fun _ hh => s.push_chan_other x hh,
    Memory.write_wf h _ _⟩

/-- What was pushed stays pushed under updates of the same channel's registers. -/
theorem State.PushedOn.congr {s t u : State} {ch : BitVec 8} {x : F32} (h : s.PushedOn t ch x) (hm : u.mem = t.mem)
    (hc : ∀ ch' : BitVec 8, ch' ≠ ch → u.chan ch' = t.chan ch') : s.PushedOn u ch x := by
  have hr : ∀ c i, u.memRead c i = t.memRead c i := fun c i => by simp only [State.memRead, hm]
  exact ⟨(hr _ _).trans h.stored, fun c i hh => (hr _ _).trans (h.otherWords c i hh),
    fun c hh => (hc c hh).trans (h.otherChannels c hh), hm ▸ h.ram⟩

/-- A command's own source of NaN patterns is one. -/
theorem State.nan_nanSource : NanSource s.nan := fun _ => isNaN_nanOf _

/-- A channel below `NCH` has its registers. -/
theorem State.ChannelReady.lt_length {s : State} {ch : BitVec 8} (h : s.ChannelReady ch) : ch.toNat < s.chans.length := by
  have h1 := h.channel; have h2 := h.shape.nch_le; have h3 := h.shape.chans_length; omega

@[simp] theorem State.setChan_beside : (s.setChan ch r).besideRamAndChans = s.besideRamAndChans := rfl
@[simp] theorem State.memWrite_beside : (s.memWrite ch k x).besideRamAndChans = s.besideRamAndChans := rfl
@[simp] theorem State.push_beside : (s.push ch x).besideRamAndChans = s.besideRamAndChans := rfl
@[simp] theorem State.advanceTime_beside : (s.advanceTime ch).besideRamAndChans = s.besideRamAndChans := rfl

/-- Two ends of a command with equal values are alike beside the RAM and the channels. -/
theorem State.finish_beside {s u : State} {opc ch : BitVec 8} {c : Cause} {v w : BitVec 32}
    (h : u.besideRamAndChans = s.besideRamAndChans) (hv : v = w) :
    (u.finish opc ch c v).besideRamAndChans = (s.finish opc ch c w).besideRamAndChans := by
  subst hv
  exact congrArg (fun z : State => z.finish opc ch c v) h

/-! ## The common checks (60_exceptions.md R228 to R230, R232) -/

variable {v}

/-- Everything a checked command can do. -/
theorem State.checked_cases (i : Instr) (needsLine hasChannel : Bool) (body : Result) :
    (s.prepared = false ∧
      s.checked i needsLine hasChannel v body = .next (s.finish i.opcode i.channel .notPrepared v)) ∨
    (s.prepared = true ∧ needsLine = true ∧ s.dlConf = false ∧
      s.checked i needsLine hasChannel v body = .next (s.finish i.opcode i.channel .notConfigured v)) ∨
    (s.prepared = true ∧ (needsLine = true → s.dlConf = true) ∧ hasChannel = true ∧ s.nch ≤ i.channel.toNat ∧
      s.checked i needsLine hasChannel v body = .next (s.finish i.opcode i.channel .badChannel v)) ∨
    (s.prepared = true ∧ (needsLine = true → s.dlConf = true) ∧ (hasChannel = true → i.channel.toNat < s.nch) ∧
      s.checked i needsLine hasChannel v body = body) := by
  unfold State.checked State.raise
  cases hp : s.prepared
  · simp
  · cases needsLine <;> cases hasChannel <;> cases hd : s.dlConf <;> simp_all <;>
      by_cases hc : i.channel.toNat < s.nch <;> simp_all

/-- A command whose checks hold runs its own rule. -/
theorem State.checked_pass {s : State} (i : Instr) {needsLine hasChannel : Bool} (body : Result) (hp : s.prepared = true)
    (hl : needsLine = true → s.dlConf = true) (hc : hasChannel = true → i.channel.toNat < s.nch) :
    s.checked i needsLine hasChannel v body = body := by
  unfold State.checked
  cases needsLine <;> cases hasChannel <;> simp_all

/-! ## The fractional delay read (41_delay_line.md R117) -/

/-- How a command ends changes no read. -/
theorem State.finish_fracRead (s : State) (opc ch' : BitVec 8) (c : Cause) (v : BitVec 32) (nan : Nat → F32) (ch : BitVec 8)
    (d : F32) : (s.finish opc ch' c v).fracRead nan ch d = s.fracRead nan ch d := rfl

/-- A write of registers that keeps the channel's pointer changes no read of it. -/
theorem State.setChan_fracRead (s : State) (nan : Nat → F32) {ch : BitVec 8} (d : F32) (r : ChanRegs)
    (h : r.widx = (s.chan ch).widx) (hl : ch.toNat < s.chans.length) :
    (s.setChan ch r).fracRead nan ch d = s.fracRead nan ch d := by
  unfold State.fracRead State.tap
  simp only [State.chan_setChan_same s ch r hl, h, State.setChan_memRead, State.setChan_cap, State.setChan_interp]

/-- A read sees only its channel's pointer and row, the capacity, and the interpolation bit. -/
theorem State.fracRead_congr {s s' : State} (nan : Nat → F32) {ch : BitVec 8} (d : F32) (hi : s.interp = s'.interp)
    (hc : s.cap = s'.cap) (h1 : 1 ≤ s.cap) (hw : (s.chan ch).widx = (s'.chan ch).widx)
    (hr : ∀ k, k < s.cap → s.memRead ch k = s'.memRead ch k) : s.fracRead nan ch d = s'.fracRead nan ch d := by
  unfold State.fracRead State.tap
  simp only [← hi, ← hc, ← hw, hr _ (delayedSlot_lt _ _ h1)]

/-- The parts of a finite delay, from two sources of NaN patterns (41_delay_line.md R116). -/
theorem split_alike {nan nan' : Nat → F32} (hn : NanSource nan) (hn' : NanSource nan') {d : F32}
    (h : fisfinite d = true) : splitInt nan d = splitInt nan' d ∧ AlikeOrNaN (splitFrac nan d) (splitFrac nan' d) := by
  have e : ffloor (nan 0) d = ffloor (nan' 0) d := by rw [ffloor_of_finite _ h, ffloor_of_finite _ h]
  unfold splitInt splitFrac
  rw [e]
  exact ⟨rfl, alike_of_draw (f := fun n => fsub n d (ffloor (nan' 0) d)) (fsub_draw _ _) (hn 1) (hn' 1)⟩

/-- An interpolation of alike parts is alike (41_delay_line.md R117). -/
theorem interpolate_alike {nan nan' : Nat → F32} (hn : NanSource nan) (hn' : NanSource nan') {fr fr' : F32}
    (h : AlikeOrNaN fr fr') (s0 s1 : F32) : AlikeOrNaN (interpolate nan fr s0 s1) (interpolate nan' fr' s0 s1) := by
  refine fadd_alike (hn 5) (hn' 5) (fmul_alike (hn 3) (hn' 3) ?_ (.inl rfl)) (fmul_alike (hn 4) (hn' 4) h (.inl rfl))
  rcases h with rfl | ⟨h, h'⟩
  · exact alike_of_draw (f := fun n => fsub n c1 fr) (fsub_draw _ _) (hn 2) (hn' 2)
  · exact .inr ⟨by rw [fsub, if_pos h]; exact hn 2, by rw [fsub, if_pos h']; exact hn' 2⟩

/-- A fractional read at a finite delay is alike from two sources of NaN patterns, and the same word when it does not
interpolate (notes/assumptions/25.md). -/
theorem State.fracRead_alike {nan nan' : Nat → F32} (hn : NanSource nan) (hn' : NanSource nan') (s : State) (ch : BitVec 8)
    {d : F32} (h : fisfinite d = true) : AlikeOrNaN (s.fracRead nan ch d) (s.fracRead nan' ch d) ∧
      (s.interp = false → s.fracRead nan ch d = s.fracRead nan' ch d) := by
  obtain ⟨hi, hf⟩ := split_alike hn hn' h
  have e (n : Nat → F32) : s.fracRead n ch d = if s.interp then
      interpolate n (splitFrac n d) (s.tap ch (splitInt n d)) (s.tap ch (splitInt n d + 1))
      else s.tap ch (splitInt n d) := rfl
  rw [e nan, e nan', ← hi]
  generalize splitInt nan d = k
  generalize splitFrac nan d = fr at hf ⊢
  generalize splitFrac nan' d = fr' at hf ⊢
  cases hb : s.interp <;> simp only [if_true, Bool.false_eq_true, if_false]
  · exact ⟨.inl rfl, fun _ => trivial⟩
  · exact ⟨interpolate_alike hn hn' hf _ _, fun h => by cases h⟩

/-! ## How a command ends (30_encoding.md R83) -/

/-- The fields of a response word. -/
theorem responseWord_fields (opc ch : BitVec 8) (c : Cause) (v : BitVec 32) :
    opcField (responseWord opc ch c v) = opc ∧ chField (responseWord opc ch c v) = ch ∧
      selField (responseWord opc ch c v) = 0#8 ∧ causeField (responseWord opc ch c v) = c.code ∧
      valField (responseWord opc ch c v) = v :=
  Sys2Proof.Laws.EncodeFields.fields_commandWord opc ch 0#8 c.code v

/-- Everything the delay setters' shared end can do (41_delay_line.md R113). -/
theorem State.setDelay_eq (i : Instr) (s : State) (nan d : F32) : s.setDelay i nan d = .next
    (if fisfinite d = false then s.finish i.opcode i.channel .invalidOperand s.dly
    else if fle c0 (wrapNeg nan d s.capF) = true ∧ flt (wrapNeg nan d s.capF) s.capF = true then
      { s with dly := wrapNeg nan d s.capF }.finish i.opcode i.channel .ok (wrapNeg nan d s.capF)
    else s.finish i.opcode i.channel .delayOutOfRange s.dly) := by
  unfold State.setDelay delayInRange
  generalize wrapNeg nan d s.capF = d'
  cases hf : fisfinite d <;> cases h1 : fle c0 d' <;> cases h2 : flt d' s.capF <;> simp [State.raise, State.respond]

/-- Everything the coefficient update can do (44_biquad.md R186). -/
theorem State.updateCoefficients_cases (s : State) :
    (s.updateSucceeds = true ∧ s.updateCoefficients = { s with coef := s.newCoeffs s.nan, bqValid := true }) ∨
    (s.updateSucceeds = false ∧ s.updateCoefficients = { s with bqValid := false }) := by
  unfold State.updateCoefficients
  cases s.updateSucceeds
  · exact .inr ⟨rfl, rfl⟩
  · exact .inl ⟨rfl, rfl⟩

end Sys2Proof.Machine
end

