-- ==== Sys2Proof/Laws/Exec.lean ====
section
/-!
SUPPORT. Everything `exec` and `step` can do at the level of the command stream: every command ends by `finish`, over a
state whose streams and parameters are those before it.
-/
namespace Sys2Proof.Machine

/-- What no command's own writes touch: the streams, the draw counter, the parameters, and, but for `CLRERR`, the error
registers. -/
structure State.Keeps (s u : State) : Prop where
  cmdIn : u.cmdIn = s.cmdIn
  rspOut : u.rspOut = s.rspOut
  draws : u.draws = s.draws
  nchMax : u.nchMax = s.nchMax
  capMax : u.capMax = s.capMax

theorem State.Keeps.refl (s : State) : s.Keeps s := ⟨rfl, rfl, rfl, rfl, rfl⟩

/-- A result that is the end of a command after writes that keep the streams, and the error registers if `e`. -/
def EndsFrom (e : Bool) (i : Instr) (s : State) (r : Result) : Prop :=
  ∃ u c v, r = .next (u.finish i.opcode i.channel c v) ∧ s.Keeps u ∧
    (e = true → u.errFlags = s.errFlags ∧ u.errLast = s.errLast)

theorem endsFrom_self (e : Bool) (i : Instr) (s : State) (c : Cause) (v : BitVec 32) :
    EndsFrom e i s (.next (s.finish i.opcode i.channel c v)) :=
  ⟨s, c, v, rfl, .refl s, fun _ => ⟨rfl, rfl⟩⟩

/-- Every way a command ends, over the writes `u` it made. -/
theorem endsFrom_respond (e : Bool) (i : Instr) {s u : State} (v : BitVec 32) (hk : s.Keeps u)
    (he : u.errFlags = s.errFlags ∧ u.errLast = s.errLast) : EndsFrom e i s (u.respond i v) :=
  ⟨u, .ok, v, rfl, hk, fun _ => he⟩

theorem endsFrom_raise (e : Bool) (i : Instr) {s u : State} (c : Cause) (v : BitVec 32) (hk : s.Keeps u)
    (he : u.errFlags = s.errFlags ∧ u.errLast = s.errLast) : EndsFrom e i s (u.raise i c v) :=
  ⟨u, c, v, rfl, hk, fun _ => he⟩

theorem endsFrom_updated (e : Bool) (i : Instr) {s u : State} (v w : BitVec 32) (hk : s.Keeps u)
    (he : u.errFlags = s.errFlags ∧ u.errLast = s.errLast) : EndsFrom e i s (u.finishUpdated i v w) :=
  ⟨u, _, _, rfl, hk, fun _ => he⟩

theorem endsFrom_checked {e : Bool} {i : Instr} {s : State} {a b : Bool} {v : BitVec 32} {body : Result}
    (h : EndsFrom e i s body) : EndsFrom e i s (s.checked i a b v body) := by
  rcases s.checked_cases (v := v) i a b body with ⟨-, h'⟩ | ⟨-, -, -, h'⟩ | ⟨-, -, -, -, h'⟩ | ⟨-, -, -, h'⟩ <;> rw [h']
  iterate 3 exact endsFrom_self e i s _ v
  exact h

theorem endsFrom_ite {e : Bool} {i : Instr} {s : State} {p : Prop} [Decidable p] {a b : Result}
    (ha : EndsFrom e i s a) (hb : EndsFrom e i s b) : EndsFrom e i s (if p then a else b) := by
  split <;> assumption

theorem endsFrom_setDelay (e : Bool) (i : Instr) (s : State) (nan d : F32) : EndsFrom e i s (s.setDelay i nan d) := by
  unfold State.setDelay
  exact endsFrom_ite (endsFrom_self _ i s _ _)
    (endsFrom_ite ⟨_, _, _, rfl, ⟨rfl, rfl, rfl, rfl, rfl⟩, fun _ => ⟨rfl, rfl⟩⟩ (endsFrom_self _ i s _ _))

/-- Everything a command can do to the streams and the parameters; `CLRERR` alone writes the error registers itself. -/
theorem exec_ends (i : Instr) (s : State) : EndsFrom (!decide (i = .clrerr)) i s (exec i s) := by
  cases i with
  | rdreg ch reg =>
    cases reg <;> simp only [exec, execRdreg] <;> repeat' apply endsFrom_ite
    all_goals exact ⟨_, _, _, rfl, ⟨rfl, rfl, rfl, rfl, rfl⟩, fun _ => ⟨rfl, rfl⟩⟩
  | clrerr => exact ⟨_, _, _, rfl, ⟨rfl, rfl, rfl, rfl, rfl⟩, fun h => absurd h (by decide)⟩
  | _ =>
    simp only [exec, execNop, execPrepare, execDlConfig, execDlSetDelay, execDlSetDelayBpm, execDlSetNotediv,
      execDlSetInterp, execDlPush, execDlPop, execDlStep, execDlPeek, execMdSetMode, execMdSetRate, execMdSetDepth,
      execMdSetBase, execMdSetPredelayMs, execMdStep, execPsSetSemitones, execPsStep, execBqSetType, execBqSetForm,
      execBqSetFreq, execBqSetQ, execBqSetGain, execBqUpdate, execBqStep, execNapfSetG1, execNapfSetG2, execNapfStep]
    repeat' with_reducible first
      | apply endsFrom_checked | apply endsFrom_ite | apply endsFrom_setDelay
      | apply endsFrom_respond | apply endsFrom_raise | apply endsFrom_updated
    all_goals constructor <;> simp [State.prepareWrites]

/-- Everything a step can do. -/
theorem step_cases (s : State) :
    (s.cmdIn = [] ∧ step s = .next s) ∨
    (∃ w rest i, s.cmdIn = w :: rest ∧ decode w = .ok i ∧ step s = exec i { s with cmdIn := rest }) ∨
    (∃ w rest e, s.cmdIn = w :: rest ∧ decode w = .error e ∧
      step s = .next ({ s with cmdIn := rest }.finish (opcField w) (chField w) .illegalCommand 0#32)) := by
  unfold step takeCommand performWord
  cases hc : s.cmdIn with
  | nil => exact .inl ⟨rfl, rfl⟩
  | cons w rest =>
    cases hd : decode w with
    | ok i => exact .inr (.inl ⟨w, rest, i, rfl, hd, by simp only [hd]⟩)
    | error e => exact .inr (.inr ⟨w, rest, e, rfl, hd, by simp only [hd]; rfl⟩)

/-- A run of one more step. -/
theorem run_succ {n : Nat} {s t : State} (h : step s = .next t) :
    Host.Core.run Sys2Proof.core (n + 1) s = Host.Core.run Sys2Proof.core n t := by
  have h' : Host.Core.step Sys2Proof.core s = .next t := h
  simp only [Host.Core.run, h']

end Sys2Proof.Machine
end

