-- ==== Sys2Proof/Laws/Num.lean ====
section
/-!
SUPPORT. Laws L2 to L5 of the open functions (00_scope.md R10), whatever the free constants of Config are.
-/
namespace Sys2Proof.Machine

/-- Law L2 of the sine. -/
theorem fsin_zero : fsin c0 = c0 := by simp [fsin]

/-- Law L2 of the cosine. -/
theorem fcos_zero {x : F32} (h : isZero x = true) : fcos x = c1 := by simp [fcos, h]

/-- Law L2 of 10^x. -/
theorem fpow10_zero {x : F32} (h : isZero x = true) : fpow10 x = c1 := by simp [fpow10, h]

/-- Law L3, and with it L2, of 2^x. -/
theorem fexp2_exact {x : F32} (h : isExp2Exact x = true) : fexp2 x = pow2 (f2i x) := by simp [fexp2, h]

/-- Law L4 of the sine. -/
theorem fsin_bounded {x : F32} (h : fisfinite x = true) : lawL4 (fsin x) = true := by
  unfold fsin
  split
  · decide +kernel
  · split
    · decide +kernel
    · simp_all

/-- Law L4 of the cosine. -/
theorem fcos_bounded {x : F32} (h : fisfinite x = true) : lawL4 (fcos x) = true := by
  unfold fcos
  split
  · decide +kernel
  · split
    · decide +kernel
    · simp_all

/-- Law L5 of 10^x. -/
theorem fpow10_nonneg {x : F32} (h : fisfinite x = true) : lawL5 (fpow10 x) = true := by
  unfold fpow10
  split
  · decide +kernel
  · split
    · decide +kernel
    · simp_all

/-- A power of two in range is not negative. -/
theorem lawL5_pow2 {k : Int} (hlo : -126 ≤ k) (hhi : k ≤ 127) : lawL5 (pow2 k) = true := by
  have hm : (k + 127).toNat * 2 ^ 23 < 0x7F800000 := by omega
  have hb : magBits (pow2 k) = (k + 127).toNat * 2 ^ 23 := magBits_packF32 false (by omega)
  have hs : signBit (pow2 k) = false := signBit_packF32 false (by omega)
  have hn : isNaN (pow2 k) = false := isNaN_of_finite ((fisfinite_iff _).mpr (by omega))
  have h0 : signBit c0 = false := by decide
  have h1 : units c0 = 0 := by decide
  have h2 : isNaN c0 = false := by decide
  simp [lawL5, fle, hn, h0, h1, h2, signedUnits, hs]

/-- Law L5 of 2^x. -/
theorem fexp2_nonneg {x : F32} (h : fisfinite x = true) : lawL5 (fexp2 x) = true := by
  unfold fexp2
  split
  · rename_i hx
    simp only [isExp2Exact, Bool.and_eq_true, decide_eq_true_eq] at hx
    exact lawL5_pow2 hx.1.2 hx.2
  · split
    · decide +kernel
    · simp_all

end Sys2Proof.Machine
end

