-- ==== Sys2Proof/Laws/Response.lean ====
section
/-!
SUPPORT. The steady responses of the biquad as quotients (44_biquad.md R193), and how far one
rounding, a product and a sum move a value (for R193 and 41_delay_line.md R123).
-/
namespace Sys2Proof.Machine

/-- A steady output is the input times the quotient of numerator and denominator. -/
theorem Coeffs.steady_iff (k : Coeffs) {z : ℂ} (hz : z ≠ 0) (x y : ℂ) :
    k.Steady z x y ↔
      y * (value k.a0 * z ^ 2 + value k.a1 * z + value k.a2) = x * (value k.b0 * z ^ 2 + value k.b1 * z + value k.b2) := by
  constructor
  · intro h
    have h0 := h 0
    simp only [Nat.zero_add, pow_zero, pow_one] at h0
    linear_combination h0
  · intro h n
    have hn : z ^ n ≠ 0 := pow_ne_zero n hz
    dsimp only
    rw [pow_add, pow_add]
    linear_combination z ^ n * h

/-- At 0 Hz, over the rational numbers. -/
theorem Coeffs.steady_zeroHz (k : Coeffs) (x y : ℂ) :
    k.Steady 1 x y ↔ y * (k.denominator 1 : ℚ) = x * (k.numerator 1 : ℚ) := by
  rw [k.steady_iff one_ne_zero]
  simp [Coeffs.denominator, Coeffs.numerator]

/-- At Nyquist, over the rational numbers. -/
theorem Coeffs.steady_nyquist (k : Coeffs) (x y : ℂ) :
    k.Steady (-1) x y ↔ y * (k.denominator (-1) : ℚ) = x * (k.numerator (-1) : ℚ) := by
  rw [k.steady_iff (by norm_num)]
  simp [Coeffs.denominator, Coeffs.numerator]

/-- Rounding to the nearest integer moves a quotient by at most one half. -/
theorem roundHalfEven_error (n : Nat) {d : Nat} (hd : 0 < d) :
    2 * n ≤ 2 * (roundHalfEven n d * d) + d ∧ 2 * (roundHalfEven n d * d) ≤ 2 * n + d := by
  have h := Nat.div_add_mod n d
  have hlt := Nat.mod_lt n hd
  have e : d * (n / d) = n / d * d := Nat.mul_comm _ _
  unfold roundHalfEven
  dsimp only
  split
  · rename_i hup
    have : (n / d + 1) * d = n / d * d + d := by ring
    omega
  · rename_i hup
    omega

/-- The magnitude a pattern of the form `k * 2^23 + m` stands for, when m has at most 24 bits. -/
theorem magUnits_step {k m : Nat} (hm : m ≤ 2 ^ 24) (hlo : k ≠ 0 → 2 ^ 23 ≤ m) :
    magUnits (k * 2 ^ 23 + m) = m * 2 ^ k := by
  rcases Nat.lt_or_ge m (2 ^ 23) with h | h
  · have hk : k = 0 := by by_contra hne; have := hlo hne; omega
    subst hk
    simp only [magUnits, Nat.zero_mul, Nat.zero_add, pow_zero, Nat.mul_one]
    rw [if_pos (by omega)]
  rcases Nat.lt_or_ge m (2 ^ 24) with h' | h'
  · have h1 : (k * 2 ^ 23 + m) / 2 ^ 23 = k + 1 := by omega
    have h2 : (k * 2 ^ 23 + m) % 2 ^ 23 = m - 2 ^ 23 := by omega
    simp only [magUnits, h1, h2, Nat.add_sub_cancel]
    rw [if_neg (by omega), show 2 ^ 23 + (m - 2 ^ 23) = m by omega]
  · have hm : m = 2 ^ 24 := by omega
    subst hm
    have h1 : (k * 2 ^ 23 + 2 ^ 24) / 2 ^ 23 = k + 2 := by omega
    have h2 : (k * 2 ^ 23 + 2 ^ 24) % 2 ^ 23 = 0 := by omega
    simp only [magUnits, h1, h2]
    rw [if_neg (by omega), show k + 2 - 1 = k + 1 by omega, pow_succ 2 k]
    ring

/-- Rounding below 2^128 moves a magnitude by at most a factor of 2^-24, or by half a unit. -/
theorem roundUnits_error {n d : Nat} (hd : 0 < d) (h : n < 2 ^ 277 * d) :
    2 ^ 24 * n ≤ 2 ^ 24 * (magUnits (roundUnits n d) * d) + n + 2 ^ 23 * d ∧
      2 ^ 24 * (magUnits (roundUnits n d) * d) ≤ 2 ^ 24 * n + n + 2 ^ 23 * d := by
  have hq : n / d < 2 ^ 277 := (Nat.div_lt_iff_lt_mul hd).mpr h
  generalize hk : (n / d).log2 - 23 = k
  have hk' : k ≤ 253 := by
    rcases Nat.eq_zero_or_pos (n / d) with h0 | h0
    · rw [h0] at hk; simp at hk; omega
    · have := (Nat.log2_lt (by omega)).mpr hq
      omega
  generalize hm : roundHalfEven n (d * 2 ^ k) = m
  have hstep := log2_step (n / d)
  rw [hk] at hstep
  have hm24 : m ≤ 2 ^ 24 := by
    have h1 : n / (d * 2 ^ k) < 2 ^ 24 := by
      rw [← Nat.div_div_eq_div_mul, Nat.div_lt_iff_lt_mul (by positivity), ← pow_add]
      rwa [Nat.add_comm 24 k]
    have := roundHalfEven_le n (d * 2 ^ k)
    omega
  have hlow : k ≠ 0 → 2 ^ (k + 23) ≤ n / d := fun hne => by
    have := log2_step_low (q := n / d) (by omega)
    rwa [hk] at this
  have hm23 : k ≠ 0 → 2 ^ 23 ≤ m := fun hne => by
    rw [← hm]
    refine le_trans ?_ (le_roundHalfEven n (d * 2 ^ k))
    rw [← Nat.div_div_eq_div_mul, Nat.le_div_iff_mul_le (by positivity), ← pow_add, Nat.add_comm 23 k]
    exact hlow hne
  have hr : roundUnits n d = k * 2 ^ 23 + m := by
    unfold roundUnits
    dsimp only
    rw [hk, hm]
    omega
  have herr := roundHalfEven_error n (d := d * 2 ^ k) (by positivity)
  rw [hm] at herr
  have e : m * (d * 2 ^ k) = m * 2 ^ k * d := by ring
  rw [hr, magUnits_step hm24 hm23, ← e]
  have hsmall : 2 ^ 23 * (d * 2 ^ k) ≤ n + 2 ^ 23 * d := by
    rcases Nat.eq_zero_or_pos k with h0 | h0
    · subst h0; simp
    · have h1 : 2 ^ (k + 23) * d ≤ n := (Nat.le_div_iff_mul_le hd).mp (hlow (by omega))
      rw [pow_add] at h1
      have : 2 ^ k * 2 ^ 23 * d = 2 ^ 23 * (d * 2 ^ k) := by ring
      omega
  omega

/-- A value is its sign and its magnitude. -/
theorem value_eq (x : F32) : value x = (if signBit x then -1 else 1) * ((units x : ℚ) / 2 ^ 149) := by
  unfold value signedUnits
  cases signBit x
  · simp
  · simp; ring

/-- The value of a pattern with a given sign. -/
theorem value_packF32 (s : Bool) {m : Nat} (h : m < 2 ^ 31) :
    value (packF32 s m) = (if s then -1 else 1) * ((magUnits m : ℚ) / 2 ^ 149) := by
  rw [value_eq, signBit_packF32 s h, units_eq, magBits_packF32 s h]

/-- The bound of `roundUnits_error` as a quotient, in a unit `u`. -/
theorem quotient_error {m n d : Nat} {u : ℚ} (hu : 0 < u) (hd : 0 < d)
    (h1 : 2 ^ 24 * n ≤ 2 ^ 24 * (m * d) + n + 2 ^ 23 * d) (h2 : 2 ^ 24 * (m * d) ≤ 2 ^ 24 * n + n + 2 ^ 23 * d) :
    |(m : ℚ) / u - (n : ℚ) / d / u| ≤ (n : ℚ) / d / u / 2 ^ 24 + 1 / 2 / u := by
  have hdq : (0 : ℚ) < d := by exact_mod_cast hd
  have g1 : (2 : ℚ) ^ 24 * n ≤ 2 ^ 24 * (m * d) + n + 2 ^ 23 * d := by exact_mod_cast h1
  have g2 : (2 : ℚ) ^ 24 * (m * d) ≤ 2 ^ 24 * n + n + 2 ^ 23 * d := by exact_mod_cast h2
  have hq : (n : ℚ) = n / d * d := by field_simp
  generalize (n : ℚ) / d = q at hq ⊢
  rw [hq] at g1 g2
  have k1 : (2 : ℚ) ^ 24 * q ≤ 2 ^ 24 * m + q + 2 ^ 23 := by
    refine le_of_mul_le_mul_right ?_ hdq; linarith
  have k2 : (2 : ℚ) ^ 24 * m ≤ 2 ^ 24 * q + q + 2 ^ 23 := by
    refine le_of_mul_le_mul_right ?_ hdq; linarith
  have e : q / u / 2 ^ 24 + 1 / 2 / u = (q / 2 ^ 24 + 1 / 2) / u := by field_simp
  rw [← sub_div, abs_div, abs_of_pos hu, e]
  refine div_le_div_of_nonneg_right ?_ hu.le
  rw [abs_le]
  constructor <;> linarith

/-- How far one rounding moves a value: a factor of 2^-24, or half of 2^-149. -/
theorem value_roundUnits (s : Bool) {n d : Nat} (hd : 0 < d) (h : n < 2 ^ 277 * d) :
    |value (packF32 s (roundUnits n d)) - (if s then -1 else 1) * ((n : ℚ) / d / 2 ^ 149)| ≤
      (n : ℚ) / d / 2 ^ 149 / 2 ^ 24 + 1 / 2 / 2 ^ 149 := by
  have he := roundUnits_error hd h
  have hs : |(if s then (-1 : ℚ) else 1)| = 1 := by cases s <;> simp
  rw [value_packF32 s (roundUnits_lt n d), ← mul_sub, abs_mul, hs, one_mul]
  exact quotient_error (by positivity) hd he.1 he.2

/-- How far a product lies from the exact one (00_scope.md R10), when it does not overflow. -/
theorem fmul_error (nan : F32) {a b : F32} (ha : fisfinite a = true) (hb : fisfinite b = true)
    (h : units a * units b < 2 ^ 277 * oneUnits) :
    |value (fmul nan a b) - value a * value b| ≤ |value a * value b| / 2 ^ 24 + 1 / 2 / 2 ^ 149 := by
  have hone : (oneUnits : ℚ) = 2 ^ 149 := by norm_num [oneUnits]
  have he := value_roundUnits (signBit a != signBit b) (by decide +kernel : 0 < oneUnits) h
  rw [hone, Nat.cast_mul] at he
  rw [fmul_of_finite nan ha hb, value_eq a, value_eq b]
  have hu : (0 : ℚ) < 2 ^ 149 := by positivity
  have ea : (0 : ℚ) ≤ units a := Nat.cast_nonneg _
  have eb : (0 : ℚ) ≤ units b := Nat.cast_nonneg _
  generalize (2 : ℚ) ^ 149 = u at he hu ⊢
  generalize (units a : ℚ) = x at he ea ⊢
  generalize (units b : ℚ) = y at he eb ⊢
  have e : x * y / u / u = x / u * (y / u) := by field_simp
  have e0 : 0 ≤ x / u * (y / u) := by positivity
  rw [e] at he
  generalize x / u * (y / u) = z at he e0 e
  have hz (p q : Bool) : (if p then (-1 : ℚ) else 1) * (x / u) * ((if q then (-1 : ℚ) else 1) * (y / u)) =
      (if (p != q) then -1 else 1) * z := by
    rw [← e]
    cases p <;> cases q <;> simp <;> ring
  have habs (p : Bool) : |(if p then (-1 : ℚ) else 1) * z| = z := by
    cases p <;> simp [abs_of_nonneg e0]
  rw [hz, habs]
  exact he

/-- How far a sum lies from the exact one (00_scope.md R10), when it does not overflow. -/
theorem fadd_error (nan : F32) {a b : F32} (ha : fisfinite a = true) (hb : fisfinite b = true)
    (h : (signedUnits a + signedUnits b).natAbs < 2 ^ 277) :
    |value (fadd nan a b) - (value a + value b)| ≤ |value a + value b| / 2 ^ 24 + 1 / 2 / 2 ^ 149 := by
  have hsum : value a + value b = ((signedUnits a + signedUnits b : Int) : ℚ) / 2 ^ 149 := by
    unfold value
    rw [Int.cast_add, add_div]
  rw [fadd_of_finite nan ha hb, hsum]
  generalize signedUnits a + signedUnits b = z at h ⊢
  have hu : (0 : ℚ) < 2 ^ 149 := by positivity
  unfold ofUnits
  by_cases h0 : z = 0
  · rw [if_pos h0, h0, value_packF32 _ (by decide)]
    have hm : magUnits 0 = 0 := by decide
    rw [hm]
    simp only [Nat.cast_zero, Int.cast_zero, zero_div, mul_zero, sub_zero, abs_zero, zero_add]
    positivity
  · rw [if_neg h0]
    have he := value_roundUnits (decide (z < 0)) Nat.one_pos (by rwa [Nat.mul_one])
    rw [Nat.cast_one, div_one, Nat.cast_natAbs, Int.cast_abs] at he
    generalize (2 : ℚ) ^ 149 = u at he hu ⊢
    have hs : (if decide (z < 0) then (-1 : ℚ) else 1) * (|(z : ℚ)| / u) = z / u := by
      by_cases hz : z < 0
      · have : (z : ℚ) < 0 := by exact_mod_cast hz
        rw [if_pos (decide_eq_true hz), abs_of_neg this]; ring
      · have : (0 : ℚ) ≤ z := by exact_mod_cast (not_lt.mp hz)
        rw [if_neg (by simpa using hz), abs_of_nonneg this, one_mul]
    rw [hs] at he
    rw [abs_div, abs_of_pos hu]
    exact he

end Sys2Proof.Machine
end

