-- ==== Sys2Proof/Tests/Slice0.lean ====
section
/-!
SUPPORT. Tests of the model on fixed values. The expected words come from the worked examples of the spec's rules and from
the vectors of 95_test_vectors.md named beside each test. At the end, a witness for each statement that has hypotheses.
-/
namespace Sys2Proof.Tests
open Sys2Proof.Machine

/-! ## Well-formedness: the one check there is, refused -/

/-- `RDREG` of a register that exists once, on channel 1. -/
theorem test_rdreg_of_a_global_register_on_a_channel_is_ill_formed :
    (Instr.rdreg 1#8 (.global .sr)).wellFormed = false ∧ (Instr.rdreg 0#8 (.global .sr)).wellFormed = true ∧
      (Instr.rdreg 255#8 (.channel .widx)).wellFormed = true := by decide

/-! ## Decoding: one word per constructor, written out field by field from the table of 30_encoding.md R85 -/

theorem test_decode_lifecycle :
    decode 0x0000000000000000#64 = .ok .nop ∧
    decode 0x01000200472C4400#64 = .ok (.prepare 2#8 0x472C4400#32) ∧
    decode 0x0202140000000000#64 = .ok (.rdreg 2#8 (.channel .widx)) ∧
    decode 0x0300000000000000#64 = .ok .clrerr := by decide

theorem test_decode_delay_line :
    decode 0x1000020080000000#64 = .ok (.dlConfig 2#8 0x80000000#32) ∧
    decode 0x11000000C1080000#64 = .ok (.dlSetDelay 0xC1080000#32) ∧
    decode 0x1200000042F00000#64 = .ok (.dlSetDelayBpm 0x42F00000#32) ∧
    decode 0x130000003F000000#64 = .ok (.dlSetNotediv 0x3F000000#32) ∧
    decode 0x1400000000000001#64 = .ok (.dlSetInterp true) ∧
    decode 0x15FF00003F800000#64 = .ok (.dlPush 255#8 0x3F800000#32) ∧
    decode 0x1601000000000000#64 = .ok (.dlPop 1#8) ∧
    decode 0x170200003FC00000#64 = .ok (.dlStep 2#8 0x3FC00000#32) ∧
    decode 0x1801000000000007#64 = .ok (.dlPeek 1#8 7#32) := by decide

theorem test_decode_modulated_delay :
    decode 0x2000000000000003#64 = .ok (.mdSetMode .barberpole) ∧
    decode 0x2100000042480000#64 = .ok (.mdSetRate 0x42480000#32) ∧
    decode 0x22000000BF800000#64 = .ok (.mdSetDepth 0xBF800000#32) ∧
    decode 0x230000007F800000#64 = .ok (.mdSetBase 0x7F800000#32) ∧
    decode 0x2400000041200000#64 = .ok (.mdSetPredelayMs 0x41200000#32) ∧
    decode 0x2501000040A00000#64 = .ok (.mdStep 1#8 0x40A00000#32) := by decide

theorem test_decode_pitch_shift_and_nested_all_pass :
    decode 0x30000000C1C00000#64 = .ok (.psSetSemitones 0xC1C00000#32) ∧
    decode 0x3101000041100000#64 = .ok (.psStep 1#8 0x41100000#32) ∧
    decode 0x500000003F000000#64 = .ok (.napfSetG1 0x3F000000#32) ∧
    decode 0x510000003E800000#64 = .ok (.napfSetG2 0x3E800000#32) ∧
    decode 0x5201000040800000#64 = .ok (.napfStep 1#8 0x40800000#32) := by decide

theorem test_decode_biquad :
    decode 0x4000000000000007#64 = .ok (.bqSetType .apf) ∧
    decode 0x4100000000000002#64 = .ok (.bqSetForm .df2) ∧
    decode 0x4200000046BB8000#64 = .ok (.bqSetFreq 0x46BB8000#32) ∧
    decode 0x430000007FC00000#64 = .ok (.bqSetQ 0x7FC00000#32) ∧
    decode 0x4400000000000000#64 = .ok (.bqSetGain 0#32) ∧
    decode 0x4500000000000000#64 = .ok .bqUpdate ∧
    decode 0x4602000040E00000#64 = .ok (.bqStep 2#8 0x40E00000#32) := by decide

/-- A word decodes to a command. -/
def decodes (w : Word64) : Bool :=
  match decode w with
  | .ok _ => true
  | .error _ => false

/-- V-ER-3, V-LC-12, V-MD-15, V-BQ-19, V-BQ-20: an opcode of no row, `RSV`, a must-be-zero field, enumerations out of range, a
register number of no table, a global register on channel 2. -/
theorem test_illegal_words_are_not_decoded :
    [0x0400000000000000#64, 0x1900000000000000#64, 0xFF00000000000000#64, 0x0000000100000000#64, 0x0000000000000001#64,
      0x1400000000000002#64, 0x2000000000000004#64, 0x4000000000000008#64, 0x4100000000000003#64,
      0x0200080000000000#64, 0x0202030000000000#64].map decodes = List.replicate 11 false := by decide

/-- The host's reading of a table word: bit 0 of the number is bit 0 of the command word. -/
theorem test_table_word : decodeTableWord 64 0x170000003F800000 = some (.dlStep 0#8 0x3F800000#32) := by decide

/-! ## Small states -/

/-- Prepared and configured, two channels, eight slots, rate 48000.0; the coefficients of V-BQ-31. -/
def line : State :=
  { State.resetWith 2 16 with
    prepared := true, dlConf := true, bqValid := true, sr := 0x473B8000#32, nch := 2, cap := 8
    coef := { b0 := 0x3F000000#32, b1 := 0x3E800000#32, b2 := 0x3E000000#32
              a0 := 0x3F800000#32, a1 := 0xBF000000#32, a2 := 0x3E800000#32 } }

/-- The registers of channel 0 set, the rest of `line` kept. -/
def withChan (f : ChanRegs → ChanRegs) : State := { line with chans := [f ChanRegs.cleared, ChanRegs.cleared] }

/-- A state whose biquad frequency is +0.0, where the coefficient update is fixed by law L2 (V-BQ-1 to V-BQ-8). -/
def zeroHz : State := { line with bqF := 0#32 }

/-- The responses so far after a command. -/
def responses (i : Instr) (s : State) : List Word64 :=
  match exec i s with
  | .next t => t.rspOut
  | _ => []

/-- The state after a command. -/
def after (i : Instr) (s : State) : State :=
  match exec i s with
  | .next t => t
  | _ => s

/-! ## Lifecycle -/

/-- V-LC-2. -/
theorem test_nop : responses .nop line = [0x0000000000000000#64] := by decide

/-- V-LC-3, V-LC-7: a channel count of 0, an infinite rate. -/
theorem test_prepare_refuses : responses (.prepare 0#8 0x473B8000#32) line = [0x0100000100000000#64] ∧
    (after (.prepare 1#8 0x7F800000#32) line).prepared = false := by decide

/-- V-LC-15: at 64.0 Hz the filter parameters are not valid, and the block is prepared all the same. -/
theorem test_prepare : responses (.prepare 1#8 0x42800000#32) line = [0x0100000442800000#64] ∧
    (after (.prepare 1#8 0x42800000#32) line).nch = 1 ∧ (after (.prepare 1#8 0x42800000#32) line).dlConf = false := by
  decide

/-- V-LC-1. -/
theorem test_rdreg_global : responses (.rdreg 0#8 (.global .bqf)) State.reset = [0x02000000447A0000#64] ∧
    responses (.rdreg 0#8 (.global .bqform)) State.reset = [0x0200000000000001#64] := by decide

/-- V-LC-11: channel 2 with two channels. -/
theorem test_rdreg_channel : responses (.rdreg 2#8 (.channel .widx)) line = [0x0202000800000000#64] ∧
    responses (.rdreg 0#8 (.channel .widx)) (withChan fun r => { r with widx := 5 }) = [0x0200000000000005#64] := by
  decide

/-- V-LC-13. -/
theorem test_clrerr : responses .clrerr { line with errFlags := 0x302#32, errLast := 0x0209#32 } = [0x0300000000000302#64] ∧
    (after .clrerr { line with errFlags := 0x302#32, errLast := 0x0209#32 }).errLast = 0#32 := by decide

/-- The word of V-ER-3's kind: cause 9, `OPC` and `CH` copied; `ERRLAST` holds the opcode and the cause. -/
theorem test_illegal_word_is_answered :
    (match step { line with cmdIn := [0x0402000000000000#64] } with
      | .next t => (t.rspOut, t.errFlags, t.errLast)
      | _ => ([], 0#32, 0#32)) = ([0x0402000900000000#64], 0x200#32, 0x0409#32) := by decide

/-- V-ER-1: an illegal word under the opcode of `DL_STEP` answers `VAL` = 0, not its operand. -/
theorem test_illegal_step_word_answers_zero :
    (match step { line with cmdIn := [0x170500013FC00000#64] } with
      | .next t => t.rspOut
      | _ => []) = [0x1705000900000000#64] := by decide

/-! ## Delay line -/

/-- V-DL-6, V-DL-8: a channel mismatch and a negative capacity leave the line not configured. -/
theorem test_dlConfig_refuses : responses (.dlConfig 1#8 8#32) line = [0x1000000200000000#64] ∧
    responses (.dlConfig 2#8 0x80000000#32) line = [0x1000000100000000#64] ∧
    (after (.dlConfig 1#8 8#32) line).dlConf = false := by decide

/-- V-DL-10: the rows are filled, the pointers go to 0. -/
theorem test_dlConfig : responses (.dlConfig 2#8 4#32) line = [0x1000000000000004#64] ∧
    (after (.dlConfig 2#8 4#32) { line with mem := { cells := [(769, 7#32), (1025, 9#32)] } }).mem.cells = [(1025, 9#32)] ∧
    ((after (.dlConfig 2#8 4#32) (withChan fun r => { r with widx := 5 })).chan 0#8).widx = 0 := by decide

/-- V-DL-13, V-DL-14: -8.5 stays negative after one wrap, -8.0 becomes +0.0. -/
theorem test_dlSetDelay : responses (.dlSetDelay 0xC1080000#32) line = [0x1100000300000000#64] ∧
    responses (.dlSetDelay 0xC1000000#32) line = [0x1100000000000000#64] := by decide

/-- V-DL-12, V-DL-15, V-DL-16: the capacity itself is out of range, 7.5 is in range, -0.0 is kept. -/
theorem test_dlSetDelay_boundaries : responses (.dlSetDelay 0x41000000#32) line = [0x1100000300000000#64] ∧
    (after (.dlSetDelay 0x40F00000#32) line).dly = 0x40F00000#32 ∧
    (after (.dlSetDelay 0x80000000#32) line).dly = 0x80000000#32 := by decide

/-- V-DL-30, V-DL-33. -/
theorem test_dlSetDelayBpm : responses (.dlSetDelayBpm 0x42F00000#32) { line with cap := 48000 } = [0x1200000046BB8000#64] ∧
    responses (.dlSetDelayBpm 0x42B40000#32) { line with cap := 48000, noteDiv := 0x3F000000#32 } =
      [0x12000000467A0000#64] := by decide

/-- V-DL-38: a tempo of zero. -/
theorem test_dlSetDelayBpm_zero :
    responses (.dlSetDelayBpm 0#32) { line with cap := 48000, dly := 0x46A0B600#32 } = [0x1200000546A0B600#64] := by
  decide

/-- V-DL-31; an infinity is refused with the old value (41_delay_line.md R115). -/
theorem test_dlSetNotediv : responses (.dlSetNotediv 0x3F000000#32) line = [0x130000003F000000#64] ∧
    responses (.dlSetNotediv 0x7F800000#32) line = [0x130000053F800000#64] := by decide

/-- V-DL-21. -/
theorem test_dlSetInterp : responses (.dlSetInterp false) line = [0x1400000000000000#64] ∧
    (after (.dlSetInterp false) line).interp = false := by decide

/-- The example of 41_delay_line.md R118: the write at the last slot, then the pointer wraps. -/
theorem test_dlPush :
    (after (.dlPush 0#8 0x3F800000#32) (withChan fun r => { r with widx := 7 })).memRead 0#8 7 = 0x3F800000#32 ∧
    ((after (.dlPush 0#8 0x3F800000#32) (withChan fun r => { r with widx := 7 })).chan 0#8).widx = 0 := by decide

/-- The example of 41_delay_line.md R117: 17.5. -/
theorem test_dlPop :
    responses (.dlPop 0#8) { withChan (fun r => { r with widx := 3 }) with
      dly := 0x3FA00000#32
      mem := { cells := [(0, 0x41200000#32), (256, 0x41A00000#32), (512, 0x41F00000#32)] } } =
      [0x16000000418C0000#64] := by decide

/-- V-DL-20, V-DL-23: -0.0 loses its sign under interpolation; a NaN passes bit for bit without it. -/
theorem test_dlStep : responses (.dlStep 0#8 0x80000000#32) line = [0x1700000000000000#64] ∧
    responses (.dlStep 0#8 0x7FC00001#32) { line with interp := false } = [0x170000007FC00001#64] := by decide

/-- V-DL-11, V-DL-3: the identity pass of a failed check. -/
theorem test_dlStep_identity_pass : responses (.dlStep 2#8 0x3FC00000#32) line = [0x170200083FC00000#64] ∧
    responses (.dlStep 0#8 0x3FC00000#32) { line with dlConf := false } = [0x170000073FC00000#64] := by decide

/-- V-DL-18, V-DL-19. -/
theorem test_dlPeek : responses (.dlPeek 0#8 8#32) line = [0x1800000500000000#64] ∧
    responses (.dlPeek 1#8 7#32) { line with mem := { cells := [(1793, 0x40E00000#32)] } } = [0x1801000040E00000#64] := by
  decide

/-! ## Modulated delay -/

/-- V-MD-7: the rate is kept, the flanger's band is 0.1 to 5. -/
theorem test_mdSetMode : responses (.mdSetMode .flanger) { line with mdRate := 0x3F800000#32 } = [0x2000000040A00000#64] := by
  decide

/-- V-MD-4, V-MD-8. -/
theorem test_mdSetRate : responses (.mdSetRate 0x42480000#32) line = [0x2100000040A19999#64] ∧
    responses (.mdSetRate 0x42CA0000#32) { line with mdRateHz := 0x40A00000#32 } = [0x2100000540A00000#64] := by
  decide

/-- V-MD-10. -/
theorem test_mdSetDepth : responses (.mdSetDepth 0xBF800000#32) line = [0x22000000BF800000#64] := by decide

/-- V-MD-11. -/
theorem test_mdSetBase : responses (.mdSetBase 0x7F800000#32) line = [0x2300000500000000#64] ∧
    (after (.mdSetBase 0x3F800000#32) line).mdBase = 0x3F800000#32 := by decide

/-- V-MD-12, V-MD-14. -/
theorem test_mdSetPredelayMs : responses (.mdSetPredelayMs 0x41200000#32) line = [0x2400000043F00000#64] ∧
    responses (.mdSetPredelayMs 0xBF800000#32) line = [0x24000000C2400000#64] := by decide

/-- The state of the example of 42_mod_delay.md R149, with four samples pushed before. -/
def barber : State :=
  { withChan (fun r => { r with widx := 5, t := 0x3EC00000#32 }) with
    sr := 0x41000000#32, mdMode := .barberpole, mdRateHz := 0x3F800000#32, mdDepth := 0x40000000#32
    mdBase := 0x40400000#32
    mem := { cells := [(0, 0x3F800000#32), (256, 0x40000000#32), (512, 0x40400000#32), (768, 0x40800000#32)] } }

/-- The example of R149: delay 4.5, half of slot 1 (2.0) and half of slot 0 (1.0) once slot 5 is written; then T = 0.5. -/
theorem test_mdStep : responses (.mdStep 0#8 0x40A00000#32) barber = [0x250000003FC00000#64] ∧
    ((after (.mdStep 0#8 0x40A00000#32) barber).chan 0#8).t = 0x3F000000#32 := by decide

/-- A delay that is still out of range after one wrap: the push and the time stand (R149). -/
theorem test_mdStep_out_of_range :
    responses (.mdStep 0#8 0x40A00000#32) { barber with mdBase := 0x42C80000#32 } = [0x2500000340A00000#64] ∧
    ((after (.mdStep 0#8 0x40A00000#32) { barber with mdBase := 0x42C80000#32 }).chan 0#8) =
      { ChanRegs.cleared with widx := 6, t := 0x3F000000#32 } := by decide

/-! ## Pitch shift -/

/-- V-PS-2, V-PS-6. -/
theorem test_psSetSemitones : responses (.psSetSemitones 0x41400000#32) line = [0x30000000BF800000#64] ∧
    responses (.psSetSemitones 0x7F800000#32) { line with psRate := 0x3F400000#32 } = [0x300000053F400000#64] := by
  decide

/-- The example of 43_pitch_shift.md R165: 3.5, and the delay slews to 2.0. -/
theorem test_psStep :
    let s : State := { withChan (fun r => { r with widx := 4, psdly := 0x3FC00000#32 }) with
      psRate := 0x3F000000#32
      mem := { cells := [(0, 0x3F800000#32), (256, 0x40000000#32), (512, 0x40400000#32), (768, 0x40800000#32)] } }
    responses (.psStep 0#8 0x40A00000#32) s = [0x3100000040600000#64] ∧
      ((after (.psStep 0#8 0x40A00000#32) s).chan 0#8).psdly = 0x40000000#32 := by decide

/-- V-PS-12: -3.0 stays negative with two slots; the push stands. -/
theorem test_psStep_out_of_range :
    let s : State := { line with cap := 2, psRate := 0xC0400000#32 }
    responses (.psStep 0#8 0x3F800000#32) s = [0x310000033F800000#64] ∧
      ((after (.psStep 0#8 0x3F800000#32) s).chan 0#8).widx = 1 ∧
      (after (.psStep 0#8 0x3F800000#32) s).memRead 0#8 0 = 0x3F800000#32 := by decide

/-! ## Biquad -/

/-- The coefficients 1, -2, 1, 1, -2, 1 of V-BQ-4. -/
def notchAtZero : Coeffs :=
  { b0 := 0x3F800000#32, b1 := 0xC0000000#32, b2 := 0x3F800000#32
    a0 := 0x3F800000#32, a1 := 0xC0000000#32, a2 := 0x3F800000#32 }

/-- V-BQ-4, V-BQ-6 (in Direct Form I, the raw six 2, -4, 2, 2, -4, 2). -/
theorem test_bqSetType : (after (.bqSetType .notch) zeroHz).coef = notchAtZero ∧
    (after (.bqSetType .lowshelf) { zeroHz with bqForm := .df1 }).coef =
      { b0 := 0x40000000#32, b1 := 0xC0800000#32, b2 := 0x40000000#32
        a0 := 0x40000000#32, a1 := 0xC0800000#32, a2 := 0x40000000#32 } := by decide +kernel

/-- V-BQ-33: the memory is cleared also when the form does not change, and the delays of other engines stay. -/
theorem test_bqSetForm :
    (after (.bqSetForm .tdf2) { withChan (fun r => { r with r1 := c1, r2 := c1, pw1 := c1 }) with bqF := 0#32 }).chan 0#8 =
      { ChanRegs.cleared with pw1 := c1 } := by decide

/-- V-BQ-10, V-BQ-12: the parameter is stored, the coefficients keep the last valid set. -/
theorem test_bqSetFreq : responses (.bqSetFreq 0x46BB8000#32) line = [0x4200000400000000#64] ∧
    (after (.bqSetFreq 0x46BB8000#32) line).bqF = 0x46BB8000#32 ∧
    (after (.bqSetFreq 0xBF800000#32) line).coef = line.coef := by decide

/-- V-BQ-14. -/
theorem test_bqSetFreq_zero : responses (.bqSetFreq 0#32) line = [0x4200000000000001#64] := by decide

/-- V-BQ-16, V-BQ-18. -/
theorem test_bqSetQ : responses (.bqSetQ 0x7FC00000#32) { zeroHz with bqValid := false } = [0x4300000500000000#64] ∧
    responses (.bqSetQ 0x3F000000#32) zeroHz = [0x4300000000000001#64] := by decide

/-- V-BQ-21. -/
theorem test_bqSetGain : responses (.bqSetGain 0#32) zeroHz = [0x4400000000000001#64] := by decide

/-- V-BQ-17: Q = 0. -/
theorem test_bqUpdate : responses .bqUpdate { zeroHz with bqQ := 0#32 } = [0x4500000400000000#64] ∧
    (after .bqUpdate { zeroHz with bqQ := 0#32 }).bqValid = false := by decide

/-- V-BQ-31: step 1, and step 2 from the memory step 1 leaves (the example of 44_biquad.md R190). -/
theorem test_bqStep_tdf2 : responses (.bqStep 0#8 0x3F800000#32) line = [0x460000003F000000#64] ∧
    (after (.bqStep 0#8 0x3F800000#32) line).chan 0#8 = { ChanRegs.cleared with r1 := 0x3F000000#32 } ∧
    responses (.bqStep 0#8 0#32) (withChan fun r => { r with r1 := 0x3F000000#32 }) = [0x460000003F000000#64] := by
  decide

/-- V-BQ-30 and V-BQ-32: steps 1 and 2 in the other two forms, from the memory step 1 leaves. -/
theorem test_bqStep_df1_df2 :
    responses (.bqStep 0#8 0#32) { withChan (fun r => { r with x1 := c1, y1 := 0x3F000000#32 }) with
      bqForm := .df1
      coef := { b0 := 0x3F800000#32, b1 := 0x3F000000#32, b2 := 0x3E800000#32
                a0 := 0x40000000#32, a1 := 0xBF800000#32, a2 := 0x3F000000#32 } } = [0x460000003F000000#64] ∧
    responses (.bqStep 0#8 0#32) { withChan (fun r => { r with w1 := c1 }) with bqForm := .df2 } =
      [0x460000003F000000#64] ∧
    (after (.bqStep 0#8 0x3F800000#32) { line with bqForm := .df2 }).chan 0#8 = { ChanRegs.cleared with w1 := c1 } := by
  decide

/-! ## Nested all-pass -/

/-- 45_nested_apf.md R211, R212: the value is stored; a NaN is refused with the old value. -/
theorem test_napfSetters : responses (.napfSetG1 0x3F000000#32) line = [0x500000003F000000#64] ∧
    (after (.napfSetG1 0x3F000000#32) line).g1 = 0x3F000000#32 ∧
    responses (.napfSetG2 0x7FC00000#32) { line with g2 := 0x3E800000#32 } = [0x510000053E800000#64] ∧
    (after (.napfSetG2 0x3F000000#32) line).g2 = 0x3F000000#32 := by decide

/-- V-NA-3: from `PW1` = 0, `PW2` = 1, `PV` = 1 to -0.5, +0.0, -0.25. -/
theorem test_napfStep :
    let s : State := { withChan (fun r => { r with pw2 := c1, pv := c1 }) with g1 := 0x3F000000#32, g2 := 0x3E800000#32 }
    responses (.napfStep 0#8 0#32) s = [0x520000003E800000#64] ∧
      (after (.napfStep 0#8 0#32) s).chan 0#8 = { ChanRegs.cleared with pw1 := 0xBF000000#32, pv := 0xBE800000#32 } := by
  decide

/-! ## Witnesses: for each statement with hypotheses, values that meet them together, at the edges of their ranges -/

/-- Any NaN pattern makes a source of NaN patterns. -/
theorem witness_nanSource : NanSource fun _ => 0x7FC00000#32 :=
  fun _ => (by decide : isNaN 0x7FC00000#32 = true)

theorem line_ready (ch : BitVec 8) (h : ch.toNat < 2) : line.LineReady ch :=
  ⟨⟨rfl, h, ⟨by decide, by decide⟩⟩, rfl, by decide⟩

theorem line_params : line.ParamsOk := ⟨by decide, by decide, by decide, by decide⟩

theorem line_lineOk : line.LineOk := by
  refine ⟨fun _ => by decide, fun _ ch h => ?_, fun _ => by decide, fun h => by cases h⟩
  have h2 : ch.toNat < 2 := h
  have hc : line.chan ch = ChanRegs.cleared := by
    have : ch.toNat = 0 ∨ ch.toNat = 1 := by omega
    rcases this with e | e <;> simp only [State.chan, e] <;> rfl
  rw [hc]
  decide

theorem line_pitchOk : line.PitchOk := by
  intro _ ch h
  have h2 : ch.toNat < 2 := h
  have hc : line.chan ch = ChanRegs.cleared := by
    have : ch.toNat = 0 ∨ ch.toNat = 1 := by omega
    rcases this with e | e <;> simp only [State.chan, e] <;> rfl
  rw [hc]
  decide

/-- RegisterAndEnumerationNumbers: 0x08 is the number of no register. -/
theorem witness_RegisterAndEnumerationNumbers : RegName.ofNumber 0x08#8 = none := by decide

/-- DecodeOfEncode. -/
theorem witness_DecodeOfEncode : (Instr.rdreg 0#8 (.global .sr)).wellFormed = true := by decide

/-- EncodeOfDecode, StepRunsDecoded, EveryWordAnswered, LegalWords: a word that waits, decodes, and matches its row. -/
theorem witness_decoded_word : decode 0x1601000000000000#64 = .ok (.dlPop 1#8) ∧
    ({ line with cmdIn := [0x1601000000000000#64] } : State).cmdIn = 0x1601000000000000#64 :: [] ∧
    (∃ r ∈ tableRows, r.matches 0x1601000000000000#64 = true) ∧ line.cmdIn = [] := by decide

/-- IllegalWordAnswered: a word of no row, and a word that matches a row and is illegal beyond the masks. -/
theorem witness_IllegalWordAnswered : (∀ r ∈ tableRows, r.matches 0xFF00000000000000#64 = false) ∧
    illegalBeyondMasks 0x4100000000000003#64 = true ∧ illegalBeyondMasks 0x0202030000000000#64 = true := by decide

/-- QueueUnobserved, RegisterOwners: a command that answers a next state and changes a register. -/
theorem witness_exec_next : ∃ t, exec (.dlSetInterp false) line = .next t ∧ t.interp ≠ line.interp :=
  ⟨_, rfl, by decide⟩

/-- NotPrepared. -/
theorem witness_NotPrepared : State.reset.prepared = false ∧ Instr.bqUpdate ≠ .nop ∧ Instr.bqUpdate ≠ .clrerr ∧
    (∀ n rate, Instr.bqUpdate ≠ .prepare n rate) ∧ ∀ ch reg, Instr.bqUpdate ≠ .rdreg ch reg :=
  ⟨rfl, by decide, by decide, fun _ _ h => (by cases h), fun _ _ h => (by cases h)⟩

/-- NotConfigured: the first and the last of its eight commands. -/
theorem witness_NotConfigured :
    ({ line with dlConf := false } : State).prepared = true ∧ ({ line with dlConf := false } : State).dlConf = false ∧
    (Instr.dlSetDelay 0#32).opcode ∈ [0x11#8, 0x12#8, 0x15#8, 0x16#8, 0x17#8, 0x18#8, 0x25#8, 0x31#8] ∧
    (Instr.psStep 0#8 0#32).opcode ∈ [0x11#8, 0x12#8, 0x15#8, 0x16#8, 0x17#8, 0x18#8, 0x25#8, 0x31#8] := by decide

/-- BadChannel: channel 2 of two channels; channel 0 before `PREPARE`. -/
theorem witness_BadChannel : (Instr.dlPop 2#8).hasChannel = true ∧ line.prepared = true ∧ line.dlConf = true ∧
    line.nch ≤ (Instr.dlPop 2#8).channel.toNat ∧ (Instr.rdreg 0#8 (.channel .widx)).hasChannel = true ∧
    (Instr.rdreg 0#8 (.channel .widx)).needsPrepare = false ∧
    State.reset.nch ≤ (Instr.rdreg 0#8 (.channel .widx)).channel.toNat := by decide

/-- IdentityPass: a command with a sample, and a word that is not decoded. -/
theorem witness_IdentityPass : (Instr.napfStep 0#8 c1).sample = some c1 ∧
    decode 0xFF00000000000000#64 = .error (.unassignedOpcode) := by decide

/-- The statements whose hypothesis is that the block is prepared (with the line configured and channel 1 in range). -/
theorem witness_prepared : line.prepared = true ∧ line.dlConf = true ∧ (1#8).toNat < line.nch := by decide

/-- DlPop: a delay that is finite, with interpolation and without. -/
theorem witness_DlPop : fisfinite line.dly = true ∧ line.interp = true ∧
    fisfinite ({ line with interp := false } : State).dly = true := by decide

/-- DlConfig: capacity 0 and 17 are refused, 1 and 16 pass, the channel count 1 mismatches, 2 matches. -/
theorem witness_DlConfig : (0#32).toInt ≤ 0 ∧ (line.capMax : Int) < (17#32).toInt ∧
    (0 < (1#32).toInt ∧ (1#32).toInt ≤ (line.capMax : Int)) ∧ (0 < (16#32).toInt ∧ (16#32).toInt ≤ (line.capMax : Int)) ∧
    (1#8).toNat ≠ line.nch ∧ (2#8).toNat = line.nch := by decide

/-- DlPush, DlStep, MdStep, PsStep, NapfStep and the biquad steps: both channels. -/
theorem witness_lineReady : line.LineReady 0#8 ∧ line.LineReady 1#8 := ⟨line_ready _ (by decide), line_ready _ (by decide)⟩

/-- DelaySplit: -0.0, and 2^24, which is within the bound on the integer part and beyond 2^23. -/
theorem witness_DelaySplit : (fisfinite 0x80000000#32 = true ∧ fle c0 0x80000000#32 = true) ∧
    (fisfinite 0x4B800000#32 = true ∧ fle c0 0x4B800000#32 = true ∧ units 0x4B800000#32 ≤ 2 ^ 24 * 2 ^ 149 ∧
      2 ^ 23 * 2 ^ 149 ≤ units 0x4B800000#32) := by decide

/-- FractionalRead: the delays -0.0 and 7.5 of eight slots. -/
theorem witness_FractionalRead : 1 ≤ line.cap ∧ line.cap ≤ 2 ^ 24 ∧
    (fisfinite 0x80000000#32 = true ∧ fle c0 0x80000000#32 = true ∧ flt 0x80000000#32 (i2f line.cap) = true) ∧
    (fisfinite 0x40F00000#32 = true ∧ fle c0 0x40F00000#32 = true ∧ flt 0x40F00000#32 (i2f line.cap) = true) := by
  decide

/-- InterpolationBounds, its first clauses: two finite samples; an infinity as the second. -/
theorem witness_WholeDelayInterpolation : fisfinite c1 = true ∧ fisfinite c0 = true ∧ fisfinite 0x7F800000#32 = false := by
  decide

/-- InterpolationBounds, its last clauses: the fractions -0.0 and 1.0, and the example of 41_delay_line.md R117, where fr = 0.25
lies between 20.0 and 10.0 and the four operations are exact: 0.75 * 20 + 0.25 * 10 = 17.5. -/
theorem witness_InterpolationBounds :
    let nan : Nat → F32 := fun _ => 0x7FC00000#32
    (fisfinite 0x80000000#32 = true ∧ fle c0 0x80000000#32 = true ∧ fle 0x80000000#32 c1 = true) ∧
    (fisfinite c1 = true ∧ fle c0 c1 = true ∧ fle c1 c1 = true) ∧
    (fisfinite 0x3E800000#32 = true ∧ fle c0 0x3E800000#32 = true ∧ fle 0x3E800000#32 c1 = true) ∧
    (fisfinite 0x41A00000#32 = true ∧ fisfinite 0x41200000#32 = true ∧
      fisfinite (interpolate nan 0x3E800000#32 0x41A00000#32 0x41200000#32) = true) ∧
    (|value 0x41A00000#32| ≤ 2 ^ 127 ∧ |value 0x41200000#32| ≤ 2 ^ 127) ∧
    value (fsub (nan 2) 0x3F800000#32 0x3E800000#32) = 1 - value 0x3E800000#32 ∧
    value (fmul (nan 3) 0x3F400000#32 0x41A00000#32) = value 0x3F400000#32 * value 0x41A00000#32 ∧
    value (fmul (nan 4) 0x3E800000#32 0x41200000#32) = value 0x3E800000#32 * value 0x41200000#32 ∧
    value (fadd (nan 5) 0x41700000#32 0x40200000#32) = value 0x41700000#32 + value 0x40200000#32 ∧
    interpolate nan 0x3E800000#32 0x41A00000#32 0x41200000#32 = 0x418C0000#32 := by
  intro nan
  have o1 : fsub (nan 2) 0x3F800000#32 0x3E800000#32 = 0x3F400000#32 := by decide
  have o2 : fmul (nan 3) 0x3F400000#32 0x41A00000#32 = 0x41700000#32 := by decide
  have o3 : fmul (nan 4) 0x3E800000#32 0x41200000#32 = 0x40200000#32 := by decide
  have o4 : fadd (nan 5) 0x41700000#32 0x40200000#32 = 0x418C0000#32 := by decide
  have u : signedUnits 0x3E800000#32 = 2 ^ 147 ∧ signedUnits 0x3F400000#32 = 3 * 2 ^ 147 ∧
      signedUnits 0x41A00000#32 = 20 * 2 ^ 149 ∧ signedUnits 0x41200000#32 = 10 * 2 ^ 149 ∧
      signedUnits 0x41700000#32 = 15 * 2 ^ 149 ∧ signedUnits 0x40200000#32 = 5 * 2 ^ 148 ∧
      signedUnits 0x418C0000#32 = 35 * 2 ^ 148 := by decide
  obtain ⟨u1, u2, u3, u4, u5, u6, u7⟩ := u
  refine ⟨by decide, by decide, by decide, by decide, ?_, ?_, ?_, ?_, ?_, by decide⟩
  · simp only [value, u3, u4]; norm_num
  · simp only [o1, value, u1, u2]; norm_num
  · simp only [o2, value, u2, u3, u5]; norm_num
  · simp only [o3, value, u1, u4, u6]; norm_num
  · simp only [o4, value, u5, u6, u7]; norm_num

/-- A push on channel 1, then a pop, a setter, an illegal word, a step on channel 0, and a step of each kind that pushes. -/
def mixedWords : List Word64 :=
  [0x150100003F800000#64, 0x1601000000000000#64, 0x1400000000000001#64, 0x1001000000000001#64, 0x1700000040000000#64,
    0x1701000040400000#64, 0x2501000040800000#64, 0x3101000040A00000#64]

/-- A word is a `DL_CONFIG`. -/
def isDlConfig (w : Word64) : Bool :=
  match decode w with
  | .ok (.dlConfig ..) => true
  | _ => false

/-- WrapAround: `DL_CONFIG` with the least capacity, and after it the words above. -/
theorem witness_WrapAround : line.ShapeOk ∧ line.mem.wf = true ∧ (2#8).toNat = line.nch ∧ (1#8).toNat < line.nch ∧
    0 < (1#32).toInt ∧ (1#32).toInt ≤ (line.capMax : Int) ∧ (∀ w ∈ mixedWords, ∀ m c, decode w ≠ .ok (.dlConfig m c)) ∧
    mixedWords.filterMap (pushedSample 1#8) = [0x3F800000#32, 0x40400000#32, 0x40800000#32, 0x40A00000#32] := by
  refine ⟨⟨by decide, by decide⟩, by decide, by decide, by decide, by decide, by decide, fun w hw m c hd => ?_, by decide⟩
  have h := List.all_eq_true.mp (by decide : mixedWords.all (fun w => !isDlConfig w) = true) w hw
  simp [isDlConfig, hd] at h

/-- WholeDelayStream: a configured line without interpolation whose row is zero. -/
theorem witness_WholeDelayStream : ∃ s : State, s.LineReady 0#8 ∧ s.LineOk ∧ s.ParamsOk ∧ s.interp = false ∧
    ∀ i, i < s.cap → s.memRead 0#8 i = 0x00000000#32 :=
  ⟨{ line with interp := false },
    ⟨⟨rfl, by decide, ⟨by decide, by decide⟩⟩, rfl, by decide⟩,
    ⟨line_lineOk.1, line_lineOk.2, line_lineOk.3, line_lineOk.4⟩, ⟨by decide, by decide, by decide, by decide⟩, rfl,
    fun _ _ => rfl⟩

/-- Shapes: the rates +0.0 and 10.0. -/
theorem witness_Shapes :
    (signBit c0 = false ∧ fle c0 c0 = true ∧ fle c0 0x41200000#32 = true) ∧
    (signBit 0x41200000#32 = false ∧ fle c0 0x41200000#32 = true ∧ fle 0x41200000#32 0x41200000#32 = true) := by
  decide

/-- WholeOctaves: the line is configured, its capacity is in range, and the four pairs are the list's own. -/
theorem witness_WholeOctaves : line.prepared = true ∧ line.dlConf = true ∧ 1 ≤ line.cap ∧ line.cap ≤ 2 ^ 24 ∧
    (0x80000000#32, 0x00000000#32) ∈ [(0x00000000#32, 0x00000000#32), (0x80000000#32, 0x00000000#32),
      (0x41400000#32, 0xBF800000#32), (0xC1400000#32, (0x3F000000#32 : F32))] := by decide

/-- InitialPitchDelay: 0.5, -0.5, -1.0, the least magnitude below zero, and -1.5 and -3.0, beyond one octave. -/
theorem witness_InitialPitchDelay : (fisfinite 0x3F000000#32 = true ∧ flt 0x3F000000#32 c0 = false) ∧
    (fisfinite 0xBF000000#32 = true ∧ flt 0xBF800000#32 0xBF000000#32 = true ∧ flt 0xBF000000#32 c0 = true) ∧
    (fisfinite 0x80000001#32 = true ∧ flt 0xBF800000#32 0x80000001#32 = true ∧ flt 0x80000001#32 c0 = true) ∧
    fisfinite 0xBF800000#32 = true ∧ (fisfinite 0xBFC00000#32 = true ∧ flt 0xBFC00000#32 c0 = true) ∧
    (fisfinite 0xC0400000#32 = true ∧ flt 0xC0400000#32 0xBF800000#32 = true) := by decide

/-- 43_pitch_shift.md R163 by hand: the rate -1.5 leaves half of eight slots, -3.0 none. -/
theorem test_psInit_beyond_an_octave : psInit (fun _ => 0x7FC00000#32) 0xBFC00000#32 8 = 0x40800000#32 ∧
    psInit (fun _ => 0x7FC00000#32) 0xC0400000#32 8 = 0x00000000#32 := by decide

/-- SampleCount, besides `line_ready`. -/
theorem witness_SampleCount : (line.chan 0#8).widx < line.cap := by decide

/-- CoefficientUpdate: parameters with which the update succeeds, and with which it does not. -/
theorem witness_CoefficientUpdate : zeroHz.updateSucceeds = true ∧
    ({ zeroHz with bqQ := 0#32 } : State).updateSucceeds = false := by decide

/-- ZeroFrequencyAndResponses, its first clause. -/
theorem witness_ZeroFrequency : zeroHz.bqF = c0 ∧ fisfinite zeroHz.bqQ = true ∧ flt c0 zeroHz.bqQ = true ∧
    fisfinite zeroHz.sr = true ∧ flt c0 zeroHz.sr = true ∧ zeroHz.bqType ≠ .peak ∧ zeroHz.bqType ≠ .lowshelf ∧
    zeroHz.bqType ≠ .highshelf := by decide

/-- Direct Form I coefficients of a type for cs = +0.0 and alpha = 0.5. -/
def quarterRate (type : BqType) : Coeffs :=
  storedCoeffs (fun _ => 0x7FC00000#32) .df1 (rawCoeffs (fun _ => 0x7FC00000#32) type c0 cHalf c0)

theorem quarterRate_patterns :
    quarterRate .lpf = { b0 := cHalf, b1 := c1, b2 := cHalf, a0 := 0x3FC00000#32, a1 := 0x80000000#32, a2 := cHalf } ∧
    quarterRate .hpf = { b0 := cHalf, b1 := 0xBF800000#32, b2 := cHalf
                         a0 := 0x3FC00000#32, a1 := 0x80000000#32, a2 := cHalf } ∧
    quarterRate .apf = { b0 := cHalf, b1 := 0x80000000#32, b2 := 0x3FC00000#32
                         a0 := 0x3FC00000#32, a1 := 0x80000000#32, a2 := cHalf } := by decide

theorem signedUnits_patterns : signedUnits cHalf = 2 ^ 148 ∧ signedUnits c1 = 2 ^ 149 ∧
    signedUnits 0xBF800000#32 = -2 ^ 149 ∧ signedUnits 0x3FC00000#32 = 3 * 2 ^ 148 ∧ signedUnits 0x80000000#32 = 0 := by
  decide

/-- ZeroFrequencyAndResponses, its second clause: the edges of cs and alpha, and steady inputs of each kind. -/
theorem witness_Responses :
    (lawL4 0xBF800000#32 = true ∧ lawL4 c1 = true ∧ lawL4 c0 = true) ∧
    ((fisfinite 0x80000000#32 = true ∧ fle c0 0x80000000#32 = true) ∧ (fisfinite cHalf = true ∧ fle c0 cHalf = true) ∧
      (fisfinite 0x4B800000#32 = true ∧ fle c0 0x4B800000#32 = true)) ∧
    (quarterRate .lpf).Steady 1 1 1 ∧ (quarterRate .lpf).Steady (-1) 1 0 ∧
    (quarterRate .hpf).Steady (-1) 1 1 ∧ (quarterRate .hpf).Steady 1 1 0 ∧
    ((value (quarterRate .apf).a0 * (1 : ℂ) ^ 2 + value (quarterRate .apf).a1 * 1 + value (quarterRate .apf).a2 ≠ 0) ∧
      (quarterRate .apf).Steady 1 1 1) := by
  obtain ⟨hl, hh, ha⟩ := quarterRate_patterns
  obtain ⟨v1, v2, v3, v4, v5⟩ := signedUnits_patterns
  rw [hl, hh, ha]
  refine ⟨by decide, by decide, ?_, ?_, ?_, ?_, ?_, ?_⟩ <;>
    simp only [Coeffs.steady_zeroHz, Coeffs.steady_nyquist, Coeffs.denominator, Coeffs.numerator, value, v1, v2, v3, v4,
      v5] <;> norm_num

/-- BqStepDf1, BqStepTdf2, BqStepDf2, BqBypass: each form, and an invalid filter. -/
theorem witness_bqStep : (∀ f : BqForm, ({ line with bqForm := f } : State).ChannelReady 0#8 ∧
    ({ line with bqForm := f } : State).bqValid = true) ∧ ({ line with bqValid := false } : State).bqValid = false :=
  ⟨fun f => by cases f <;> exact ⟨⟨rfl, by decide, ⟨by decide, by decide⟩⟩, rfl⟩, rfl⟩

/-- NapfStep, its second clause. -/
theorem witness_NapfStep : fisfinite 0x3F000000#32 = true ∧ fisfinite 0x80000000#32 = true := by decide

/-- ChannelsIndependent: two states that differ in channel 1 and its row, a command on channel 0. -/
theorem witness_ChannelsIndependent : ∃ s s' : State, s ≠ s' ∧ (Instr.dlPop 0#8).hasChannel = true ∧ s.ShapeOk ∧
    s'.ShapeOk ∧ s.mem.wf = true ∧ s'.mem.wf = true ∧ s.besideRamAndChans = s'.besideRamAndChans ∧
    s.chan 0#8 = s'.chan 0#8 ∧ ∀ k, s.memRead 0#8 k = s'.memRead 0#8 k :=
  ⟨line, { line with
      chans := [ChanRegs.cleared, { ChanRegs.cleared with widx := 3 }], mem := { cells := [(1, 0x3F800000#32)] } },
    by decide, rfl, ⟨by decide, by decide⟩, ⟨by decide, by decide⟩, by decide, by decide, rfl, rfl, fun k => by
      have h : (1 : Nat) ≠ k * 256 := by omega
      simp [State.memRead, Memory.read, ramAddress, readCells, line, State.resetWith, h]⟩

/-- UnwrittenRamUnobserved: two states that differ in a word of the RAM alone. -/
theorem witness_UnwrittenRamUnobserved : ∃ s s' : State, s ≠ s' ∧ s.dlConf = false ∧ s.mem.wf = true ∧
    s'.mem.wf = true ∧ s' = { s with mem := s'.mem } :=
  ⟨State.reset, { State.reset with mem := { cells := [(5, 0x3F800000#32)] } }, by decide, rfl, by decide, by decide, rfl⟩

/-- The state of `zeroHz` with the coefficients its update computes (V-BQ-1), some error recorded, and a `DL_POP` waiting. -/
def updated : State :=
  { zeroHz with
    cmdIn := [0x1601000000000000#64], errFlags := 0x200#32, errLast := 0x0409#32
    coef := { b0 := c0, b1 := c0, b2 := c0, a0 := c1, a1 := cNeg2, a2 := c1 } }

/-- The coefficients the update computes at +0.0 Hz, with any NaN pattern for an operation that returns one. -/
theorem updated_newCoeffs (nan : Nat → F32) : updated.newCoeffs nan = updated.coef := by
  have hw : bqW0 nan updated.bqF updated.sr = c0 := by
    rw [bqW0, fmul_of_finite (a := c2) _ (by decide) (by decide), fmul_of_finite _ (by decide) (by decide),
      fdiv_of_finite _ (by decide) (by decide) (by decide)]
    decide
  have hq (n : F32) : fmul n c2 0x3F34FDF4#32 = 0x3FB4FDF4#32 := by rw [fmul_of_finite _ (by decide) (by decide)]; decide
  have ha (n : F32) : fdiv n c0 0x3FB4FDF4#32 = c0 := by rw [fdiv_of_finite _ (by decide) (by decide) (by decide)]; decide
  have h1 (n : F32) : fsub n c1 c1 = c0 := by rw [fsub_of_finite _ (by decide) (by decide)]; decide
  have h2 (n : F32) : fdiv n c0 c2 = c0 := by rw [fdiv_of_finite _ (by decide) (by decide) (by decide)]; decide
  have h3 (n : F32) : fadd n c1 c0 = c1 := by rw [fadd_of_finite _ (by decide) (by decide)]; decide
  have h4 (n : F32) : fmul n cNeg2 c1 = cNeg2 := by rw [fmul_of_finite _ (by decide) (by decide)]; decide
  have h5 (n : F32) : fsub n c1 c0 = c1 := by rw [fsub_of_finite _ (by decide) (by decide)]; decide
  have h6 (n : F32) : fdiv n c0 c1 = c0 := by rw [fdiv_of_finite _ (by decide) (by decide) (by decide)]; decide
  have h7 (n : F32) : fdiv n cNeg2 c1 = cNeg2 := by rw [fdiv_of_finite _ (by decide) (by decide) (by decide)]; decide
  have h8 (n : F32) : fdiv n c1 c1 = c1 := by rw [fdiv_of_finite _ (by decide) (by decide) (by decide)]; decide
  have hform : updated.bqForm = .tdf2 := rfl
  have htype : updated.bqType = .lpf := rfl
  have hQ : updated.bqQ = 0x3F34FDF4#32 := rfl
  simp only [State.newCoeffs, hw, fsin_zero, fcos_zero (show isZero c0 = true from rfl), hform, htype, hQ, bqAlpha,
    storedCoeffs, rawCoeffs, rawLpf, withPlainDenominator, hq, ha, h1, h2, h3, h4, h5, h6, h7, h8]
  rfl

/-- StepKeepsInvariants: a configured line, valid coefficients, a command that waits. -/
theorem witness_StepKeepsInvariants : ∃ s : State, s.Inv ∧ s.dlConf = true ∧ s.bqValid = true ∧ s.cmdIn ≠ [] := by
  refine ⟨updated, ⟨⟨by decide, by decide, by decide, by decide⟩, ⟨by decide, by decide⟩, by decide,
    ⟨by decide, by decide, by decide⟩, ⟨line_lineOk.1, line_lineOk.2, line_lineOk.3, line_lineOk.4⟩, line_pitchOk,
    fun _ => ⟨rfl, rfl, 0, (updated_newCoeffs _).symm⟩,
    ⟨by decide, by decide, by decide, by decide, by decide, by decide, by decide, by decide, by decide, by decide,
      by decide⟩, ⟨by decide, by decide, by decide, by decide, by decide, by decide⟩⟩, rfl, rfl, by decide⟩

/-- ResetHasInvariants: the least and the largest parameters. -/
theorem witness_ResetHasInvariants : (1 ≤ 1 ∧ 1 ≤ 255) ∧ (1 ≤ 255 ∧ 255 ≤ 255) ∧ (1 ≤ 2 ^ 24 ∧ 2 ^ 24 ≤ 2 ^ 24) := by decide

end Sys2Proof.Tests
end

section
/-!
One step is one command (00_scope.md R12), read off `step_cases`.
-/
namespace Sys2Proof.Machine

/-- A step with a legal word waiting performs its command. -/
theorem step_of_decode {s : State} {w : Word64} {rest : List Word64} {i : Instr} (hc : s.cmdIn = w :: rest)
    (hd : decode w = .ok i) : step s = exec i { s with cmdIn := rest } := by
  rcases step_cases s with ⟨hc', -⟩ | ⟨w', rest', i', hc', hd', hs⟩ | ⟨w', rest', e, hc', hd', -⟩
  · cases hc.symm.trans hc'
  · cases hc.symm.trans hc'
    cases hd.symm.trans hd'
    exact hs
  · cases hc.symm.trans hc'
    cases hd.symm.trans hd'

/-- The idle block holds all state (60_exceptions.md R241). -/
theorem step_of_idle {s : State} (hc : s.cmdIn = []) : step s = .next s := by
  rcases step_cases s with ⟨-, hs⟩ | ⟨w, rest, i, hc', -, -⟩ | ⟨w, rest, e, hc', -, -⟩
  · exact hs
  · cases hc.symm.trans hc'
  · cases hc.symm.trans hc'

/-- The word sent waits first, whole: its 64 bits survive the way through the natural numbers. -/
theorem State.withFetchWord_cmdIn (s : State) (w : Word64) : (s.withFetchWord 64 w.toNat).cmdIn = w :: s.cmdIn := by
  have hw : BitVec.ofNat 64 (w.toNat % 2 ^ 64) = w := by
    rw [Nat.mod_eq_of_lt w.isLt, BitVec.ofNat_toNat, BitVec.setWidth_eq]
  exact congrArg (· :: s.cmdIn) hw

/-- Taking the word again gives back the state it was sent to. -/
theorem State.withFetchWord_taken (s : State) (nbits w : Nat) :
    { s.withFetchWord nbits w with cmdIn := s.cmdIn } = s := rfl

end Sys2Proof.Machine

namespace Sys2Proof
open Machine

/-- Settles O6, from the three cases of a step. -/
theorem stepRunsDecoded : Obligations.StepRunsDecoded := by
  refine ⟨fun s w rest i hc hd => step_of_decode hc hd, fun s w i hd => ?_, fun s hc => step_of_idle hc⟩
  rw [step_of_decode (s.withFetchWord_cmdIn w) hd, s.withFetchWord_taken]

end Sys2Proof
end

section
/-!
What a command writes: one inversion lemma for `exec`, for claims about one run of one command.
-/
namespace Sys2Proof.Machine

/-! ## Reads of a channel after a write, with or without registers for it -/

/-- A write of one channel's registers is read on that channel alone, and on none when the channel has no registers. -/
theorem State.chan_setChan_cases (s : State) (ch : BitVec 8) (r : ChanRegs) (ch' : BitVec 8) :
    (ch' = ch ∧ (s.setChan ch r).chan ch' = r) ∨ (s.setChan ch r).chan ch' = s.chan ch' := by
  by_cases hc : ch' = ch
  · subst hc
    by_cases hl : ch'.toNat < s.chans.length
    · exact .inl ⟨rfl, s.chan_setChan_same ch' r hl⟩
    · exact .inr (by simp [State.chan, List.set_eq_of_length_le (Nat.le_of_not_lt hl)])
  · exact .inr (s.chan_setChan_other r hc)

/-- A map over the registers of every channel, read back. -/
theorem State.getD_map_chans_cases (s : State) (f : ChanRegs → ChanRegs) (ch : BitVec 8) :
    (s.chans.map f).getD ch.toNat ChanRegs.cleared = f (s.chan ch) ∨
      (s.chans.map f).getD ch.toNat ChanRegs.cleared = s.chan ch := by
  by_cases hl : ch.toNat < s.chans.length
  · exact .inl (s.getD_map_chans ch f hl)
  · exact .inr (by simp [State.chan, List.getD, Nat.le_of_not_lt hl])

/-! ## The writes of a command -/

/-- `Writes s i u`: from `s` the command `i` can leave the registers and the RAM as `u` before it ends by `finish`, with
the checks that have passed by then. -/
inductive Writes (s : State) : Instr → State → Prop
  | nothing (i : Instr) : Writes s i s
  | clrerr : Writes s .clrerr { s with errFlags := 0#32, errLast := 0#32 }
  | prepareRefused (n : BitVec 8) (rate : F32) :
      Writes s (.prepare n rate) { s with prepared := false, dlConf := false, cap := 0, bqValid := false }
  | prepared (n : BitVec 8) (rate : F32) (accepted : s.prepareRefuses n rate = false) :
      Writes s (.prepare n rate) (s.prepareWrites n rate).updateCoefficients
  | dlUnconfigured (n : BitVec 8) (capacity : BitVec 32) : Writes s (.dlConfig n capacity) s.unconfigureLine
  | dlConfigured (n : BitVec 8) (capacity : BitVec 32) (pos : 1 ≤ (operandS capacity).toNat)
      (le : (operandS capacity).toNat ≤ s.capMax) :
      Writes s (.dlConfig n capacity) (s.configureLine (operandS capacity).toNat)
  | dlSetDelay (samples d : F32) (range : delayInRange d s.capF = true) :
      Writes s (.dlSetDelay samples) { s with dly := d }
  | dlSetDelayBpm (bpm d : F32) (range : delayInRange d s.capF = true) :
      Writes s (.dlSetDelayBpm bpm) { s with dly := d }
  | dlSetNotediv (v : F32) (finite : fisfinite v = true) : Writes s (.dlSetNotediv v) { s with noteDiv := v }
  | dlSetInterp (v : Bool) : Writes s (.dlSetInterp v) { s with interp := v }
  | dlPush (ch : BitVec 8) (x : F32) : Writes s (.dlPush ch x) (s.push ch x)
  | dlStep (ch : BitVec 8) (x : F32) : Writes s (.dlStep ch x) (s.push ch x)
  | mdSetMode (m : MdMode) :
      Writes s (.mdSetMode m) { s with mdMode := m, mdRateHz := rateHz s.nan m s.mdRate }
  | mdSetRate (percent : F32) (ok : percentOk percent = true) :
      Writes s (.mdSetRate percent) { s with
        mdRate := fdiv (s.nan 3) percent c100
        mdRateHz := rateHz s.nan s.mdMode (fdiv (s.nan 3) percent c100) }
  | mdSetDepth (samples : F32) (finite : fisfinite samples = true) :
      Writes s (.mdSetDepth samples) { s with mdDepth := samples }
  | mdSetBase (samples : F32) (finite : fisfinite samples = true) :
      Writes s (.mdSetBase samples) { s with mdBase := samples }
  | mdSetPredelayMs (ms : F32) (finite : fisfinite (s.predelay ms) = true) :
      Writes s (.mdSetPredelayMs ms) { s with mdBase := s.predelay ms }
  | mdStep (ch : BitVec 8) (x : F32) : Writes s (.mdStep ch x) ((s.push ch x).advanceTime ch)
  | psSetSemitones (semitones : F32) (finite : fisfinite semitones = true)
      (rateFinite : fisfinite (s.delayRate semitones) = true) :
      Writes s (.psSetSemitones semitones)
        { s.seedPitchDelay (s.delayRate semitones) with psSemi := semitones, psRate := s.delayRate semitones }
  | psPushed (ch : BitVec 8) (x : F32) : Writes s (.psStep ch x) (s.push ch x)
  | psSlewed (ch : BitVec 8) (x : F32) (ok : s.slewOk ch = true) :
      Writes s (.psStep ch x)
        ((s.push ch x).setChan ch { (s.push ch x).chan ch with psdly := s.slewedDelay ch })
  | bqSetType (t : BqType) : Writes s (.bqSetType t) { s with bqType := t }.updateCoefficients
  | bqSetForm (f : BqForm) :
      Writes s (.bqSetForm f)
        { s with bqForm := f, chans := s.chans.map ChanRegs.clearBiquad }.updateCoefficients
  | bqSetFreq (hz : F32) (finite : fisfinite hz = true) :
      Writes s (.bqSetFreq hz) { s with bqF := hz }.updateCoefficients
  | bqSetQ (q : F32) (finite : fisfinite q = true) : Writes s (.bqSetQ q) { s with bqQ := q }.updateCoefficients
  | bqSetGain (db : F32) (finite : fisfinite db = true) :
      Writes s (.bqSetGain db) { s with bqG := db }.updateCoefficients
  | bqUpdate : Writes s .bqUpdate s.updateCoefficients
  | bqStep (ch : BitVec 8) (x : F32) :
      Writes s (.bqStep ch x) (s.setChan ch (biquadMemory s.nan s.bqForm s.coef (s.chan ch) x))
  | napfSetG1 (g : F32) (finite : fisfinite g = true) : Writes s (.napfSetG1 g) { s with g1 := g }
  | napfSetG2 (g : F32) (finite : fisfinite g = true) : Writes s (.napfSetG2 g) { s with g2 := g }
  | napfStep (ch : BitVec 8) (x : F32) :
      Writes s (.napfStep ch x) (s.setChan ch (napfMemory s.nan s.g1 s.g2 (s.chan ch) x))

/-- A result that is the end of a command after one of its possible writes. -/
def EndsAfterWrites (s : State) (i : Instr) (r : Result) : Prop :=
  ∃ u c v, r = .next (u.finish i.opcode i.channel c v) ∧ Writes s i u

variable {s u : State} {i : Instr}

theorem endsAfterWrites_respond (v : BitVec 32) (h : Writes s i u) : EndsAfterWrites s i (u.respond i v) :=
  ⟨u, .ok, v, rfl, h⟩

theorem endsAfterWrites_raise (c : Cause) (v : BitVec 32) (h : Writes s i u) :
    EndsAfterWrites s i (u.raise i c v) :=
  ⟨u, c, v, rfl, h⟩

theorem endsAfterWrites_updated (v w : BitVec 32) (h : Writes s i u) :
    EndsAfterWrites s i (u.finishUpdated i v w) :=
  ⟨u, _, _, rfl, h⟩

theorem endsAfterWrites_checked {a b : Bool} {v : BitVec 32} {body : Result} (h : EndsAfterWrites s i body) :
    EndsAfterWrites s i (s.checked i a b v body) := by
  rcases s.checked_cases (v := v) i a b body with ⟨-, h'⟩ | ⟨-, -, -, h'⟩ | ⟨-, -, -, -, h'⟩ | ⟨-, -, -, h'⟩ <;> rw [h']
  iterate 3 exact ⟨s, _, v, rfl, .nothing i⟩
  exact h

/-- A test on the way to the end; each branch may use its outcome. -/
theorem endsAfterWrites_ite {p : Prop} [Decidable p] {a b : Result} (ha : p → EndsAfterWrites s i a)
    (hb : ¬p → EndsAfterWrites s i b) : EndsAfterWrites s i (if p then a else b) := by
  split
  · exact ha ‹p›
  · exact hb ‹¬p›

/-- A setter that refuses an operand that is not finite, and else writes and ends. -/
theorem endsAfterWrites_finite {x : F32} {c : Cause} {v : BitVec 32} {r : Result}
    (h : fisfinite x = true → EndsAfterWrites s i r) :
    EndsAfterWrites s i (if !fisfinite x then s.raise i c v else r) :=
  endsAfterWrites_ite (fun _ => endsAfterWrites_raise _ _ (.nothing i)) fun hx => h (by simpa using hx)

theorem endsAfterWrites_setDelay (nan d : F32)
    (h : ∀ d', delayInRange d' s.capF = true → Writes s i { s with dly := d' }) :
    EndsAfterWrites s i (s.setDelay i nan d) :=
  endsAfterWrites_finite fun _ => endsAfterWrites_ite (fun hr => endsAfterWrites_respond _ (h _ hr))
    fun _ => endsAfterWrites_raise _ _ (.nothing i)

theorem endsAfterWrites_dlConfig (n : BitVec 8) (capacity : BitVec 32) :
    EndsAfterWrites s (.dlConfig n capacity) (execDlConfig n capacity s) := by
  refine endsAfterWrites_checked (endsAfterWrites_ite (fun _ => endsAfterWrites_raise _ _ (.dlUnconfigured ..))
    fun hc => endsAfterWrites_ite (fun _ => endsAfterWrites_raise _ _ (.dlUnconfigured ..))
      fun _ => endsAfterWrites_respond _ (.dlConfigured n capacity ?_ ?_)) <;> omega

/-- Everything a command can do: one of its writes, and its end. -/
theorem exec_writes (i : Instr) (s : State) : EndsAfterWrites s i (exec i s) := by
  cases i with
  | nop => exact endsAfterWrites_respond _ (.nothing _)
  | prepare n rate =>
    exact endsAfterWrites_ite (fun _ => endsAfterWrites_raise _ _ (.prepareRefused n rate))
      fun h => endsAfterWrites_updated _ _ (.prepared n rate (by simpa using h))
  | rdreg ch reg =>
    cases reg with
    | global r => exact endsAfterWrites_respond _ (.nothing _)
    | channel r =>
      exact endsAfterWrites_ite (fun _ => endsAfterWrites_respond _ (.nothing _))
        fun _ => endsAfterWrites_raise _ _ (.nothing _)
  | clrerr => exact endsAfterWrites_respond _ .clrerr
  | dlConfig n capacity => exact endsAfterWrites_dlConfig n capacity
  | dlSetDelay samples => exact endsAfterWrites_checked (endsAfterWrites_setDelay _ _ fun d => .dlSetDelay samples d)
  | dlSetDelayBpm bpm =>
    exact endsAfterWrites_checked (endsAfterWrites_ite (fun _ => endsAfterWrites_raise _ _ (.nothing _))
      fun _ => endsAfterWrites_setDelay _ _ fun d => .dlSetDelayBpm bpm d)
  | dlSetNotediv v =>
    exact endsAfterWrites_checked (endsAfterWrites_finite fun h => endsAfterWrites_respond _ (.dlSetNotediv v h))
  | dlSetInterp v => exact endsAfterWrites_checked (endsAfterWrites_respond _ (.dlSetInterp v))
  | dlPush ch x => exact endsAfterWrites_checked (endsAfterWrites_respond _ (.dlPush ch x))
  | dlPop ch => exact endsAfterWrites_checked (endsAfterWrites_respond _ (.nothing _))
  | dlStep ch x => exact endsAfterWrites_checked (endsAfterWrites_respond _ (.dlStep ch x))
  | dlPeek ch index =>
    exact endsAfterWrites_checked (endsAfterWrites_ite (fun _ => endsAfterWrites_raise _ _ (.nothing _))
      fun _ => endsAfterWrites_respond _ (.nothing _))
  | mdSetMode m => exact endsAfterWrites_checked (endsAfterWrites_respond _ (.mdSetMode m))
  | mdSetRate percent =>
    exact endsAfterWrites_checked (endsAfterWrites_ite (fun _ => endsAfterWrites_raise _ _ (.nothing _))
      fun h => endsAfterWrites_respond _ (.mdSetRate percent (by simpa using h)))
  | mdSetDepth samples =>
    exact endsAfterWrites_checked (endsAfterWrites_finite fun h => endsAfterWrites_respond _ (.mdSetDepth samples h))
  | mdSetBase samples =>
    exact endsAfterWrites_checked (endsAfterWrites_finite fun h => endsAfterWrites_respond _ (.mdSetBase samples h))
  | mdSetPredelayMs ms =>
    refine endsAfterWrites_checked (endsAfterWrites_ite (fun _ => endsAfterWrites_raise _ _ (.nothing _)) fun h => ?_)
    have hf : fisfinite ms = true ∧ fisfinite (s.predelay ms) = true := by simpa using h
    exact endsAfterWrites_respond _ (.mdSetPredelayMs ms hf.2)
  | mdStep ch x =>
    exact endsAfterWrites_checked (endsAfterWrites_ite (fun _ => endsAfterWrites_respond _ (.mdStep ch x))
      fun _ => endsAfterWrites_raise _ _ (.mdStep ch x))
  | psSetSemitones semitones =>
    refine endsAfterWrites_checked (endsAfterWrites_ite (fun _ => endsAfterWrites_raise _ _ (.nothing _)) fun h => ?_)
    have hf : fisfinite semitones = true ∧ fisfinite (s.delayRate semitones) = true := by simpa using h
    exact endsAfterWrites_respond _ (.psSetSemitones semitones hf.1 hf.2)
  | psStep ch x =>
    exact endsAfterWrites_checked (endsAfterWrites_ite (fun h => endsAfterWrites_respond _ (.psSlewed ch x h))
      fun _ => endsAfterWrites_raise _ _ (.psPushed ch x))
  | bqSetType t => exact endsAfterWrites_checked (endsAfterWrites_updated _ _ (.bqSetType t))
  | bqSetForm f => exact endsAfterWrites_checked (endsAfterWrites_updated _ _ (.bqSetForm f))
  | bqSetFreq hz =>
    exact endsAfterWrites_checked (endsAfterWrites_finite fun h => endsAfterWrites_updated _ _ (.bqSetFreq hz h))
  | bqSetQ q =>
    exact endsAfterWrites_checked (endsAfterWrites_finite fun h => endsAfterWrites_updated _ _ (.bqSetQ q h))
  | bqSetGain db =>
    exact endsAfterWrites_checked (endsAfterWrites_finite fun h => endsAfterWrites_updated _ _ (.bqSetGain db h))
  | bqUpdate => exact endsAfterWrites_checked (endsAfterWrites_updated _ _ .bqUpdate)
  | bqStep ch x =>
    exact endsAfterWrites_checked (endsAfterWrites_ite (fun _ => endsAfterWrites_raise _ _ (.nothing _))
      fun _ => endsAfterWrites_respond _ (.bqStep ch x))
  | napfSetG1 g =>
    exact endsAfterWrites_checked (endsAfterWrites_finite fun h => endsAfterWrites_respond _ (.napfSetG1 g h))
  | napfSetG2 g =>
    exact endsAfterWrites_checked (endsAfterWrites_finite fun h => endsAfterWrites_respond _ (.napfSetG2 g h))
  | napfStep ch x => exact endsAfterWrites_checked (endsAfterWrites_respond _ (.napfStep ch x))

end Sys2Proof.Machine
end

section
/-!
The owners of the registers and of the RAM (the "written by" columns of 10_state.md): the clauses of O55 in three groups,
read off `exec_writes`.
-/
namespace Sys2Proof.Machine

/-- The registers that exist once: one that differs from `s` to `t` is one the opcode owns. -/
def GlobalsOwned (opc : BitVec 8) (s t : State) : Prop :=
  t.nchMax = s.nchMax ∧ t.capMax = s.capMax ∧
  (t.prepared ≠ s.prepared ∨ t.sr ≠ s.sr ∨ t.nch ≠ s.nch → opc = 0x01#8) ∧
  (t.dlConf ≠ s.dlConf ∨ t.cap ≠ s.cap → opc ∈ [0x01#8, 0x10#8]) ∧
  (t.dly ≠ s.dly → opc ∈ [0x10#8, 0x11#8, 0x12#8]) ∧
  (t.noteDiv ≠ s.noteDiv → opc = 0x13#8) ∧
  (t.interp ≠ s.interp → opc = 0x14#8) ∧
  (t.mdMode ≠ s.mdMode → opc = 0x20#8) ∧
  (t.mdRate ≠ s.mdRate → opc = 0x21#8) ∧
  (t.mdRateHz ≠ s.mdRateHz → opc ∈ [0x20#8, 0x21#8]) ∧
  (t.mdDepth ≠ s.mdDepth → opc = 0x22#8) ∧
  (t.mdBase ≠ s.mdBase → opc ∈ [0x23#8, 0x24#8]) ∧
  (t.psSemi ≠ s.psSemi ∨ t.psRate ≠ s.psRate → opc = 0x30#8) ∧
  (t.bqType ≠ s.bqType → opc = 0x40#8) ∧
  (t.bqForm ≠ s.bqForm → opc = 0x41#8) ∧
  (t.bqF ≠ s.bqF → opc = 0x42#8) ∧
  (t.bqQ ≠ s.bqQ → opc = 0x43#8) ∧
  (t.bqG ≠ s.bqG → opc = 0x44#8) ∧
  (t.bqValid ≠ s.bqValid ∨ t.coef ≠ s.coef →
    opc ∈ [0x01#8, 0x40#8, 0x41#8, 0x42#8, 0x43#8, 0x44#8, 0x45#8]) ∧
  (t.g1 ≠ s.g1 → opc = 0x50#8) ∧
  (t.g2 ≠ s.g2 → opc = 0x51#8)

/-- The words of the RAM. -/
def RamOwned (opc : BitVec 8) (s t : State) : Prop :=
  ∀ (ch : BitVec 8) (k : Nat), t.memRead ch k ≠ s.memRead ch k → opc ∈ [0x10#8, 0x15#8, 0x17#8, 0x25#8, 0x31#8]

/-- The registers of one channel, before and after. -/
def ChannelOwned (opc : BitVec 8) (r r' : ChanRegs) : Prop :=
  (r'.widx ≠ r.widx → opc ∈ [0x01#8, 0x10#8, 0x15#8, 0x17#8, 0x25#8, 0x31#8]) ∧
  (r'.t ≠ r.t → opc ∈ [0x01#8, 0x25#8]) ∧
  (r'.psdly ≠ r.psdly → opc ∈ [0x01#8, 0x10#8, 0x30#8, 0x31#8]) ∧
  (r'.x1 ≠ r.x1 ∨ r'.x2 ≠ r.x2 ∨ r'.y1 ≠ r.y1 ∨ r'.y2 ≠ r.y2 ∨ r'.r1 ≠ r.r1 ∨ r'.r2 ≠ r.r2 ∨ r'.w1 ≠ r.w1 ∨
    r'.w2 ≠ r.w2 → opc ∈ [0x01#8, 0x41#8, 0x46#8]) ∧
  (r'.pw1 ≠ r.pw1 ∨ r'.pw2 ≠ r.pw2 ∨ r'.pv ≠ r.pv → opc ∈ [0x01#8, 0x52#8])

/-- A command that writes no register of the tables but those of a channel. -/
theorem globalsOwned_of_beside {opc : BitVec 8} {s t : State} (h : t.besideRamAndChans = s.besideRamAndChans) :
    GlobalsOwned opc s t := by
  have hg : GlobalsOwned opc s.besideRamAndChans t.besideRamAndChans := by rw [h]; simp [GlobalsOwned]
  exact hg

theorem channelOwned_self (opc : BitVec 8) (r : ChanRegs) : ChannelOwned opc r r := by simp [ChannelOwned]

/-- One write of a channel after the other. -/
theorem ChannelOwned.trans {opc : BitVec 8} {r r' r'' : ChanRegs} (h : ChannelOwned opc r r')
    (h' : ChannelOwned opc r' r'') : ChannelOwned opc r r'' := by
  unfold ChannelOwned at *
  grind

/-- A command that writes the registers of one channel owns what it writes of them. -/
theorem channelOwned_setChan {opc ch : BitVec 8} {s : State} {r : ChanRegs} (h : ChannelOwned opc (s.chan ch) r)
    (ch' : BitVec 8) : ChannelOwned opc (s.chan ch') ((s.setChan ch r).chan ch') := by
  rcases s.chan_setChan_cases ch r ch' with ⟨rfl, hr⟩ | hr <;> rw [hr]
  · exact h
  · exact channelOwned_self _ _

/-- So does one that maps the registers of every channel. -/
theorem channelOwned_map {opc : BitVec 8} {s : State} {f : ChanRegs → ChanRegs}
    (h : ∀ r, ChannelOwned opc r (f r)) (ch : BitVec 8) :
    ChannelOwned opc (s.chan ch) ((s.chans.map f).getD ch.toNat ChanRegs.cleared) := by
  rcases s.getD_map_chans_cases f ch with hr | hr <;> rw [hr]
  · exact h _
  · exact channelOwned_self _ _

/-- A push writes `WIDX` of its channel alone. -/
theorem channelOwned_push {opc : BitVec 8} (h : opc ∈ [0x01#8, 0x10#8, 0x15#8, 0x17#8, 0x25#8, 0x31#8]) (s : State)
    (ch : BitVec 8) (x : F32) (ch' : BitVec 8) : ChannelOwned opc (s.chan ch') ((s.push ch x).chan ch') :=
  channelOwned_setChan (s := s.memWrite ch (s.chan ch).widx x) ⟨fun _ => h, by simp, by simp, by simp, by simp⟩ ch'

/-- A biquad step writes biquad memory alone, in every form. -/
theorem channelOwned_biquadMemory (nan : Nat → F32) (form : BqForm) (k : Coeffs) (r : ChanRegs) (x : F32) :
    ChannelOwned 0x46#8 r (biquadMemory nan form k r x) := by
  cases form <;> simp [ChannelOwned, biquadMemory, df1Memory, tdf2Memory, df2Memory]

variable {s u : State} {i : Instr}

theorem Writes.globalsOwned (h : Writes s i u) : GlobalsOwned i.opcode s u := by
  cases h with
  | nothing | dlPush | dlStep | mdStep | psPushed | psSlewed | bqStep | napfStep =>
    exact globalsOwned_of_beside (by simp)
  | clrerr => simp [GlobalsOwned]
  | prepareRefused | prepared | dlUnconfigured | dlConfigured => simp [GlobalsOwned, Instr.opcode]
  | dlSetDelay | dlSetDelayBpm | dlSetNotediv | dlSetInterp => simp [GlobalsOwned, Instr.opcode]
  | mdSetMode | mdSetRate | mdSetDepth | mdSetBase | mdSetPredelayMs => simp [GlobalsOwned, Instr.opcode]
  | psSetSemitones | napfSetG1 | napfSetG2 => simp [GlobalsOwned, Instr.opcode]
  | bqSetType | bqSetForm | bqSetFreq | bqSetQ | bqSetGain | bqUpdate => simp [GlobalsOwned, Instr.opcode]

theorem Writes.ramOwned (h : Writes s i u) : RamOwned i.opcode s u := by
  intro ch k hne
  cases h with
  | dlConfigured | dlPush | dlStep | mdStep | psPushed | psSlewed => simp [Instr.opcode]
  | _ => exact absurd rfl hne

theorem Writes.channelOwned (h : Writes s i u) (ch : BitVec 8) : ChannelOwned i.opcode (s.chan ch) (u.chan ch) := by
  cases h with
  | prepared => exact channelOwned_map (fun _ => by simp [ChannelOwned, Instr.opcode]) ch
  | dlConfigured => exact channelOwned_map (fun _ => by simp [ChannelOwned, Instr.opcode]) ch
  | psSetSemitones =>
    cases hd : s.dlConf
    · simpa [State.chan, hd] using channelOwned_self _ _
    · simpa [State.chan, hd] using channelOwned_map (s := s) (fun _ => by simp [ChannelOwned, Instr.opcode]) ch
  | bqSetForm => exact channelOwned_map (fun _ => by simp [ChannelOwned, Instr.opcode, ChanRegs.clearBiquad]) ch
  | dlPush c x => exact channelOwned_push (by simp [Instr.opcode]) s c x ch
  | dlStep c x => exact channelOwned_push (by simp [Instr.opcode]) s c x ch
  | psPushed c x => exact channelOwned_push (by simp [Instr.opcode]) s c x ch
  | psSlewed c x =>
    exact (channelOwned_push (by simp [Instr.opcode]) s c x ch).trans
      (channelOwned_setChan (by simp [ChannelOwned, Instr.opcode]) ch)
  | mdStep c x =>
    exact (channelOwned_push (by simp [Instr.opcode]) s c x ch).trans
      (channelOwned_setChan (by simp [ChannelOwned, Instr.opcode]) ch)
  | bqStep c x =>
    exact channelOwned_setChan (channelOwned_biquadMemory _ _ _ _ _) ch
  | napfStep c x =>
    exact channelOwned_setChan (by simp [ChannelOwned, Instr.opcode, napfMemory]) ch
  | _ => exact channelOwned_self _ _

end Sys2Proof.Machine

namespace Sys2Proof
open Machine

/-- Settles O55: a command ends by `finish`, which writes none of these, over one of its `Writes`. -/
theorem registerOwners : Obligations.RegisterOwners := by
  intro i s t h
  obtain ⟨u, c, v, hu, hw⟩ := exec_writes i s
  cases h.symm.trans hu
  have hall : GlobalsOwned i.opcode s (u.finish i.opcode i.channel c v) ∧
      RamOwned i.opcode s (u.finish i.opcode i.channel c v) ∧
      ∀ ch, ChannelOwned i.opcode (s.chan ch) ((u.finish i.opcode i.channel c v).chan ch) :=
    ⟨hw.globalsOwned, hw.ramOwned, hw.channelOwned⟩
  simpa only [GlobalsOwned, RamOwned, ChannelOwned, and_assoc] using hall

end Sys2Proof
end

section
/-!
Register numbers and the reset state (10_state.md R23 to R39, 70_reset_and_hazards.md R250).
-/
namespace Sys2Proof

/-- A number that is no register's names none. -/
theorem RegName.ofNumber_eq_none {n : BitVec 8} (h : ∀ r : RegName, r.number ≠ n) : RegName.ofNumber n = none := by
  simp [RegName.ofNumber, h]

/-- Settles O2: each register's own number names it, so a table that lists them all lists every number. -/
theorem registerAndEnumerationNumbers : Obligations.RegisterAndEnumerationNumbers := by
  refine ⟨⟨by decide, fun n hn => RegName.ofNumber_eq_none ?_⟩, by decide, by decide, by decide⟩
  rintro (r | r)
  · exact hn ((RegName.global r).number, .global r) (by cases r <;> decide)
  · exact hn ((RegName.channel r).number, .channel r) (by cases r <;> decide)

end Sys2Proof

namespace Sys2Proof.Machine

/-- At reset every channel, below `NCH_MAX` or not, reads the cleared registers. -/
@[simp] theorem State.resetWith_chan (nchMax capMax : Nat) (ch : BitVec 8) :
    (State.resetWith nchMax capMax).chan ch = ChanRegs.cleared := by
  by_cases h : ch.toNat < nchMax <;> simp [State.chan, State.resetWith, List.getD, h]

theorem State.resetWith_status (nchMax capMax : Nat) : (State.resetWith nchMax capMax).status = 0#32 := by
  simp only [State.status, State.errO, State.resetWith]
  decide

/-- The reset state has the invariants, for all parameters of 00_scope.md R6. -/
theorem State.resetWith_inv {nchMax capMax : Nat} (hn : 1 ≤ nchMax) (hn' : nchMax ≤ 255) (hc : 1 ≤ capMax)
    (hc' : capMax ≤ 2 ^ 24) : (State.resetWith nchMax capMax).Inv where
  params := ⟨hn, hn', hc, hc'⟩
  shape := ⟨List.length_replicate, Nat.zero_le _⟩
  ram := rfl
  errors := by constructor <;> simp only [State.resetWith] <;> decide
  line := ⟨nofun, nofun, nofun, fun _ => rfl⟩
  pitch := nofun
  coef := nofun
  finite := by constructor <;> simp only [State.resetWith] <;> decide
  rate := by constructor <;> simp only [State.resetWith] <;> decide

end Sys2Proof.Machine

namespace Sys2Proof
open Machine

/-- Settles O59. -/
theorem resetHasInvariants : Obligations.ResetHasInvariants :=
  ⟨fun _ _ hn hn' hc hc' => State.resetWith_inv hn hn' hc hc',
    State.resetWith_inv (by decide) (by decide) (by decide) (by decide)⟩

/-- Settles O60: `State.hardwareReset` is the reset state but for the draw counter. -/
theorem resetValues : Obligations.ResetValues := by
  intro s
  refine ⟨?_, ?_, ?_, ?_, ?_, ?_, rfl, rfl, List.length_replicate, State.resetWith_chan s.nchMax s.capMax⟩
  · exact ⟨rfl, rfl, rfl, rfl, rfl, State.resetWith_status s.nchMax s.capMax, rfl, rfl, rfl, rfl⟩
  · exact ⟨rfl, rfl, rfl, rfl⟩
  · exact ⟨rfl, rfl, rfl, rfl, rfl⟩
  · exact ⟨rfl, rfl⟩
  · exact ⟨rfl, rfl, rfl, rfl, rfl, rfl⟩
  · exact ⟨rfl, rfl⟩

end Sys2Proof
end

section
/-!
Two runs of one command: what a relation between states has to keep for every command to keep it (`Blind`), and that the
queue of commands and the RAM of a line that is not configured are such differences (10_state.md R27, R38).
-/
namespace Sys2Proof.Machine

/-- Two states that differ at most in the RAM and in the two streams. -/
def State.SameRegisters (s s' : State) : Prop :=
  s' = { s with mem := s'.mem, cmdIn := s'.cmdIn, rspOut := s'.rspOut }

/-- What `State.SameRegisters` leaves out. -/
def State.ramAndStreams (s : State) : Memory × List Word64 × List Word64 := (s.mem, s.cmdIn, s.rspOut)

/-- The registers that say which words of the RAM a command can reach. -/
def State.lineShape (s : State) : Bool × Nat × Nat := (s.dlConf, s.cap, s.nch)

/-- A relation between states with the same registers that every named operation on the RAM keeps, by which a read of a
configured line answers alike, and which does not see what is written to a register. -/
structure Blind (R : State → State → Prop) : Prop where
  same : ∀ {s s'}, R s s' → s.SameRegisters s'
  finish : ∀ {s s'} opc ch c v, R s s' → R (s.finish opc ch c v) (s'.finish opc ch c v)
  push : ∀ {s s'} ch x, R s s' → R (s.push ch x) (s'.push ch x)
  configureLine : ∀ {s s' c}, 1 ≤ c → R s s' → R (s.configureLine c) (s'.configureLine c)
  fracRead : ∀ {s s'} nan {ch : BitVec 8} d, R s s' → s.dlConf = true → ch.toNat < s.nch →
    s.fracRead nan ch d = s'.fracRead nan ch d
  memRead : ∀ {s s'} {ch : BitVec 8} {k}, R s s' → s.dlConf = true → ch.toNat < s.nch → k < s.cap →
    s.memRead ch k = s'.memRead ch k
  registers : ∀ {s s' u u'}, R s s' → u.SameRegisters u' →
    u.ramAndStreams = s.ramAndStreams → u'.ramAndStreams = s'.ramAndStreams →
    (u.dlConf = false ∨ u.lineShape = s.lineShape) → R u u'

/-- Two results that are next states of the relation. -/
def ResultRel (R : State → State → Prop) (r r' : Result) : Prop :=
  ∃ t t', r = .next t ∧ r' = .next t' ∧ R t t'

section Combinators
variable {R : State → State → Prop} (hR : Blind R) {s s' : State} {i : Instr}
include hR

theorem resultRel_respond {v v' : BitVec 32} (h : R s s') (hv : v = v') :
    ResultRel R (s.respond i v) (s'.respond i v') := by
  subst hv
  exact ⟨_, _, rfl, rfl, hR.finish _ _ _ _ h⟩

theorem resultRel_raise {v v' : BitVec 32} (c : Cause) (h : R s s') (hv : v = v') :
    ResultRel R (s.raise i c v) (s'.raise i c v') := by
  subst hv
  exact ⟨_, _, rfl, rfl, hR.finish _ _ _ _ h⟩

theorem resultRel_updated (v w : BitVec 32) (h : R s s') :
    ResultRel R (s.finishUpdated i v w) (s'.finishUpdated i v w) := by
  have hb : s'.bqValid = s.bqValid := (congrArg State.bqValid (hR.same h)).trans rfl
  unfold State.finishUpdated
  rw [hb]
  exact ⟨_, _, rfl, rfl, hR.finish _ _ _ _ h⟩

omit hR in
theorem resultRel_ite {p p' : Prop} [Decidable p] [Decidable p'] {a a' b b' : Result} (hp : p = p')
    (ha : p → ResultRel R a a') (hb : ¬p → ResultRel R b b') :
    ResultRel R (if p then a else b) (if p' then a' else b') := by
  subst hp
  by_cases h : p
  · simpa only [if_pos h] using ha h
  · simpa only [if_neg h] using hb h

theorem resultRel_setDelay (nan d : F32) (h : R s s') : ResultRel R (s.setDelay i nan d) (s'.setDelay i nan d) := by
  obtain ⟨m, q, l, rfl⟩ : ∃ m q l, s' = { s with mem := m, cmdIn := q, rspOut := l } := ⟨_, _, _, hR.same h⟩
  exact resultRel_ite rfl (fun _ => resultRel_raise hR _ h rfl) fun _ => resultRel_ite rfl
    (fun _ => resultRel_respond hR (hR.registers h rfl rfl rfl (.inr rfl)) rfl) fun _ => resultRel_raise hR _ h rfl

theorem resultRel_checked {a b : Bool} {v : BitVec 32} {body body' : Result} (h : R s s')
    (hbody : (a = true → s.dlConf = true) → (b = true → i.channel.toNat < s.nch) → ResultRel R body body') :
    ResultRel R (s.checked i a b v body) (s'.checked i a b v body') := by
  have hs := hR.same h
  have hp : s'.prepared = s.prepared := (congrArg State.prepared hs).trans rfl
  have hd : s'.dlConf = s.dlConf := (congrArg State.dlConf hs).trans rfl
  have hn : s'.nch = s.nch := (congrArg State.nch hs).trans rfl
  unfold State.checked
  rw [hp, hd, hn]
  refine resultRel_ite rfl (fun _ => resultRel_raise hR _ h rfl) fun _ => resultRel_ite rfl
    (fun _ => resultRel_raise hR _ h rfl) fun hl => resultRel_ite rfl (fun _ => resultRel_raise hR _ h rfl) fun hc => ?_
  refine hbody (fun ha => ?_) (fun hb => ?_)
  · simpa [ha] using hl
  · simpa [hb] using hc

end Combinators

/-- Every command keeps a blind relation. -/
theorem exec_blind {R : State → State → Prop} (hR : Blind R) (i : Instr) {s s' : State} (h : R s s') :
    ResultRel R (exec i s) (exec i s') := by
  obtain ⟨m, q, l, rfl⟩ : ∃ m q l, s' = { s with mem := m, cmdIn := q, rspOut := l } := ⟨_, _, _, hR.same h⟩
  cases i with
  | nop => exact resultRel_respond hR h rfl
  | prepare n rate =>
    exact resultRel_ite rfl
      (fun _ => resultRel_raise hR _ (hR.registers h rfl rfl rfl (.inl rfl)) rfl)
      fun _ => resultRel_updated hR _ _ (hR.registers h rfl rfl rfl (.inl rfl))
  | rdreg ch reg =>
    cases reg with
    | global r => exact resultRel_respond hR h rfl
    | channel r =>
      exact resultRel_ite rfl (fun _ => resultRel_respond hR h rfl) fun _ => resultRel_raise hR _ h rfl
  | clrerr =>
    exact resultRel_respond hR (hR.registers h rfl rfl rfl (.inr rfl)) rfl
  | dlConfig n capacity =>
    have hu : R s.unconfigureLine { s with mem := m, cmdIn := q, rspOut := l }.unconfigureLine :=
      hR.registers h rfl rfl rfl (.inl rfl)
    exact resultRel_checked hR h fun _ _ => resultRel_ite rfl (fun _ => resultRel_raise hR _ hu rfl) fun hc =>
      resultRel_ite rfl (fun _ => resultRel_raise hR _ hu rfl) fun _ =>
        resultRel_respond hR (hR.configureLine (by omega) h) rfl
  | dlPush ch x => exact resultRel_checked hR h fun _ _ => resultRel_respond hR (hR.push ch x h) rfl
  | dlPop ch =>
    exact resultRel_checked hR h fun hd hc => resultRel_respond hR h (hR.fracRead _ _ h (hd rfl) (hc rfl))
  | dlStep ch x =>
    exact resultRel_checked hR h fun hd hc =>
      resultRel_respond hR (hR.push ch x h) (hR.fracRead _ _ (hR.push ch x h) (hd rfl) (hc rfl))
  | dlPeek ch index =>
    exact resultRel_checked hR h fun hd hc => resultRel_ite rfl (fun _ => resultRel_raise hR _ h rfl) fun hk =>
      resultRel_respond hR h (hR.memRead h (hd rfl) (hc rfl) (Nat.lt_of_not_le hk))
  | mdStep ch x =>
    have ht : R ((s.push ch x).advanceTime ch)
        (({ s with mem := m, cmdIn := q, rspOut := l }.push ch x).advanceTime ch) :=
      hR.registers (hR.push ch x h) rfl rfl rfl (.inr rfl)
    exact resultRel_checked hR h fun hd hc => resultRel_ite rfl
      (fun _ => resultRel_respond hR ht (hR.fracRead _ _ ht (hd rfl) (hc rfl))) fun _ => resultRel_raise hR _ ht rfl
  | psStep ch x =>
    have hp := hR.push ch x h
    exact resultRel_checked hR h fun hd hc => resultRel_ite rfl
      (fun _ => resultRel_respond hR
        (hR.registers hp rfl rfl rfl (.inr rfl))
        (hR.fracRead _ _ hp (hd rfl) (hc rfl)))
      fun _ => resultRel_raise hR _ hp rfl
  | dlSetDelay samples => exact resultRel_checked hR h fun _ _ => resultRel_setDelay hR _ _ h
  | dlSetDelayBpm bpm =>
    exact resultRel_checked hR h fun _ _ => resultRel_ite rfl (fun _ => resultRel_raise hR _ h rfl)
      fun _ => resultRel_setDelay hR _ _ h
  -- the setters and steps that only write registers
  | dlSetInterp | mdSetMode | napfStep =>
    exact resultRel_checked hR h fun _ _ => resultRel_respond hR (hR.registers h rfl rfl rfl (.inr rfl)) rfl
  -- those that refuse an operand
  | dlSetNotediv | mdSetRate | mdSetDepth | mdSetBase | mdSetPredelayMs | psSetSemitones | bqStep | napfSetG1
  | napfSetG2 =>
    exact resultRel_checked hR h fun _ _ => resultRel_ite rfl (fun _ => resultRel_raise hR _ h rfl)
      fun _ => resultRel_respond hR (hR.registers h rfl rfl rfl (.inr rfl)) rfl
  -- those that end with the coefficient update
  | bqSetType | bqSetForm | bqUpdate =>
    exact resultRel_checked hR h fun _ _ => resultRel_updated hR _ _ (hR.registers h rfl rfl rfl (.inr rfl))
  | bqSetFreq | bqSetQ | bqSetGain =>
    exact resultRel_checked hR h fun _ _ => resultRel_ite rfl (fun _ => resultRel_raise hR _ h rfl)
      fun _ => resultRel_updated hR _ _ (hR.registers h rfl rfl rfl (.inr rfl))

end Sys2Proof.Machine
end

section
/-!
Two blind relations: other words in the streams (10_state.md R38, O10), and another RAM outside the rows of a
configured line (10_state.md R27, O57).
-/
namespace Sys2Proof.Machine

/-! ## The queue and the earlier responses -/

/-- `s'` is `s` with `q` waiting, and `r` before all but the first `n` responses of `s`. -/
def StreamsSwapped (q r : List Word64) (n : Nat) (s s' : State) : Prop :=
  n ≤ s.rspOut.length ∧ s' = { s with cmdIn := q, rspOut := r ++ s.rspOut.drop n }

/-- No command sees the streams. -/
theorem streamsSwapped_blind (q r : List Word64) (n : Nat) : Blind (StreamsSwapped q r n) where
  same := by rintro s _ ⟨-, rfl⟩; rfl
  finish := by
    rintro s _ opc ch c v ⟨hn, rfl⟩
    refine ⟨?_, ?_⟩
    · simp only [State.finish_rspOut, List.length_append]; omega
    · simp [State.finish, List.drop_append_of_le_length hn]
  push := by rintro s _ ch x ⟨hn, rfl⟩; exact ⟨hn, rfl⟩
  configureLine := by rintro s _ c - ⟨hn, rfl⟩; exact ⟨hn, rfl⟩
  fracRead := by rintro s _ nan ch d ⟨-, rfl⟩ - -; rfl
  memRead := by rintro s _ ch k ⟨-, rfl⟩ - - -; rfl
  registers := by
    rintro s _ u u' ⟨hn, rfl⟩ hs hu hu' -
    simp only [State.ramAndStreams, Prod.mk.injEq] at hu hu'
    obtain ⟨hm, -, hr⟩ := hu
    obtain ⟨hm', hq', hr'⟩ := hu'
    refine ⟨hr ▸ hn, hs.trans ?_⟩
    rw [hm', hq', hr', hm, hr]

/-! ## The RAM of a line that is not configured -/

/-- `s'` is `s` but for words of the RAM that no command reads: all of them while the line is not configured, else those
outside the rows of the prepared channels. -/
structure UnseenRam (s s' : State) : Prop where
  beside : s' = { s with mem := s'.mem }
  wf : s.mem.wf = true
  wf' : s'.mem.wf = true
  cap_pos : s.dlConf = true → 1 ≤ s.cap
  rows : s.dlConf = true → ∀ (ch : BitVec 8) (k : Nat), ch.toNat < s.nch → k < s.cap →
    s.memRead ch k = s'.memRead ch k

/-- A push writes one word, the same one of both states. -/
theorem UnseenRam.push {s s' : State} (h : UnseenRam s s') (ch : BitVec 8) (x : F32) :
    UnseenRam (s.push ch x) (s'.push ch x) := by
  obtain ⟨hb, hw, hw', hp, hr⟩ := h
  have hc : s'.chan ch = s.chan ch := (congrArg (State.chan · ch) hb).trans rfl
  refine ⟨by rw [hb]; rfl, Memory.write_wf hw _ _, Memory.write_wf hw' _ _, hp, fun hd ch' k hch hk => ?_⟩
  by_cases hsame : ch' = ch ∧ k = (s.chan ch).widx
  · obtain ⟨rfl, rfl⟩ := hsame
    rw [s.push_memRead_same ch' x hw, ← hc, s'.push_memRead_same ch' x hw']
  · have hother : ch' ≠ ch ∨ k ≠ (s.chan ch).widx := Decidable.not_and_iff_or_not.mp hsame
    rw [s.push_memRead_other x hother, s'.push_memRead_other x (hc ▸ hother)]
    exact hr hd ch' k hch hk

/-- The fill makes every word that can be read from then on the same. -/
theorem UnseenRam.configureLine {s s' : State} {c : Nat} (hc : 1 ≤ c) (h : UnseenRam s s') :
    UnseenRam (s.configureLine c) (s'.configureLine c) := by
  have hn : s'.nch = s.nch := (congrArg State.nch h.beside).trans rfl
  refine ⟨by rw [h.beside]; rfl, Memory.fillRows_wf h.wf _ _, Memory.fillRows_wf h.wf' _ _, fun _ => hc,
    fun _ ch k hch hk => ?_⟩
  have hin : ch.toNat < s.nch ∧ k < c := ⟨hch, hk⟩
  rw [s.configureLine_memRead, s'.configureLine_memRead, hn, if_pos hin, if_pos hin]

/-- Writes that leave the RAM and the streams alone, and the line too or not configured. -/
theorem UnseenRam.registers {s s' u u' : State} (h : UnseenRam s s') (hs : u.SameRegisters u')
    (hu : u.ramAndStreams = s.ramAndStreams) (hu' : u'.ramAndStreams = s'.ramAndStreams)
    (hl : u.dlConf = false ∨ u.lineShape = s.lineShape) : UnseenRam u u' := by
  simp only [State.ramAndStreams, Prod.mk.injEq] at hu hu'
  obtain ⟨hm, hq, hr⟩ := hu
  obtain ⟨hm', hq', hr'⟩ := hu'
  have hqs : s'.cmdIn = s.cmdIn := (congrArg State.cmdIn h.beside).trans rfl
  have hrs : s'.rspOut = s.rspOut := (congrArg State.rspOut h.beside).trans rfl
  have hb : u' = { u with mem := u'.mem } := by
    refine hs.trans ?_
    rw [hq', hr', hqs, hrs, ← hq, ← hr]
  refine ⟨hb, hm ▸ h.wf, hm' ▸ h.wf', fun hd => ?_, fun hd ch k hch hk => ?_⟩
  · rcases hl with hl | hl
    · simp [hl] at hd
    · simp only [State.lineShape, Prod.mk.injEq] at hl
      obtain ⟨hd', hc, -⟩ := hl
      exact hc ▸ h.cap_pos (hd' ▸ hd)
  · rcases hl with hl | hl
    · simp [hl] at hd
    · simp only [State.lineShape, Prod.mk.injEq] at hl
      obtain ⟨hd', hc, hn⟩ := hl
      simpa only [State.memRead, hm, hm'] using h.rows (hd' ▸ hd) ch k (hn ▸ hch) (hc ▸ hk)

/-- No command sees the RAM outside the rows of a configured line. -/
theorem unseenRam_blind : Blind UnseenRam where
  same := fun h => by rw [State.SameRegisters, h.beside]
  finish := fun opc ch c v h => ⟨by rw [h.beside]; rfl, h.wf, h.wf', h.cap_pos, h.rows⟩
  push := fun ch x h => h.push ch x
  configureLine := fun hc h => h.configureLine hc
  fracRead := fun {s s'} nan ch d h hd hch => by
    have hb := h.beside
    refine State.fracRead_congr nan d ?_ ?_ (h.cap_pos hd) ?_ fun k hk => h.rows hd ch k hch hk
    · exact ((congrArg State.interp hb).trans rfl).symm
    · exact ((congrArg State.cap hb).trans rfl).symm
    · exact ((congrArg (fun z : State => (z.chan ch).widx) hb).trans rfl).symm
  memRead := fun h hd hch hk => h.rows hd _ _ hch hk
  registers := fun h hs hu hu' hl => h.registers hs hu hu' hl

/-- A step with an illegal word waiting answers it (60_exceptions.md R231). -/
theorem step_of_decode_error {s : State} {w : Word64} {rest : List Word64} {e : DecodeError} (hc : s.cmdIn = w :: rest)
    (hd : decode w = .error e) :
    step s = .next ({ s with cmdIn := rest }.finish (opcField w) (chField w) .illegalCommand 0#32) := by
  rcases step_cases s with ⟨hc', -⟩ | ⟨w', rest', i, hc', hd', -⟩ | ⟨w', rest', e', hc', -, hs⟩
  · cases hc.symm.trans hc'
  · cases hc.symm.trans hc'
    cases hd.symm.trans hd'
  · cases hc.symm.trans hc'
    exact hs

/-- A step takes the same word from both states and keeps them alike. -/
theorem step_unseenRam {s s' : State} (h : UnseenRam s s') : ResultRel UnseenRam (step s) (step s') := by
  have hq : s'.cmdIn = s.cmdIn := (congrArg State.cmdIn h.beside).trans rfl
  have ht (rest : List Word64) : UnseenRam { s with cmdIn := rest } { s' with cmdIn := rest } :=
    ⟨by rw [h.beside], h.wf, h.wf', h.cap_pos, h.rows⟩
  rcases step_cases s with ⟨hc, hs⟩ | ⟨w, rest, i, hc, hd, hs⟩ | ⟨w, rest, e, hc, hd, hs⟩
  · rw [hs, step_of_idle (hq.trans hc)]
    exact ⟨s, s', rfl, rfl, h⟩
  · rw [hs, step_of_decode (hq.trans hc) hd]
    exact exec_blind unseenRam_blind i (ht rest)
  · rw [hs, step_of_decode_error (hq.trans hc) hd]
    exact ⟨_, _, rfl, rfl, unseenRam_blind.finish _ _ _ _ (ht rest)⟩

/-- Over a whole run. -/
theorem run_unseenRam (n : Nat) {s s' : State} (h : UnseenRam s s') :
    ResultRel UnseenRam (Host.Core.run Sys2Proof.core n s) (Host.Core.run Sys2Proof.core n s') := by
  induction n generalizing s s' with
  | zero => exact ⟨s, s', rfl, rfl, h⟩
  | succ n ih =>
    obtain ⟨t, t', ht, ht', hr⟩ := step_unseenRam h
    rw [run_succ ht, run_succ ht']
    exact ih hr

end Sys2Proof.Machine

namespace Sys2Proof
open Machine

/-- Settles O10: the streams are one of the differences no command sees. -/
theorem queueUnobserved : Obligations.QueueUnobserved := by
  intro i s t q r h
  have hs : StreamsSwapped q r s.rspOut.length s { s with cmdIn := q, rspOut := r } := ⟨le_rfl, by simp⟩
  obtain ⟨t₁, t', ht, ht', -, rfl⟩ := exec_blind (streamsSwapped_blind q r s.rspOut.length) i hs
  cases h.symm.trans ht
  exact ht'

/-- Settles O57: while the line is not configured no word of the RAM is in reach, and the `DL_CONFIG` that changes this
fills all that come into reach. -/
theorem unwrittenRamUnobserved : Obligations.UnwrittenRamUnobserved := by
  refine ⟨fun s s' n hd hw hw' hb => ?_, fun _ _ => ⟨rfl, rfl⟩⟩
  have hs : UnseenRam s s' := ⟨hb, hw, hw', by simp [hd], by simp [hd]⟩
  obtain ⟨t, t', ht, ht', hr⟩ := run_unseenRam n hs
  exact ⟨t, t', ht, ht', ((congrArg State.rspOut hr.beside).trans rfl).symm, hr.beside⟩

end Sys2Proof
end

section
/-!
Every step keeps the invariants of 10_state.md (O58): each part of `State.Inv` over the writes of a command, then over
its end.
-/
namespace Sys2Proof.Machine

/-! ## The error registers (10_state.md R23) -/

theorem Cause.code_le (c : Cause) : c.code.toNat ≤ 9 := by cases c <;> decide

/-- A cause sets one of the bits 1 to 9 of `ERRFLAGS`. -/
theorem errFlagsAfter_reserved {flags : BitVec 32} (h : flags &&& 0xFFFFFC01#32 = 0#32) (c : Cause) :
    errFlagsAfter flags c &&& 0xFFFFFC01#32 = 0#32 := by
  have hor (k : BitVec 32) (hk : k &&& 0xFFFFFC01#32 = 0#32) : (flags ||| k) &&& 0xFFFFFC01#32 = 0#32 := by
    rw [BitVec.and_comm, BitVec.and_or_distrib_left, BitVec.and_comm _ flags, BitVec.and_comm _ k, h, hk]
    rfl
  cases c with
  | ok => exact h
  | _ => exact hor _ (by decide)

theorem errLast_toNat (opc code : BitVec 8) :
    (0#16 ++ opc ++ code : BitVec 32).toNat = opc.toNat * 256 + code.toNat := by
  rw [BitVec.toNat_append, BitVec.toNat_append, ← Nat.shiftLeft_add_eq_or_of_lt code.isLt, Nat.shiftLeft_eq]
  simp

/-- What `ERRLAST` records of a raised cause: zeros above, the cause below. -/
theorem errLast_fields (opc code : BitVec 8) :
    (0#16 ++ opc ++ code : BitVec 32).extractLsb' 16 16 = 0#16 ∧
      (0#16 ++ opc ++ code : BitVec 32).extractLsb' 0 8 = code := by
  have ho := opc.isLt
  have hc := code.isLt
  constructor <;> apply BitVec.eq_of_toNat_eq <;>
    rw [BitVec.extractLsb'_toNat, errLast_toNat, Nat.shiftRight_eq_div_pow]
  · show _ = 0
    omega
  · omega

theorem State.ErrorsOk.finish {s : State} (h : s.ErrorsOk) (opc ch : BitVec 8) (c : Cause) (v : BitVec 32) :
    (s.finish opc ch c v).ErrorsOk := by
  refine ⟨errFlagsAfter_reserved h.flags_reserved c, ?_, ?_⟩ <;> rw [State.finish_errLast]
  · cases c with
    | ok => exact h.last_reserved
    | _ => exact (errLast_fields opc _).1
  · cases c with
    | ok => exact h.last_cause
    | _ =>
      simp only [errLastAfter, (errLast_fields opc _).2]
      exact Cause.code_le _

/-! ## The biquad (10_state.md R35) -/

/-- Everything `State.CoefOk` speaks of. -/
def State.biquadRegs (s : State) : (Bool × Coeffs × F32) × (BqType × BqForm × F32 × F32 × F32) :=
  ((s.bqValid, s.coef, s.sr), (s.bqType, s.bqForm, s.bqF, s.bqQ, s.bqG))

/-- With a finite `SR` the test of the parameters draws no NaN, so it sees the parameters alone. -/
theorem State.bqParamsValid_congr {s t : State} (hf : fisfinite s.sr = true) (h : t.biquadRegs = s.biquadRegs) :
    t.bqParamsValid = s.bqParamsValid := by
  simp only [State.biquadRegs, Prod.mk.injEq] at h
  obtain ⟨⟨-, -, hsr⟩, -, -, hF, hQ, -⟩ := h
  have h2 : fisfinite c2 = true := by decide
  have h2' : isZero c2 = false := by decide
  unfold State.bqParamsValid
  rw [hsr, hF, hQ, fdiv_of_finite _ hf h2 h2', fdiv_of_finite _ hf h2 h2']

theorem State.CoefOk.congr {s t : State} (hs : s.CoefOk) (hf : fisfinite s.sr = true)
    (h : t.biquadRegs = s.biquadRegs) : t.CoefOk := by
  have hp := State.bqParamsValid_congr hf h
  simp only [State.biquadRegs, Prod.mk.injEq] at h
  obtain ⟨⟨hv, hc, hsr⟩, hT, hF, hf, hq, hg⟩ := h
  unfold State.CoefOk State.newCoeffs at *
  simpa only [hp, hv, hc, hsr, hT, hF, hf, hq, hg] using hs

/-- After an update `BQVALID` = 1 says what R35 asks. -/
theorem State.updateCoefficients_coefOk (s : State) : s.updateCoefficients.CoefOk := by
  rcases s.updateCoefficients_cases with ⟨hs, hu⟩ | ⟨-, hu⟩ <;> rw [hu] <;> intro hv
  · have ⟨hp, ha⟩ : s.bqParamsValid = true ∧ (s.newCoeffs s.nan).acceptable s.bqForm = true := by
      simpa [State.updateSucceeds] using hs
    exact ⟨hp, ha, s.draws, rfl⟩
  · cases hv

/-! ## The configured line (10_state.md R26, R32) -/

/-- The registers of a channel of a configured line: the pointer and the pitch-shift delay are in range. -/
structure ChanRegs.InRange (r : ChanRegs) (cap : Nat) : Prop where
  widx : r.widx < cap
  psdly_finite : fisfinite r.psdly = true
  psdly_range : delayInRange r.psdly (i2f cap) = true

/-- What R26 and R32 ask of a configured line. -/
structure State.Configured (s : State) : Prop where
  cap_pos : 1 ≤ s.cap
  cap_le : s.cap ≤ s.capMax
  dly_finite : fisfinite s.dly = true
  dly_range : delayInRange s.dly s.capF = true
  chans : ∀ ch : BitVec 8, ch.toNat < s.nch → (s.chan ch).InRange s.cap

/-- The two invariants of the line in one. -/
def State.LineAndPitchOk (s : State) : Prop := (s.dlConf = true → s.Configured) ∧ (s.dlConf = false → s.cap = 0)

theorem State.lineAndPitchOk_iff (s : State) : s.LineAndPitchOk ↔ s.LineOk ∧ s.PitchOk := by
  constructor
  · rintro ⟨hc, hn⟩
    refine ⟨⟨fun hd => ⟨(hc hd).cap_pos, (hc hd).cap_le⟩, fun hd ch h => ((hc hd).chans ch h).widx,
      fun hd => ⟨(hc hd).dly_finite, (hc hd).dly_range⟩, hn⟩, fun hd ch h => ?_⟩
    exact ⟨((hc hd).chans ch h).psdly_finite, ((hc hd).chans ch h).psdly_range⟩
  · rintro ⟨hl, hp⟩
    refine ⟨fun hd => ?_, hl.noconf_cap⟩
    obtain ⟨hpos, hle⟩ := hl.conf_cap hd
    obtain ⟨hfin, hran⟩ := hl.conf_dly hd
    exact ⟨hpos, hle, hfin, hran, fun ch h => ⟨hl.conf_widx hd ch h, (hp hd ch h).1, (hp hd ch h).2⟩⟩

/-- A delay in range of a capacity is finite: an infinity is above every capacity. -/
theorem finite_of_delayInRange {d : F32} {c : Nat} (hc : c ≤ 2 ^ 24) (h : delayInRange d (i2f c) = true) :
    fisfinite d = true := by
  have hC := (i2f_capacity hc).1
  have h0 : signedUnits c0 = 0 := by decide
  simp only [delayInRange, fle, flt, Bool.and_eq_true, decide_eq_true_eq, h0, signedUnits_of_nonneg hC.1] at h
  obtain ⟨⟨-, hnonneg⟩, -, hlt⟩ := h
  by_contra hd
  have hinf : 0x7F800000 ≤ magBits d := by rw [fisfinite_iff] at hd; omega
  have hunits : units (i2f c) < units d := by
    rw [units_eq, units_eq]
    exact magUnits_strictMono (((fisfinite_iff _).mp hC.2).trans_le hinf)
  cases hsign : signBit d <;> simp only [signedUnits, hsign, if_true, Bool.false_eq_true, if_false] at hnonneg hlt
  · omega
  · omega

variable {s u : State} {i : Instr}

/-- A write of the registers of one channel that keeps them in range. -/
theorem State.Configured.setChan (h : s.Configured) {ch : BitVec 8} {r : ChanRegs}
    (hr : ch.toNat < s.nch → r.InRange s.cap) : (s.setChan ch r).Configured where
  __ := h
  chans := fun ch' hch => by
    rcases s.chan_setChan_cases ch r ch' with ⟨rfl, he⟩ | he <;> rw [he]
    · exact hr hch
    · exact h.chans ch' hch

/-- A map over the registers of every channel that keeps them in range. -/
theorem ChanRegs.inRange_map {f : ChanRegs → ChanRegs} {cap : Nat} (hs : s.ShapeOk) {ch : BitVec 8}
    (hch : ch.toNat < s.nch) (h : (f (s.chan ch)).InRange cap) :
    ((s.chans.map f).getD ch.toNat ChanRegs.cleared).InRange cap := by
  have hl : ch.toNat < s.chans.length := by
    have h1 := hs.nch_le; have h2 := hs.chans_length; omega
  rw [s.getD_map_chans ch f hl]
  exact h

/-- A push advances the pointer within the capacity. -/
theorem State.Configured.push (h : s.Configured) (ch : BitVec 8) (x : F32) : (s.push ch x).Configured :=
  State.Configured.setChan (s := s.memWrite ch (s.chan ch).widx x) { h with }
    fun hch => { h.chans ch hch with widx := advance_lt _ h.cap_pos }

/-- The time of a channel is no part of it. -/
theorem State.Configured.advanceTime (h : s.Configured) (ch : BitVec 8) : (s.advanceTime ch).Configured :=
  h.setChan fun hch => { h.chans ch hch with }

/-- A slewed delay the step accepts is in range. -/
theorem State.Configured.setPsdly (h : s.Configured) (ch : BitVec 8) {d : F32} (hf : fisfinite d = true)
    (hr : delayInRange d s.capF = true) : (s.setChan ch { s.chan ch with psdly := d }).Configured :=
  h.setChan fun hch => { h.chans ch hch with psdly_finite := hf, psdly_range := hr }

/-! ## The parts that see neither the RAM nor the channels -/

theorem State.paramsOk_beside (s : State) : s.ParamsOk ↔ s.besideRamAndChans.ParamsOk :=
  ⟨fun h => { h with }, fun h => { h with }⟩

theorem State.errorsOk_beside (s : State) : s.ErrorsOk ↔ s.besideRamAndChans.ErrorsOk :=
  ⟨fun h => { h with }, fun h => { h with }⟩

theorem State.finiteOk_beside (s : State) : s.FiniteOk ↔ s.besideRamAndChans.FiniteOk :=
  ⟨fun h => { h with }, fun h => { h with }⟩

theorem State.rateOk_beside (s : State) : s.RateOk ↔ s.besideRamAndChans.RateOk :=
  ⟨fun h => { h with }, fun h => { h with }⟩

/-- Such a part holds of any two states that are alike beside the RAM and the channels, or of neither. -/
theorem State.of_beside {P : State → Prop} (hP : ∀ z : State, P z ↔ P z.besideRamAndChans)
    (h : u.besideRamAndChans = s.besideRamAndChans) (hs : P s) : P u := by
  rw [hP u, h]
  exact (hP s).mp hs

/-! ## The parts of the invariant over the writes of a command -/

/-- The operands `PREPARE` takes (40_lifecycle.md R101). -/
theorem State.prepareRefuses_eq_false {n : BitVec 8} {rate : F32} (h : s.prepareRefuses n rate = false) :
    n.toNat ≤ s.nchMax ∧ fisfinite rate = true := by
  simp only [State.prepareRefuses, Bool.or_eq_false_iff, decide_eq_false_iff_not, Bool.not_eq_false'] at h
  obtain ⟨⟨⟨-, hn⟩, hf⟩, -⟩ := h
  exact ⟨by omega, hf⟩

theorem Writes.paramsOk (h : Writes s i u) (hs : s.Inv) : u.ParamsOk := by
  cases h with
  | dlPush | dlStep | mdStep | psPushed | psSlewed | bqStep | napfStep =>
    exact State.of_beside State.paramsOk_beside (by simp) hs.params
  | _ => exact { hs.params with }

theorem Writes.shapeOk (h : Writes s i u) (hs : s.Inv) : u.ShapeOk := by
  have hl := hs.shape.chans_length
  cases h with
  | prepared n rate accepted =>
    exact ⟨by simpa using hl, (State.prepareRefuses_eq_false accepted).1⟩
  | dlConfigured | bqSetForm | dlPush | dlStep | mdStep | psPushed | psSlewed | bqStep | napfStep =>
    exact ⟨by simpa using hl, by simpa using hs.shape.nch_le⟩
  | psSetSemitones =>
    refine ⟨?_, hs.shape.nch_le⟩
    simp only [State.seedPitchDelay_chans]
    split <;> simpa using hl
  | _ => exact { hs.shape with }

theorem Writes.ramOk (h : Writes s i u) (hs : s.Inv) : u.mem.wf = true := by
  cases h with
  | dlConfigured => exact Memory.fillRows_wf hs.ram _ _
  | dlPush | dlStep | mdStep | psPushed | psSlewed => exact Memory.write_wf hs.ram _ _
  | _ => exact hs.ram

theorem Writes.errorsOk (h : Writes s i u) (hs : s.Inv) : u.ErrorsOk := by
  cases h with
  | clrerr => constructor <;> simp
  | dlPush | dlStep | mdStep | psPushed | psSlewed | bqStep | napfStep =>
    exact State.of_beside State.errorsOk_beside (by simp) hs.errors
  | _ => exact { hs.errors with }

theorem Writes.coefOk (h : Writes s i u) (hs : s.Inv) : u.CoefOk := by
  cases h with
  | prepareRefused => exact nofun
  | prepared | bqSetType | bqSetForm | bqSetFreq | bqSetQ | bqSetGain | bqUpdate =>
    exact State.updateCoefficients_coefOk _
  | dlPush | dlStep | mdStep | psPushed | psSlewed | bqStep | napfStep =>
    exact hs.coef.congr hs.finite.sr (by simp [State.biquadRegs])
  | _ => exact hs.coef.congr hs.finite.sr rfl

theorem Writes.finiteOk (h : Writes s i u) (hs : s.Inv) : u.FiniteOk := by
  cases h with
  | prepared n rate accepted => exact { hs.finite with sr := (State.prepareRefuses_eq_false accepted).2 }
  | dlSetNotediv v finite => exact { hs.finite with noteDiv := finite }
  | mdSetDepth samples finite => exact { hs.finite with mdDepth := finite }
  | mdSetBase samples finite => exact { hs.finite with mdBase := finite }
  | mdSetPredelayMs ms finite => exact { hs.finite with mdBase := finite }
  | psSetSemitones semitones finite rateFinite => exact { hs.finite with psSemi := finite, psRate := rateFinite }
  | bqSetFreq hz finite => exact { hs.finite with bqF := finite }
  | bqSetQ q finite => exact { hs.finite with bqQ := finite }
  | bqSetGain db finite => exact { hs.finite with bqG := finite }
  | napfSetG1 g finite => exact { hs.finite with g1 := finite }
  | napfSetG2 g finite => exact { hs.finite with g2 := finite }
  | dlPush | dlStep | mdStep | psPushed | psSlewed | bqStep | napfStep =>
    exact State.of_beside State.finiteOk_beside (by simp) hs.finite
  | _ => exact { hs.finite with }

theorem Writes.rateOk (h : Writes s i u) (hs : s.Inv) : u.RateOk := by
  cases h with
  | mdSetMode m =>
    obtain ⟨hf, hlo, hhi⟩ := rateHz_in_band s.nan m hs.rate.rate_finite hs.rate.rate_low hs.rate.rate_high
    exact { hs.rate with hz_finite := hf, hz_low := hlo, hz_high := hhi }
  | mdSetRate percent ok =>
    obtain ⟨hrf, hr0, hr1⟩ := rate_of_percent (s.nan 3) ok
    obtain ⟨hf, hlo, hhi⟩ := rateHz_in_band s.nan s.mdMode hrf hr0 hr1
    exact ⟨hrf, hr0, hr1, hf, hlo, hhi⟩
  | dlPush | dlStep | mdStep | psPushed | psSlewed | bqStep | napfStep =>
    exact State.of_beside State.rateOk_beside (by simp) hs.rate
  | _ => exact { hs.rate with }

/-- A biquad step leaves the pointer and the pitch-shift delay alone. -/
theorem ChanRegs.InRange.biquadMemory {r : ChanRegs} {cap : Nat} (h : r.InRange cap) (nan : Nat → F32) (form : BqForm)
    (k : Coeffs) (x : F32) : (biquadMemory nan form k r x).InRange cap := by
  cases form <;> exact { h with }

/-- A capacity `DL_CONFIG` takes configures the line, whatever it was. -/
theorem State.configureLine_configured {c : Nat} (hs : s.Inv) (hpos : 1 ≤ c) (hle : c ≤ s.capMax) :
    (s.configureLine c).Configured := by
  have hc : c ≤ 2 ^ 24 := hle.trans hs.params.capMax_le
  obtain ⟨hf, hr⟩ := psInit_in_range s.nan hs.finite.psRate hpos hc
  exact ⟨hpos, hle, plain_c0.2, zero_in_range hpos hc,
    fun ch hch => ChanRegs.inRange_map hs.shape hch ⟨hpos, hf, hr⟩⟩

/-- A new rate seeds the pitch-shift delay of every channel in range. -/
theorem State.Configured.seedPitchDelay (h : s.Configured) (hs : s.Inv) {rate : F32} (hrate : fisfinite rate = true)
    (hd : s.dlConf = true) : (s.seedPitchDelay rate).Configured where
  __ := h
  chans := fun ch hch => by
    have hc : s.cap ≤ 2 ^ 24 := h.cap_le.trans hs.params.capMax_le
    obtain ⟨hf, hr⟩ := psInit_in_range (laterDraws s.nan 2) hrate h.cap_pos hc
    simp only [State.chan, State.seedPitchDelay_chans, hd, if_true]
    exact ChanRegs.inRange_map hs.shape hch { h.chans ch hch with psdly_finite := hf, psdly_range := hr }

/-- While the line stays configured, every write keeps what a configured line has. -/
theorem Writes.configured (h : Writes s i u) (hs : s.Inv) (hc : s.dlConf = true → s.Configured)
    (hd : u.dlConf = true) : u.Configured := by
  cases h with
  | prepareRefused | prepared | dlUnconfigured => cases hd
  | dlConfigured n capacity pos le => exact State.configureLine_configured hs pos le
  | dlSetDelay samples d range =>
    have hs' := hc hd
    exact { hs' with
      dly_finite := finite_of_delayInRange (hs'.cap_le.trans hs.params.capMax_le) range, dly_range := range }
  | dlSetDelayBpm bpm d range =>
    have hs' := hc hd
    exact { hs' with
      dly_finite := finite_of_delayInRange (hs'.cap_le.trans hs.params.capMax_le) range, dly_range := range }
  | dlPush ch x => exact (hc hd).push ch x
  | dlStep ch x => exact (hc hd).push ch x
  | psPushed ch x => exact (hc hd).push ch x
  | mdStep ch x => exact ((hc hd).push ch x).advanceTime ch
  | psSlewed ch x ok =>
    simp only [State.slewOk, Bool.and_eq_true] at ok
    exact ((hc hd).push ch x).setPsdly ch ok.1 ok.2
  | psSetSemitones semitones finite rateFinite => exact { (hc hd).seedPitchDelay hs rateFinite hd with }
  | bqSetForm f =>
    exact { hc hd with chans := fun ch hch => ChanRegs.inRange_map hs.shape hch { (hc hd).chans ch hch with } }
  | bqStep ch x => exact (hc hd).setChan fun hch => ((hc hd).chans ch hch).biquadMemory _ _ _ _
  | napfStep ch x => exact (hc hd).setChan fun hch => { (hc hd).chans ch hch with }
  | _ => exact { hc hd with }

/-- While the line is not configured the capacity is 0. -/
theorem Writes.cap_eq_zero (h : Writes s i u) (hc : s.dlConf = false → s.cap = 0) (hd : u.dlConf = false) :
    u.cap = 0 := by
  cases h with
  | prepareRefused | prepared | dlUnconfigured => rfl
  | dlConfigured => cases hd
  | mdStep | psSlewed => simpa using hc (by simpa using hd)
  | _ => exact hc hd

/-- The writes of a command keep every invariant. -/
theorem Writes.inv (h : Writes s i u) (hs : s.Inv) : u.Inv := by
  obtain ⟨hc, hn⟩ := s.lineAndPitchOk_iff.mpr ⟨hs.line, hs.pitch⟩
  obtain ⟨hl, hp⟩ := u.lineAndPitchOk_iff.mp ⟨h.configured hs hc, h.cap_eq_zero hn⟩
  exact ⟨h.paramsOk hs, h.shapeOk hs, h.ramOk hs, h.errorsOk hs, hl, hp, h.coefOk hs, h.finiteOk hs, h.rateOk hs⟩

/-! ## The end of a command, and the step -/

/-- The end of a command writes the error registers, the responses and the draw counter. -/
theorem State.Inv.finish (hs : s.Inv) (opc ch : BitVec 8) (c : Cause) (v : BitVec 32) : (s.finish opc ch c v).Inv where
  params := { hs.params with }
  shape := { hs.shape with }
  ram := hs.ram
  errors := hs.errors.finish opc ch c v
  line := { hs.line with }
  pitch := hs.pitch
  coef := hs.coef.congr hs.finite.sr rfl
  finite := { hs.finite with }
  rate := { hs.rate with }

/-- No invariant speaks of the words that wait. -/
theorem State.Inv.take (hs : s.Inv) (rest : List Word64) : { s with cmdIn := rest }.Inv where
  params := { hs.params with }
  shape := { hs.shape with }
  ram := hs.ram
  errors := { hs.errors with }
  line := { hs.line with }
  pitch := hs.pitch
  coef := hs.coef
  finite := { hs.finite with }
  rate := { hs.rate with }

/-- Every command keeps the invariants. -/
theorem exec_inv (i : Instr) (hs : s.Inv) : ∃ t, exec i s = .next t ∧ t.Inv := by
  obtain ⟨u, c, v, hu, hw⟩ := exec_writes i s
  exact ⟨_, hu, (hw.inv hs).finish _ _ _ _⟩

end Sys2Proof.Machine

namespace Sys2Proof
open Machine

/-- Settles O58: a step idles, performs one command, or answers an illegal word. -/
theorem stepKeepsInvariants : Obligations.StepKeepsInvariants := by
  intro s hs
  rcases step_cases s with ⟨-, h⟩ | ⟨w, rest, i, -, -, h⟩ | ⟨w, rest, e, -, -, h⟩
  · exact ⟨s, h, hs⟩
  · rw [h]
    exact exec_inv i (hs.take rest)
  · exact ⟨_, h, (hs.take rest).finish _ _ _ _⟩

end Sys2Proof
end

section
/-!
Wrap-around correctness (20_memory.md R64, O32): what a whole delay names after a push, the commands that push on a
channel and those that leave its row alone, and a run over any words.
-/
namespace Sys2Proof.Machine

/-! ## Runs over a list of words -/

/-- A step takes the first of the waiting words and leaves the rest. -/
theorem step_cmdIn {s t : State} {w : Word64} {rest : List Word64} (hc : s.cmdIn = w :: rest) (ht : step s = .next t) :
    t.cmdIn = rest := by
  cases hd : decode w with
  | error e =>
    cases (step_of_decode_error hc hd).symm.trans ht
    rfl
  | ok i =>
    obtain ⟨u, c, v, hu, hk, -⟩ := exec_ends i { s with cmdIn := rest }
    cases ((step_of_decode hc hd).trans hu).symm.trans ht
    exact hk.cmdIn

/-- A property of the words performed so far that each word keeps holds after all that wait. -/
theorem run_words {P : List Word64 → State → Prop} {ws : List Word64}
    (hstep : ∀ done w rest s, w ∈ ws → s.cmdIn = w :: rest → P done s → ∃ t, step s = .next t ∧ P (done ++ [w]) t)
    {done : List Word64} {s : State} (hc : s.cmdIn = ws) (h : P done s) :
    ∃ t, Host.Core.run Sys2Proof.core ws.length s = .next t ∧ P (done ++ ws) t := by
  induction ws generalizing done s with
  | nil => exact ⟨s, rfl, by simpa using h⟩
  | cons w ws ih =>
    obtain ⟨t, ht, hP⟩ := hstep done w ws s List.mem_cons_self hc h
    obtain ⟨t', hrun, hP'⟩ := ih (fun done w rest s hw => hstep done w rest s (List.mem_cons_of_mem _ hw))
      (step_cmdIn hc ht) hP
    exact ⟨t', (run_succ ht).trans hrun, by simpa using hP'⟩

/-! ## The first word -/

/-- The decoder reads from a command's word the fields the encoder put there. -/
theorem decode_encode_eq_decodeFields (i : Instr) :
    decode (encode i) = decodeFields i.opcode i.channel i.selector i.operand := by
  obtain ⟨ho, hc, hs, hr, hv⟩ :=
    Sys2Proof.Laws.EncodeFields.fields_commandWord i.opcode i.channel i.selector 0#8 i.operand
  unfold decode encode
  rw [ho, hc, hs, hr, hv, if_pos rfl]

theorem decode_encode_dlConfig (n : BitVec 8) (capacity : BitVec 32) :
    decode (encode (.dlConfig n capacity)) = .ok (.dlConfig n capacity) := by
  rw [decode_encode_eq_decodeFields]
  rfl

/-- A positive operand of kind `S` is its pattern read as a natural number (30_encoding.md R82). -/
theorem operandS_toNat {v : BitVec 32} (h : 0 < v.toInt) : (operandS v).toNat = v.toNat := by
  have := v.isLt
  unfold operandS
  rw [BitVec.toInt_eq_toNat_cond] at h ⊢
  omega

/-- A `DL_CONFIG` whose operands are good configures the line (41_delay_line.md R111). -/
theorem exec_dlConfig_ok {s : State} {n : BitVec 8} {capacity : BitVec 32} (hp : s.prepared = true)
    (hn : n.toNat = s.nch) (hpos : 0 < capacity.toInt) (hle : capacity.toInt ≤ (s.capMax : Int)) :
    exec (.dlConfig n capacity) s = .next ((s.configureLine capacity.toNat).finish 0x10#8 0#8 .ok capacity) := by
  have hrange : ¬(operandS capacity ≤ 0 ∨ (s.capMax : Int) < operandS capacity) := by
    unfold operandS
    omega
  rw [show exec (.dlConfig n capacity) s = _ from
    State.checked_pass (needsLine := false) (hasChannel := false) (.dlConfig n capacity) _ hp nofun nofun,
    if_neg hrange, if_neg (by simpa using hn), operandS_toNat hpos]
  rfl

/-! ## The slots of whole delays (20_memory.md R62) -/

/-- The slot of a whole delay, with one remainder. -/
theorem delayedSlot_eq_modCap (w : Nat) (n : Int) {c : Nat} (hc : 1 ≤ c) :
    delayedSlot w c n = modCap ((w : Int) - (1 + n)) c := by
  unfold delayedSlot newestSlot
  rw [modCap_modCap_sub _ _ hc, Int.sub_sub]

/-- After an advance every slot is named by a delay one greater. -/
theorem delayedSlot_advance_succ (w : Nat) (n : Int) {c : Nat} (hc : 1 ≤ c) :
    delayedSlot (advance w c) c (n + 1) = delayedSlot w c n := by
  rw [delayedSlot_eq_modCap _ _ hc, delayedSlot_eq_modCap _ _ hc, advance, modCap_modCap_sub _ _ hc]
  congr 1
  omega

/-- The slot an advance has passed is the newest. -/
theorem delayedSlot_advance_zero {w c : Nat} (hw : w < c) : delayedSlot (advance w c) c 0 = w := by
  rw [delayedSlot, newestSlot_advance hw, Int.sub_zero, modCap_natCast, Nat.mod_eq_of_lt hw]

/-- The slot of a whole delay as the obligation O32 writes it. -/
theorem delayedSlot_eq_mod (w : Nat) {c d : Nat} (hd : d < c) : delayedSlot w c (d : Int) = (w + c - 1 - d) % c := by
  rw [delayedSlot_eq w d (by omega) (by omega), show w + 2 * c - 1 - d = w + c - 1 - d + c by omega, Nat.add_mod_right]

/-- The next slot to be written is the oldest: no smaller delay names it. -/
theorem delayedSlot_ne {w c d : Nat} (hw : w < c) (hd : d + 1 < c) : delayedSlot w c (d : Int) ≠ w := by
  rw [delayedSlot_eq_mod w (by omega)]
  rcases Nat.lt_or_ge d w with h | h
  · rw [show w + c - 1 - d = w - 1 - d + c by omega, Nat.add_mod_right, Nat.mod_eq_of_lt (by omega)]
    omega
  · rw [Nat.mod_eq_of_lt (by omega)]
    omega

/-! ## A line that holds the samples written to it -/

/-- The configured line of a channel has capacity `cap`, and the delay `d` names the `d`-th of the samples `hist`, the most
recent first, or +0.0 beyond their end. -/
structure State.Holds (s : State) (ch : BitVec 8) (cap : Nat) (hist : List F32) : Prop where
  ready : s.LineReady ch
  cap_eq : s.cap = cap
  widx_lt : (s.chan ch).widx < cap
  samples : ∀ d : Nat, d < cap → s.tap ch d = hist.getD d c0

/-- From `s` to `u` nothing that the line of a channel holds has changed. -/
structure State.SameLine (s u : State) (ch : BitVec 8) : Prop where
  prepared : u.prepared = s.prepared
  line : u.lineShape = s.lineShape
  nchMax : u.nchMax = s.nchMax
  length : u.chans.length = s.chans.length
  ram : s.mem.wf = true → u.mem.wf = true
  widx : (u.chan ch).widx = (s.chan ch).widx
  row : ∀ k, u.memRead ch k = s.memRead ch k

variable {s t u : State} {ch : BitVec 8} {cap : Nat} {hist : List F32} {i : Instr} {x : F32}

theorem State.SameLine.trans (h : s.SameLine t ch) (h' : t.SameLine u ch) : s.SameLine u ch where
  prepared := h'.prepared.trans h.prepared
  line := h'.line.trans h.line
  nchMax := h'.nchMax.trans h.nchMax
  length := h'.length.trans h.length
  ram hw := h'.ram (h.ram hw)
  widx := h'.widx.trans h.widx
  row k := (h'.row k).trans (h.row k)

/-- A write of registers that are no part of the line. -/
theorem State.SameLine.of_registers (hp : u.prepared = s.prepared) (hl : u.lineShape = s.lineShape)
    (hn : u.nchMax = s.nchMax) (hc : u.chans = s.chans) (hm : u.mem = s.mem) : s.SameLine u ch where
  prepared := hp
  line := hl
  nchMax := hn
  length := by rw [hc]
  ram := by rw [hm]; exact id
  widx := by simp only [State.chan, hc]
  row k := by simp only [State.memRead, hm]

theorem State.SameLine.refl (s : State) (ch : BitVec 8) : s.SameLine s ch := .of_registers rfl rfl rfl rfl rfl

/-- A map over the registers of every channel that keeps the pointers. -/
theorem State.SameLine.of_map {f : ChanRegs → ChanRegs} (hf : ∀ r, (f r).widx = r.widx)
    (hp : u.prepared = s.prepared) (hl : u.lineShape = s.lineShape) (hn : u.nchMax = s.nchMax)
    (hc : u.chans = s.chans.map f) (hm : u.mem = s.mem) : s.SameLine u ch where
  prepared := hp
  line := hl
  nchMax := hn
  length := by rw [hc, List.length_map]
  ram := by rw [hm]; exact id
  widx := by
    rw [State.chan, hc]
    rcases s.getD_map_chans_cases f ch with h | h <;> rw [h]
    exact hf _
  row k := by simp only [State.memRead, hm]

/-- A write of one channel's registers that keeps its pointer. -/
theorem State.SameLine.setChan {c : BitVec 8} {r : ChanRegs} (hr : r.widx = (s.chan c).widx) :
    s.SameLine (s.setChan c r) ch where
  prepared := rfl
  line := rfl
  nchMax := rfl
  length := s.setChan_length c r
  ram := id
  widx := by
    rcases s.chan_setChan_cases c r ch with ⟨rfl, h⟩ | h <;> rw [h]
    exact hr
  row _ := rfl

/-- A push on another channel. -/
theorem State.SameLine.push {c : BitVec 8} (hc : c ≠ ch) (x : F32) : s.SameLine (s.push c x) ch where
  prepared := rfl
  line := rfl
  nchMax := rfl
  length := s.push_length c x
  ram hw := Memory.write_wf hw _ _
  widx := by rw [s.push_chan_other x hc.symm]
  row _ := s.push_memRead_other x (.inl hc.symm)

theorem State.SameLine.finish (s : State) (ch opc c : BitVec 8) (e : Cause) (v : BitVec 32) :
    s.SameLine (s.finish opc c e v) ch :=
  .of_registers rfl rfl rfl rfl rfl

/-- A line that has not changed holds what it held. -/
theorem State.Holds.congr (h : s.Holds ch cap hist) (hu : s.SameLine u ch) : u.Holds ch cap hist := by
  have hl := hu.line
  simp only [State.lineShape, Prod.mk.injEq] at hl
  obtain ⟨hconf, hcap, hnch⟩ := hl
  obtain ⟨⟨hp, hch, ⟨hlen, hle⟩⟩, hd, hw⟩ := h.ready
  refine ⟨⟨⟨hu.prepared.trans hp, hnch ▸ hch, ⟨?_, ?_⟩⟩, hconf.trans hd, hu.ram hw⟩, hcap.trans h.cap_eq, ?_,
    fun d hdc => ?_⟩
  · rw [hu.length, hu.nchMax, hlen]
  · rw [hnch, hu.nchMax]
    exact hle
  · rw [hu.widx]
    exact h.widx_lt
  · rw [State.tap, hu.row, hu.widx, hcap]
    exact h.samples d hdc

/-- A push on the channel comes before all that the line held. -/
theorem State.Holds.push (h : s.Holds ch cap hist) (x : F32) : (s.push ch x).Holds ch cap (x :: hist) := by
  obtain ⟨hready, hconf, hram⟩ := h.ready
  have hpos : 1 ≤ cap := Nat.one_le_of_lt h.widx_lt
  have hwidx : ((s.push ch x).chan ch).widx = advance (s.chan ch).widx cap := by
    rw [s.push_chan_same ch x hready.lt_length, h.cap_eq]
  have htap (n : Int) : (s.push ch x).tap ch n =
      (s.push ch x).memRead ch (delayedSlot (advance (s.chan ch).widx cap) cap n) := by
    rw [State.tap, hwidx, State.push_cap, h.cap_eq]
  have hshape : (s.push ch x).ShapeOk :=
    ⟨(s.push_length ch x).trans hready.shape.chans_length, hready.shape.nch_le⟩
  refine ⟨⟨⟨hready.prepared, hready.channel, hshape⟩, hconf, Memory.write_wf hram _ _⟩, h.cap_eq,
    hwidx ▸ advance_lt _ hpos, fun d hd => ?_⟩
  cases d with
  | zero =>
    rw [htap, Int.natCast_zero, delayedSlot_advance_zero h.widx_lt, s.push_memRead_same ch x hram]
    rfl
  | succ d =>
    rw [htap, Int.natCast_succ, delayedSlot_advance_succ _ _ hpos,
      s.push_memRead_other x (.inr (delayedSlot_ne h.widx_lt hd)), List.getD_cons_succ,
      ← h.samples d (Nat.lt_of_succ_lt hd), State.tap, h.cap_eq]

/-- After a `DL_CONFIG` the line of a prepared channel holds no sample: it reads +0.0 everywhere. -/
theorem State.configureLine_holds (hr : s.ChannelReady ch) (hw : s.mem.wf = true) (hcap : 1 ≤ cap) :
    (s.configureLine cap).Holds ch cap [] := by
  have hwidx : ((s.configureLine cap).chan ch).widx = 0 := by
    rw [State.chan, State.configureLine_chans, s.getD_map_chans ch _ hr.lt_length]
  have hshape : (s.configureLine cap).ShapeOk := ⟨by simpa using hr.shape.chans_length, hr.shape.nch_le⟩
  refine ⟨⟨⟨hr.prepared, hr.channel, hshape⟩, rfl, Memory.fillRows_wf hw _ _⟩, rfl, hwidx ▸ hcap, fun d _ => ?_⟩
  rw [State.tap, s.configureLine_memRead, if_pos ⟨hr.channel, delayedSlot_lt _ _ hcap⟩]
  rfl

/-! ## What a command does to the line of a channel -/

/-- A command that is no `PREPARE` or `DL_CONFIG` and pushes nothing on the channel leaves its line alone. -/
theorem Writes.sameLine (h : Writes s i u) (hprep : ∀ n rate, i ≠ .prepare n rate)
    (hconf : ∀ n c, i ≠ .dlConfig n c) (hpush : i.pushed ch = none) : s.SameLine u ch := by
  have hother {c : BitVec 8} {x : F32} (h : (if c = ch then some x else none) = none) : c ≠ ch := by simpa using h
  cases h with
  | prepareRefused n rate | prepared n rate => exact absurd rfl (hprep n rate)
  | dlUnconfigured n c | dlConfigured n c => exact absurd rfl (hconf n c)
  | dlPush c x | dlStep c x | psPushed c x => exact .push (hother hpush) x
  | mdStep c x | psSlewed c x => exact .trans (.push (hother hpush) x) (.setChan rfl)
  | napfStep c x => exact .setChan rfl
  | bqStep c x => exact .setChan (by cases s.bqForm <;> rfl)
  | bqSetForm f => exact .of_map (f := ChanRegs.clearBiquad) (fun _ => rfl) rfl rfl rfl rfl rfl
  | psSetSemitones semitones =>
    cases hd : s.dlConf
    · exact .of_registers rfl rfl rfl (by simp [hd]) rfl
    · exact .of_map (f := fun r => { r with psdly := psInit (laterDraws s.nan 2) (s.delayRate semitones) s.cap })
        (fun _ => rfl) rfl rfl rfl (by simp [hd]) rfl
  | _ => exact .of_registers rfl rfl rfl rfl rfl

/-- A command that pushes on a ready channel ends with the line as the push leaves it. -/
theorem exec_pushed (hr : s.LineReady ch) (hpush : i.pushed ch = some x) :
    ∃ u c v, exec i s = .next (u.finish i.opcode i.channel c v) ∧ (s.push ch x).SameLine u ch := by
  have hsame {c : BitVec 8} {y : F32} (h : (if c = ch then some y else none) = some x) : c = ch ∧ y = x := by
    simpa using h
  have hpass (j : Instr) (hj : j.channel = ch) (body : Result) : s.checked j true true x body = body :=
    State.checked_pass j body hr.ready.prepared (fun _ => hr.configured) fun _ => hj ▸ hr.ready.channel
  cases i with
  | dlPush c y =>
    obtain ⟨rfl, rfl⟩ := hsame hpush
    exact ⟨_, _, _, hpass (.dlPush c y) rfl _, .refl _ _⟩
  | dlStep c y =>
    obtain ⟨rfl, rfl⟩ := hsame hpush
    exact ⟨_, _, _, hpass (.dlStep c y) rfl _, .refl _ _⟩
  | mdStep c y =>
    obtain ⟨rfl, rfl⟩ := hsame hpush
    rw [show exec (.mdStep c y) s = _ from hpass (.mdStep c y) rfl _]
    split <;> exact ⟨_, _, _, rfl, .setChan rfl⟩
  | psStep c y =>
    obtain ⟨rfl, rfl⟩ := hsame hpush
    rw [show exec (.psStep c y) s = _ from hpass (.psStep c y) rfl _]
    split
    · exact ⟨_, _, _, rfl, .setChan rfl⟩
    · exact ⟨_, _, _, rfl, .refl _ _⟩
  | _ => cases hpush

/-- A capacity of 0 stays, but for a `DL_CONFIG`. -/
theorem Writes.cap_zero (h : Writes s i u) (hconf : ∀ n c, i ≠ .dlConfig n c) (hcap : s.cap = 0) : u.cap = 0 := by
  cases h with
  | prepareRefused n rate | prepared n rate => rfl
  | dlUnconfigured n c | dlConfigured n c => exact absurd rfl (hconf n c)
  | _ => exact hcap

/-- A `PREPARE` takes the capacity, whether it accepts its operands or refuses them (40_lifecycle.md R101). -/
theorem exec_prepare_cap (n : BitVec 8) (rate : F32) (s : State) :
    ∃ t, exec (.prepare n rate) s = .next t ∧ t.cap = 0 := by
  show ∃ t, execPrepare n rate s = .next t ∧ t.cap = 0
  unfold execPrepare
  split <;> exact ⟨_, rfl, rfl⟩

/-- A command other than `PREPARE` and `DL_CONFIG` puts the sample it pushes on the channel, if any, before the others. -/
theorem exec_holds (h : s.Holds ch cap hist) (hprep : ∀ n rate, i ≠ .prepare n rate)
    (hconf : ∀ n c, i ≠ .dlConfig n c) :
    ∃ t, exec i s = .next t ∧ t.Holds ch cap ((i.pushed ch).toList ++ hist) := by
  cases hpush : i.pushed ch with
  | none =>
    obtain ⟨u, c, v, hu, hw⟩ := exec_writes i s
    exact ⟨_, hu, (h.congr (hw.sameLine hprep hconf hpush)).congr (.finish ..)⟩
  | some x =>
    obtain ⟨u, c, v, hu, hl⟩ := exec_pushed h.ready hpush
    exact ⟨_, hu, ((h.push x).congr hl).congr (.finish ..)⟩

/-! ## What a run does to the line of a channel -/

/-- After the words `done` the line of a channel holds the samples they push on it, or a `PREPARE` among them has taken
its capacity. -/
def Remembers (ch : BitVec 8) (cap : Nat) (done : List Word64) (s : State) : Prop :=
  s.Holds ch cap (done.filterMap (pushedSample ch)).reverse ∨
    (s.cap = 0 ∧ ∃ w ∈ done, ∃ n rate, decode w = .ok (.prepare n rate))

/-- The most recent word comes first in the samples. -/
theorem pushedSamples_append (ch : BitVec 8) (done : List Word64) (w : Word64) :
    ((done ++ [w]).filterMap (pushedSample ch)).reverse =
      (pushedSample ch w).toList ++ (done.filterMap (pushedSample ch)).reverse := by
  cases h : pushedSample ch w <;> simp [h]

/-- Every word but a `DL_CONFIG` keeps it, legal or not. -/
theorem step_remembers {done rest : List Word64} {w : Word64} (hw : ∀ n c, decode w ≠ .ok (.dlConfig n c))
    (hc : s.cmdIn = w :: rest) (h : Remembers ch cap done s) :
    ∃ t, step s = .next t ∧ Remembers ch cap (done ++ [w]) t := by
  unfold Remembers
  rw [pushedSamples_append]
  have htake : s.SameLine { s with cmdIn := rest } ch := .of_registers rfl rfl rfl rfl rfl
  cases hd : decode w with
  | error e =>
    rw [step_of_decode_error hc hd, show pushedSample ch w = none by simp [pushedSample, hd]]
    refine ⟨_, rfl, ?_⟩
    rcases h with h | ⟨hcap, w', hw', hp⟩
    · exact .inl ((h.congr htake).congr (.finish ..))
    · exact .inr ⟨hcap, w', List.mem_append_left _ hw', hp⟩
  | ok i =>
    have hconf (n c) : i ≠ .dlConfig n c := fun hi => hw n c (hi ▸ hd)
    rw [step_of_decode hc hd, show pushedSample ch w = i.pushed ch by simp [pushedSample, hd]]
    rcases h with h | ⟨hcap, w', hw', hp⟩
    · by_cases hprep : ∃ n rate, i = .prepare n rate
      · obtain ⟨n, rate, rfl⟩ := hprep
        obtain ⟨t, ht, ht0⟩ := exec_prepare_cap n rate { s with cmdIn := rest }
        exact ⟨t, ht, .inr ⟨ht0, w, by simp, n, rate, hd⟩⟩
      · obtain ⟨t, ht, hholds⟩ := exec_holds (h.congr htake) (fun n rate hi => hprep ⟨n, rate, hi⟩) hconf
        exact ⟨t, ht, .inl hholds⟩
    · obtain ⟨u, c, v, hu, hwrites⟩ := exec_writes i { s with cmdIn := rest }
      exact ⟨_, hu, .inr ⟨hwrites.cap_zero hconf hcap, w', List.mem_append_left _ hw', hp⟩⟩

end Sys2Proof.Machine

namespace Sys2Proof
open Machine

/-- Settles O32: the `DL_CONFIG` makes the line of the channel hold no sample, every word after it adds the sample it
pushes or, being a `PREPARE`, takes the capacity, and a line holds its samples at the slots of R62. -/
theorem wrapAround : Obligations.WrapAround := by
  intro s ch n capacity ws hprep hshape hram hn hch hpos hle hws
  have hcap : 1 ≤ capacity.toNat := by
    rw [← operandS_toNat hpos, operandS]
    omega
  have hfirst := (step_of_decode (s := { s with cmdIn := encode (.dlConfig n capacity) :: ws }) rfl
    (decode_encode_dlConfig n capacity)).trans (exec_dlConfig_ok (s := { s with cmdIn := ws }) hprep hn hpos hle)
  have hstart : Remembers ch capacity.toNat []
      ((State.configureLine { s with cmdIn := ws } capacity.toNat).finish 0x10#8 0#8 .ok capacity) :=
    .inl ((State.configureLine_holds (s := { s with cmdIn := ws }) ⟨hprep, hch, { hshape with }⟩ hram hcap).congr
      (.finish ..))
  obtain ⟨t, hrun, ht⟩ := run_words (fun _ _ _ _ hw hc h => step_remembers (hws _ hw) hc h) rfl hstart
  refine ⟨t, (run_succ hfirst).trans hrun, fun hnone => ?_, fun d hd => ?_⟩
  · rcases ht with ht | ⟨-, w, hw, m, rate, hp⟩
    · exact ht.cap_eq
    · exact absurd hp (hnone w hw m rate)
  · rcases ht with ht | ⟨h0, -⟩
    · rw [← delayedSlot_eq_mod _ hd]
      exact ht.samples d (ht.cap_eq ▸ hd)
    · omega

end Sys2Proof
end

section
/-!
The decoder and the encoder are inverse to each other (30_encoding.md R81, R85, R86).
-/
namespace Sys2Proof
open Machine

/-! ## Decoding an encoding -/

theorem RegName.ofNumber_number (r : RegName) : RegName.ofNumber r.number = some r := by
  rcases r with r | r <;> cases r <;> rfl

/-- Every well-formed command is decoded from its own word. -/
theorem decode_encode {i : Instr} (hw : i.wellFormed = true) : decode (encode i) = .ok i := by
  rw [decode_encode_eq_decodeFields]
  cases i with
  | rdreg ch reg =>
    have hch : reg.channelOk ch = true := hw
    change decodeRdreg ch reg.number 0#32 = .ok (.rdreg ch reg)
    simp [decodeRdreg, whenZero, RegName.ofNumber_number, hch]
  | dlSetInterp v => cases v <;> rfl
  | mdSetMode m => cases m <;> rfl
  | bqSetType t => cases t <;> rfl
  | bqSetForm f => cases f <;> rfl
  | _ => rfl

/-! ## What a decoded command says of its word -/

/-- The words with these four fields, and zero in the reserved one, are words of the command. -/
structure Instr.HasFields (i : Instr) (opc ch sel : BitVec 8) (opd : BitVec 32) : Prop where
  wellFormed : i.wellFormed = true
  opcode : i.opcode = opc
  channel : i.channel = ch
  selector : i.selector = sel
  operand : i.operand = opd

/-- A well-formed command has its own fields. -/
theorem Instr.HasFields.self {i : Instr} (hw : i.wellFormed = true) :
    i.HasFields i.opcode i.channel i.selector i.operand :=
  ⟨hw, rfl, rfl, rfl, rfl⟩

/-- A result of the decoder that is a command with these fields, if it is a command. -/
def DecodesTo (opc ch sel : BitVec 8) (opd : BitVec 32) (r : Except DecodeError Instr) : Prop :=
  ∀ i, r = .ok i → i.HasFields opc ch sel opd

section
variable {opc ch sel : BitVec 8} {opd : BitVec 32} {r r' : Except DecodeError Instr}

theorem decodesTo_ok {i : Instr} (h : i.HasFields opc ch sel opd) : DecodesTo opc ch sel opd (.ok i) := by
  rintro _ ⟨⟩
  exact h

theorem decodesTo_error (e : DecodeError) : DecodesTo opc ch sel opd (.error e) := nofun

theorem decodesTo_whenZero {n : Nat} {field : BitVec n} {e : DecodeError}
    (h : field = 0#n → DecodesTo opc ch sel opd r) : DecodesTo opc ch sel opd (whenZero field e r) := by
  unfold whenZero
  split
  · exact h ‹_›
  · exact decodesTo_error e

/-- One opcode of the table, and the ones after it. -/
theorem decodesTo_opcode {k : BitVec 8} (h : DecodesTo k ch sel opd r) (h' : DecodesTo opc ch sel opd r') :
    DecodesTo opc ch sel opd (if opc = k then r else r') := by
  split
  · subst opc
    exact h
  · exact h'

theorem decodesTo_bare {i : Instr} (h : i.HasFields opc 0#8 0#8 0#32) :
    DecodesTo opc ch sel opd (decodeBare ch sel opd i) :=
  decodesTo_whenZero fun hc => decodesTo_whenZero fun hs => decodesTo_whenZero fun ho =>
    decodesTo_ok (by rwa [hc, hs, ho])

theorem decodesTo_setter {i : Instr} (h : i.HasFields opc 0#8 0#8 opd) :
    DecodesTo opc ch sel opd (decodeSetter ch sel i) :=
  decodesTo_whenZero fun hc => decodesTo_whenZero fun hs => decodesTo_ok (by rwa [hc, hs])

theorem decodesTo_counted {i : Instr} (h : i.HasFields opc 0#8 sel opd) :
    DecodesTo opc ch sel opd (whenZero ch .channelNonzero (.ok i)) :=
  decodesTo_whenZero fun hc => decodesTo_ok (by rwa [hc])

theorem decodesTo_onChannel {i : Instr} (h : i.HasFields opc ch 0#8 opd) :
    DecodesTo opc ch sel opd (whenZero sel .selectorNonzero (.ok i)) :=
  decodesTo_whenZero fun hs => decodesTo_ok (by rwa [hs])

/-- What is found by its number has that number. -/
theorem key_of_find? {α : Type} {n : Nat} {l : List α} (key : α → BitVec n) {v : BitVec n} {a : α}
    (h : l.find? (fun b => key b == v) = some a) : key a = v := by
  simpa using List.find?_some h

/-- An enumeration setter, whose operand is the value of what `values` lists. -/
theorem decodesTo_enum {α : Type} {values : List α} (value : α → BitVec 32) {mk : α → Instr}
    (h : ∀ a, (mk a).HasFields opc 0#8 0#8 (value a)) :
    DecodesTo opc ch sel opd (decodeEnum ch sel (values.find? fun a => value a == opd) mk) := by
  refine decodesTo_whenZero fun hc => decodesTo_whenZero fun hs => ?_
  split
  · next a ha =>
    rw [hc, hs, ← key_of_find? value ha]
    exact decodesTo_ok (h a)
  · exact decodesTo_error _

theorem decodesTo_rdreg : DecodesTo 0x02#8 ch sel opd (decodeRdreg ch sel opd) := by
  refine decodesTo_whenZero fun ho => ?_
  split
  · next reg hreg =>
    split
    · next hch => exact decodesTo_ok ⟨hch, rfl, rfl, key_of_find? RegName.number hreg, ho.symm⟩
    · exact decodesTo_error _
  · exact decodesTo_error _

/-- The decoder drops no field: each row of R85 keeps in its command what it does not test. -/
theorem decodesTo_decodeFields (opc ch sel : BitVec 8) (opd : BitVec 32) :
    DecodesTo opc ch sel opd (decodeFields opc ch sel opd) :=
  -- the lifecycle
  decodesTo_opcode (decodesTo_bare (.self rfl)) <| decodesTo_opcode (decodesTo_counted (.self rfl)) <|
  decodesTo_opcode decodesTo_rdreg <| decodesTo_opcode (decodesTo_bare (.self rfl)) <|
  -- the delay line
  decodesTo_opcode (decodesTo_counted (.self rfl)) <| decodesTo_opcode (decodesTo_setter (.self rfl)) <|
  decodesTo_opcode (decodesTo_setter (.self rfl)) <| decodesTo_opcode (decodesTo_setter (.self rfl)) <|
  decodesTo_opcode (decodesTo_enum interpValue fun _ => .self rfl) <|
  decodesTo_opcode (decodesTo_onChannel (.self rfl)) <|
  decodesTo_opcode (decodesTo_whenZero fun hs => decodesTo_whenZero fun ho =>
    decodesTo_ok (hs ▸ ho ▸ .self rfl)) <|
  decodesTo_opcode (decodesTo_onChannel (.self rfl)) <| decodesTo_opcode (decodesTo_onChannel (.self rfl)) <|
  -- the modulated delay
  decodesTo_opcode (decodesTo_enum MdMode.value fun _ => .self rfl) <|
  decodesTo_opcode (decodesTo_setter (.self rfl)) <| decodesTo_opcode (decodesTo_setter (.self rfl)) <|
  decodesTo_opcode (decodesTo_setter (.self rfl)) <| decodesTo_opcode (decodesTo_setter (.self rfl)) <|
  decodesTo_opcode (decodesTo_onChannel (.self rfl)) <|
  -- the pitch shifter
  decodesTo_opcode (decodesTo_setter (.self rfl)) <| decodesTo_opcode (decodesTo_onChannel (.self rfl)) <|
  -- the biquad
  decodesTo_opcode (decodesTo_enum BqType.value fun _ => .self rfl) <|
  decodesTo_opcode (decodesTo_enum BqForm.value fun _ => .self rfl) <|
  decodesTo_opcode (decodesTo_setter (.self rfl)) <| decodesTo_opcode (decodesTo_setter (.self rfl)) <|
  decodesTo_opcode (decodesTo_setter (.self rfl)) <| decodesTo_opcode (decodesTo_bare (.self rfl)) <|
  decodesTo_opcode (decodesTo_onChannel (.self rfl)) <|
  -- the nested all-pass
  decodesTo_opcode (decodesTo_setter (.self rfl)) <| decodesTo_opcode (decodesTo_setter (.self rfl)) <|
  decodesTo_opcode (decodesTo_onChannel (.self rfl)) <| decodesTo_error _

end

/-! ## Words and their fields -/

/-- A word is put together from its own fields. -/
theorem commandWord_fields (w : Word64) :
    commandWord (opcField w) (chField w) (selField w) (rsvField w) (opdField w) = w := by
  unfold commandWord opcField chField selField rsvField opdField
  rw [BitVec.extractLsb'_append_extractLsb'_eq_extractLsb' (show 56 = 48 + 8 from rfl),
    BitVec.extractLsb'_append_extractLsb'_eq_extractLsb' (show 48 = 40 + 8 from rfl),
    BitVec.extractLsb'_append_extractLsb'_eq_extractLsb' (show 40 = 32 + 8 from rfl),
    BitVec.extractLsb'_append_extractLsb'_eq_extractLsb' (show 32 = 0 + 32 from rfl)]
  exact BitVec.extractLsb'_eq_self

theorem Instr.HasFields.encode_eq {i : Instr} {w : Word64}
    (h : i.HasFields (opcField w) (chField w) (selField w) (opdField w)) (hr : rsvField w = 0#8) : encode i = w := by
  obtain ⟨-, ho, hc, hs, hv⟩ := h
  rw [encode, ho, hc, hs, hv, ← hr, commandWord_fields]

/-- A decoded word has the fields of its command, and zero in the reserved one. -/
theorem fields_of_decode {w : Word64} {i : Instr} (h : decode w = .ok i) :
    i.HasFields (opcField w) (chField w) (selField w) (opdField w) ∧ rsvField w = 0#8 := by
  unfold decode at h
  split at h
  · exact ⟨decodesTo_decodeFields _ _ _ _ i h, ‹_›⟩
  · cases h

/-- The words the decoder accepts are the words of the well-formed commands, each of its own. -/
theorem decode_eq_ok_iff {w : Word64} {i : Instr} : decode w = .ok i ↔ i.wellFormed = true ∧ encode i = w := by
  refine ⟨fun h => ?_, fun ⟨hw, he⟩ => he ▸ decode_encode hw⟩
  obtain ⟨hf, hr⟩ := fields_of_decode h
  exact ⟨hf.wellFormed, hf.encode_eq hr⟩

/-- Settles O3. The split over the commands is in `decode_encode`. -/
theorem decodeOfEncode : Obligations.DecodeOfEncode := fun _ hw => decode_encode hw

/-- Settles O4. The decoder keeps every field (`decodesTo_decodeFields`), and a word is its fields. -/
theorem encodeOfDecode : Obligations.EncodeOfDecode := fun _ _ h => decode_eq_ok_iff.mp h

/-- Settles O1: each word is the encoding of its command. -/
theorem exampleWordsDecode : Obligations.ExampleWordsDecode :=
  ⟨decode_encode (i := .prepare 1#8 0x473B8000#32) rfl, decode_encode (i := .dlConfig 1#8 48000#32) rfl,
    decode_encode (i := .dlSetDelay 0x46BB8000#32) rfl, decode_encode (i := .dlStep 0#8 0x3F800000#32) rfl,
    decode_encode (i := .dlPop 1#8) rfl, decode_encode (i := .rdreg 1#8 (.channel .widx)) rfl,
    decode_encode (i := .bqSetForm .df1) rfl, decode_encode (i := .bqStep 0#8 0x3F800000#32) rfl⟩

end Sys2Proof
end

section
/-!
Every word that waits is answered once (30_encoding.md R83): a step ends a legal word's command, or the illegal word, by
one response with the word's own opcode and channel.
-/
namespace Sys2Proof
open Machine

/-- The response to a word copies its opcode and channel, legal or not. -/
theorem isResponseTo_responseWord (w : Word64) (c : Cause) (v : BitVec 32) :
    isResponseTo (responseWord (opcField w) (chField w) c v) w ∧
      (causeField (responseWord (opcField w) (chField w) c v)).toNat ≤ 9 := by
  obtain ⟨ho, hc, hs, hcause, -⟩ := responseWord_fields (opcField w) (chField w) c v
  exact ⟨⟨ho, hc, hs⟩, hcause ▸ c.code_le⟩

/-- A step with a word waiting ends by `finish` under the word's opcode and channel, over a state that took the word. -/
theorem step_finish {s : State} {w : Word64} {rest : List Word64} (hc : s.cmdIn = w :: rest) :
    ∃ (u : State) (c : Cause) (v : BitVec 32), step s = .next (u.finish (opcField w) (chField w) c v) ∧
      u.cmdIn = rest ∧ u.rspOut = s.rspOut := by
  cases hd : decode w with
  | error e => exact ⟨_, _, _, step_of_decode_error hc hd, rfl, rfl⟩
  | ok i =>
    obtain ⟨u, c, v, hu, hk, -⟩ := exec_ends i { s with cmdIn := rest }
    obtain ⟨hf, -⟩ := fields_of_decode hd
    rw [hf.opcode, hf.channel] at hu
    exact ⟨u, c, v, (step_of_decode hc hd).trans hu, hk.cmdIn, hk.rspOut⟩

/-- Settles O8: `finish` adds the one response, and every cause is at most 9. -/
theorem everyWordAnswered : Obligations.EveryWordAnswered := by
  intro s w rest hc
  obtain ⟨u, c, v, hs, hq, hr⟩ := step_finish hc
  refine ⟨_, responseWord (opcField w) (chField w) c v, hs, hq, ?_, isResponseTo_responseWord w c v⟩
  rw [State.finish_rspOut, hr]

end Sys2Proof
end

section
/-!
The decoder against the rows of spec/opcode_table.json (30_encoding.md R86): a row's words are those of one command, but
for the three cases beyond the masks.
-/
namespace Sys2Proof
open Machine

/-! ## Words under a mask -/

/-- A mask takes each field on its own. -/
theorem commandWord_and (opc ch sel rsv opc' ch' sel' rsv' : BitVec 8) (opd opd' : BitVec 32) :
    commandWord opc ch sel rsv opd &&& commandWord opc' ch' sel' rsv' opd' =
      commandWord (opc &&& opc') (ch &&& ch') (sel &&& sel') (rsv &&& rsv') (opd &&& opd') := by
  change (opc ++ ch ++ sel ++ rsv ++ opd : BitVec (8 + 8 + 8 + 8 + 32)) &&& (opc' ++ ch' ++ sel' ++ rsv' ++ opd') = _
  simp only [BitVec.and_append, commandWord]

/-- The fields of a word under a mask. -/
theorem fields_and (w m : Word64) :
    opcField (w &&& m) = opcField w &&& opcField m ∧ chField (w &&& m) = chField w &&& chField m ∧
      selField (w &&& m) = selField w &&& selField m ∧ rsvField (w &&& m) = rsvField w &&& rsvField m ∧
      opdField (w &&& m) = opdField w &&& opdField m :=
  ⟨BitVec.extractLsb'_and, BitVec.extractLsb'_and, BitVec.extractLsb'_and, BitVec.extractLsb'_and,
    BitVec.extractLsb'_and⟩

theorem eq_zero_of_and_allOnes {n : Nat} {x : BitVec n} (h : x &&& BitVec.allOnes n = 0#n) : x = 0#n := by
  rwa [BitVec.and_allOnes] at h

/-- A word with zero in the bits of a mask is at most the bits the mask leaves out. -/
theorem toNat_le_of_and_eq_zero {n : Nat} {x m k : BitVec n} (h : x &&& m = 0#n) (hk : m ||| k = BitVec.allOnes n) :
    x.toNat ≤ k.toNat := by
  have hx : x = x &&& k := by
    calc x = x &&& (m ||| k) := by rw [hk, BitVec.and_allOnes]
      _ = x &&& k := by rw [BitVec.and_or_distrib_left, h, BitVec.zero_or]
  rw [hx, BitVec.toNat_and]
  exact Nat.and_le_right

/-! ## The row of a command -/

/-- The bits of `CH` that the row of a command fixes: all, but for a channel operand (30_encoding.md R85). -/
def Instr.channelMask : Instr → BitVec 8
  | .rdreg .. | .dlPush .. | .dlPop _ | .dlStep .. | .dlPeek .. | .mdStep .. | .psStep .. | .bqStep .. | .napfStep .. =>
    0#8
  | _ => 0xFF#8

/-- The bits of `SEL` that the row fixes: all, but for a channel count or a register number. -/
def Instr.selectorMask : Instr → BitVec 8
  | .prepare .. | .dlConfig .. | .rdreg .. => 0#8
  | _ => 0xFF#8

/-- The bits of `OPD` that the row fixes: all where there is no operand, those above its range of an enumeration. -/
def Instr.operandMask : Instr → BitVec 32
  | .nop | .rdreg .. | .clrerr | .dlPop _ | .bqUpdate => 0xFFFFFFFF#32
  | .dlSetInterp _ => 0xFFFFFFFE#32
  | .mdSetMode _ | .bqSetForm _ => 0xFFFFFFFC#32
  | .bqSetType _ => 0xFFFFFFF8#32
  | _ => 0#32

/-- The mask of a command's row. -/
def Instr.mask (i : Instr) : Word64 := commandWord 0xFF#8 i.channelMask i.selectorMask 0xFF#8 i.operandMask

/-- The value of a command's row. -/
def Instr.fixedBits (i : Instr) : Word64 := commandWord i.opcode 0#8 0#8 0#8 0#32

/-- The table has a row for every command. -/
theorem Instr.exists_row (i : Instr) : ∃ r ∈ tableRows, r.mask = i.mask ∧ r.value = i.fixedBits := by
  cases i <;> simp only [Instr.mask, Instr.channelMask, Instr.selectorMask, Instr.operandMask, Instr.fixedBits,
    Instr.opcode] <;> decide

/-- One command for each row of the table. -/
def rowCommands : List Instr :=
  [.nop, .prepare 0#8 0#32, .rdreg 0#8 (.global .status), .clrerr, .dlConfig 0#8 0#32, .dlSetDelay 0#32,
   .dlSetDelayBpm 0#32, .dlSetNotediv 0#32, .dlSetInterp false, .dlPush 0#8 0#32, .dlPop 0#8, .dlStep 0#8 0#32,
   .dlPeek 0#8 0#32, .mdSetMode .chorus, .mdSetRate 0#32, .mdSetDepth 0#32, .mdSetBase 0#32, .mdSetPredelayMs 0#32,
   .mdStep 0#8 0#32, .psSetSemitones 0#32, .psStep 0#8 0#32, .bqSetType .lpf, .bqSetForm .df1, .bqSetFreq 0#32,
   .bqSetQ 0#32, .bqSetGain 0#32, .bqUpdate, .bqStep 0#8 0#32, .napfSetG1 0#32, .napfSetG2 0#32, .napfStep 0#8 0#32]

/-- The table has no other row. -/
theorem exists_command_of_row : ∀ r ∈ tableRows, ∃ i ∈ rowCommands, r.mask = i.mask ∧ r.value = i.fixedBits := by decide

theorem TableRow.matches_iff {r : TableRow} {w : Word64} : r.matches w = true ↔ w &&& r.mask = r.value := beq_iff_eq

/-- A command's own fields are zero under its masks. -/
theorem Instr.fields_and_mask (i : Instr) : i.channel &&& i.channelMask = 0#8 ∧ i.selector &&& i.selectorMask = 0#8 ∧
    i.operand &&& i.operandMask = 0#32 := by
  cases i with
  | dlSetInterp v => cases v <;> decide
  | mdSetMode m => cases m <;> decide
  | bqSetType t => cases t <;> decide
  | bqSetForm f => cases f <;> decide
  | _ =>
    simp [Instr.channel, Instr.channelMask, Instr.selector, Instr.selectorMask, Instr.operand, Instr.operandMask]

theorem Instr.encode_and_mask (i : Instr) : encode i &&& i.mask = i.fixedBits := by
  obtain ⟨hc, hs, ho⟩ := i.fields_and_mask
  rw [encode, Instr.mask, commandWord_and, hc, hs, ho, BitVec.zero_and]
  exact congrArg (commandWord · 0#8 0#8 0#8 0#32) BitVec.and_allOnes

/-- Every command's word matches a row. -/
theorem Instr.exists_matches (i : Instr) : ∃ r ∈ tableRows, r.matches (encode i) = true := by
  obtain ⟨r, hr, hm, hv⟩ := i.exists_row
  exact ⟨r, hr, TableRow.matches_iff.mpr (by rw [hm, hv, i.encode_and_mask])⟩

/-- No command's word is one of the cases beyond the masks. -/
theorem illegalBeyondMasks_encode {i : Instr} (hw : i.wellFormed = true) : illegalBeyondMasks (encode i) = false := by
  obtain ⟨ho, hc, hs, -, hv⟩ :=
    Laws.EncodeFields.fields_commandWord i.opcode i.channel i.selector 0#8 i.operand
  unfold illegalBeyondMasks encode
  rw [ho, hc, hs, hv]
  cases i with
  | rdreg ch reg =>
    have hch : reg.channelOk ch = true := hw
    simp [Instr.opcode, Instr.selector, Instr.channel, RegName.ofNumber_number, hch]
  | bqSetForm f => cases f <;> rfl
  | _ => rfl

/-! ## The command of a row -/

/-- A word with the fixed bits of a command, field by field. -/
theorem Instr.fields_of_and_mask {i : Instr} {w : Word64} (h : w &&& i.mask = i.fixedBits) :
    opcField w = i.opcode ∧ chField w &&& i.channelMask = 0#8 ∧ selField w &&& i.selectorMask = 0#8 ∧
      rsvField w = 0#8 ∧ opdField w &&& i.operandMask = 0#32 := by
  obtain ⟨ho, hc, hs, hr, hv⟩ := fields_and w i.mask
  obtain ⟨ho₁, hc₁, hs₁, hr₁, hv₁⟩ :=
    Laws.EncodeFields.fields_commandWord 0xFF#8 i.channelMask i.selectorMask 0xFF#8 i.operandMask
  obtain ⟨ho₂, hc₂, hs₂, hr₂, hv₂⟩ := Laws.EncodeFields.fields_commandWord i.opcode 0#8 0#8 0#8 0#32
  rw [h, Instr.fixedBits, Instr.mask] at ho hc hs hr hv
  rw [ho₁, ho₂] at ho
  rw [hc₁, hc₂] at hc
  rw [hs₁, hs₂] at hs
  rw [hr₁, hr₂] at hr
  rw [hv₁, hv₂] at hv
  exact ⟨(ho.trans BitVec.and_allOnes).symm, hc.symm, hs.symm, (hr.trans BitVec.and_allOnes).symm, hv.symm⟩

/-- A word that matches a row has the fixed bits of a command of its opcode. -/
theorem exists_command_of_matches {r : TableRow} {w : Word64} (hr : r ∈ tableRows) (hm : r.matches w = true) :
    ∃ i : Instr, w &&& i.mask = i.fixedBits ∧ opcField r.value = i.opcode := by
  obtain ⟨i, -, hmask, hvalue⟩ := exists_command_of_row r hr
  obtain ⟨ho, -⟩ := Laws.EncodeFields.fields_commandWord i.opcode 0#8 0#8 0#8 0#32
  exact ⟨i, by rw [← hmask, ← hvalue, TableRow.matches_iff.mp hm], by rw [hvalue, Instr.fixedBits, ho]⟩

/-- A word that matches a row has its opcode. -/
theorem opcField_of_matches {r : TableRow} {w : Word64} (hr : r ∈ tableRows) (hm : r.matches w = true) :
    opcField r.value = opcField w := by
  obtain ⟨i, hw, ho⟩ := exists_command_of_matches hr hm
  obtain ⟨hopc, -⟩ := Instr.fields_of_and_mask hw
  rw [ho, hopc]

/-- An enumeration setter is decoded when its operand is in range. -/
theorem decodeEnum_ok {α : Type} {ofValue : BitVec 32 → Option α} (mk : α → Instr) (k : Nat) {ch sel : BitVec 8}
    {opd : BitVec 32} (hc : ch = 0#8) (hs : sel = 0#8)
    (h : ∀ n < k, (ofValue (BitVec.ofNat 32 n)).isSome = true) (ho : opd.toNat < k) :
    ∃ j, decodeEnum ch sel (ofValue opd) mk = .ok j := by
  obtain ⟨a, ha⟩ := Option.isSome_iff_exists.mp (h opd.toNat ho)
  rw [BitVec.ofNat_toNat, BitVec.setWidth_eq] at ha
  exact ⟨mk a, by simp [decodeEnum, whenZero, hc, hs, ha]⟩

/-- A word with the fixed bits of a command, and none of the cases beyond the masks, is decoded. -/
theorem decode_ok_of_and_mask {i : Instr} {w : Word64} (hm : w &&& i.mask = i.fixedBits)
    (hb : illegalBeyondMasks w = false) : ∃ j, decode w = .ok j := by
  obtain ⟨hopc, hc, hs, hr, ho⟩ := Instr.fields_of_and_mask hm
  rw [decode, if_pos hr, hopc]
  rw [illegalBeyondMasks, hopc] at hb
  generalize chField w = ch at *
  generalize selField w = sel at *
  generalize opdField w = opd at *
  cases i with
  | nop | clrerr | bqUpdate =>
    rw [eq_zero_of_and_allOnes hc, eq_zero_of_and_allOnes hs, eq_zero_of_and_allOnes ho]
    exact ⟨_, rfl⟩
  | prepare | dlConfig =>
    rw [eq_zero_of_and_allOnes hc]
    exact ⟨_, rfl⟩
  | rdreg =>
    rw [eq_zero_of_and_allOnes ho]
    change ∃ j, decodeRdreg ch sel 0#32 = .ok j
    cases hn : RegName.ofNumber sel with
    | none => simp [hn, Instr.opcode] at hb
    | some reg =>
      have hch : reg.channelOk ch = true := by simpa [hn, Instr.opcode] using hb
      exact ⟨.rdreg ch reg, by simp [decodeRdreg, whenZero, hn, hch]⟩
  | dlPop =>
    rw [eq_zero_of_and_allOnes hs, eq_zero_of_and_allOnes ho]
    exact ⟨_, rfl⟩
  | dlPush | dlStep | dlPeek | mdStep | psStep | bqStep | napfStep =>
    rw [eq_zero_of_and_allOnes hs]
    exact ⟨_, rfl⟩
  | dlSetInterp =>
    have hle : opd.toNat ≤ 1 := toNat_le_of_and_eq_zero (m := 0xFFFFFFFE#32) (k := 1#32) ho (by decide)
    exact decodeEnum_ok .dlSetInterp 2 (eq_zero_of_and_allOnes hc) (eq_zero_of_and_allOnes hs) (by decide) (by omega)
  | mdSetMode =>
    have hle : opd.toNat ≤ 3 := toNat_le_of_and_eq_zero (m := 0xFFFFFFFC#32) (k := 3#32) ho (by decide)
    exact decodeEnum_ok .mdSetMode 4 (eq_zero_of_and_allOnes hc) (eq_zero_of_and_allOnes hs) (by decide) (by omega)
  | bqSetType =>
    have hle : opd.toNat ≤ 7 := toNat_le_of_and_eq_zero (m := 0xFFFFFFF8#32) (k := 7#32) ho (by decide)
    exact decodeEnum_ok .bqSetType 8 (eq_zero_of_and_allOnes hc) (eq_zero_of_and_allOnes hs) (by decide) (by omega)
  | bqSetForm =>
    have hle : opd.toNat ≤ 3 := toNat_le_of_and_eq_zero (m := 0xFFFFFFFC#32) (k := 3#32) ho (by decide)
    have hne : opd.toNat ≠ 3 := by simpa [Instr.opcode, BitVec.toNat_eq] using hb
    exact decodeEnum_ok .bqSetForm 3 (eq_zero_of_and_allOnes hc) (eq_zero_of_and_allOnes hs) (by decide) (by omega)
  -- the setters of an F32
  | _ =>
    rw [eq_zero_of_and_allOnes hc, eq_zero_of_and_allOnes hs]
    exact ⟨_, rfl⟩

/-- No two rows have the same opcode. -/
theorem tableRows_opcodes_nodup : (tableRows.map fun r => opcField r.value).Nodup := by decide

/-- Settles O5: every command has a row and every row a command of its opcode, and no two rows share an opcode. -/
theorem legalWords : Obligations.LegalWords := by
  refine ⟨fun w => ⟨?_, ?_⟩, fun w i r hd hr hm => ?_, fun w r r' hr hr' hm hm' => ?_⟩
  · rintro ⟨i, hd⟩
    obtain ⟨hw, rfl⟩ := decode_eq_ok_iff.mp hd
    exact ⟨i.exists_matches, illegalBeyondMasks_encode hw⟩
  · rintro ⟨⟨r, hr, hm⟩, hb⟩
    obtain ⟨i, hw, -⟩ := exists_command_of_matches hr hm
    exact decode_ok_of_and_mask hw hb
  · obtain ⟨hf, -⟩ := fields_of_decode hd
    rw [hf.opcode, opcField_of_matches hr hm]
  · refine List.inj_on_of_nodup_map tableRows_opcodes_nodup hr hr' ?_
    rw [opcField_of_matches hr hm, opcField_of_matches hr' hm']

end Sys2Proof
end

section
/-!
Channels do not see each other (30_encoding.md R80): a command on a channel keeps two states alike that agree on that
channel, and leaves every other channel as it was.
-/
namespace Sys2Proof.Machine

/-- Two states that agree on everything but the registers and the RAM rows of the other channels. -/
structure State.AgreeOn (ch : BitVec 8) (s s' : State) : Prop where
  beside : s.besideRamAndChans = s'.besideRamAndChans
  length : s.chans.length = s'.chans.length
  chan : s.chan ch = s'.chan ch
  row : ∀ k, s.memRead ch k = s'.memRead ch k
  ram : s.mem.wf = true
  ram' : s'.mem.wf = true

variable {ch : BitVec 8} {s s' : State} {i : Instr}

/-- What exists once is the same in both. -/
theorem State.AgreeOn.eq_with (h : s.AgreeOn ch s') : s' = { s with mem := s'.mem, chans := s'.chans } :=
  congrArg (fun z : State => { z with mem := s'.mem, chans := s'.chans }) h.beside.symm

theorem State.AgreeOn.cap_eq (h : s.AgreeOn ch s') : s.cap = s'.cap :=
  ((congrArg State.cap h.eq_with).trans rfl).symm

theorem State.AgreeOn.nan_eq (h : s.AgreeOn ch s') : s.nan = s'.nan :=
  ((congrArg State.nan h.eq_with).trans rfl).symm

theorem State.AgreeOn.interp_eq (h : s.AgreeOn ch s') : s.interp = s'.interp :=
  ((congrArg State.interp h.eq_with).trans rfl).symm

/-! ## The operations on a channel -/

/-- A channel without registers takes no write. -/
theorem State.setChan_of_length_le (s : State) {ch : BitVec 8} (r : ChanRegs) (h : s.chans.length ≤ ch.toNat) :
    s.setChan ch r = s := by
  rw [State.setChan, List.set_eq_of_length_le h]

/-- How a command ends sees nothing else. -/
theorem State.AgreeOn.finish (opc ch' : BitVec 8) (c : Cause) (v : BitVec 32) (h : s.AgreeOn ch s') :
    (s.finish opc ch' c v).AgreeOn ch (s'.finish opc ch' c v) :=
  ⟨State.finish_beside h.beside rfl, h.length, h.chan, h.row, h.ram, h.ram'⟩

/-- The same registers written on the channel, whether or not it has registers. -/
theorem State.AgreeOn.setChan {r r' : ChanRegs} (hr : r = r') (h : s.AgreeOn ch s') :
    (s.setChan ch r).AgreeOn ch (s'.setChan ch r') := by
  subst hr
  refine ⟨by simpa using h.beside, by simpa using h.length, ?_, h.row, h.ram, h.ram'⟩
  by_cases hl : ch.toNat < s.chans.length
  · rw [s.chan_setChan_same ch r hl, s'.chan_setChan_same ch r (h.length ▸ hl)]
  · have hl' : ¬ch.toNat < s'.chans.length := h.length ▸ hl
    rw [s.setChan_of_length_le r (Nat.le_of_not_lt hl), s'.setChan_of_length_le r (Nat.le_of_not_lt hl'), h.chan]

/-- The same word written in the row of the channel. -/
theorem State.AgreeOn.memWrite {k k' : Nat} (hk : k = k') (x : F32) (h : s.AgreeOn ch s') :
    (s.memWrite ch k x).AgreeOn ch (s'.memWrite ch k' x) := by
  subst hk
  refine ⟨h.beside, h.length, h.chan, fun j => ?_, Memory.write_wf h.ram _ _, Memory.write_wf h.ram' _ _⟩
  by_cases hj : j = k
  · subst hj
    rw [s.memRead_memWrite_same ch x j h.ram, s'.memRead_memWrite_same ch x j h.ram']
  · rw [s.memRead_memWrite_other x (.inr hj), s'.memRead_memWrite_other x (.inr hj), h.row j]

theorem State.AgreeOn.push (x : F32) (h : s.AgreeOn ch s') : (s.push ch x).AgreeOn ch (s'.push ch x) :=
  (h.memWrite (congrArg ChanRegs.widx h.chan) x).setChan (by rw [h.chan, h.cap_eq])

/-- A read sees the row of its channel alone. -/
theorem State.AgreeOn.fracRead_eq (nan : Nat → F32) (d : F32) (h : s.AgreeOn ch s') :
    s.fracRead nan ch d = s'.fracRead nan ch d := by
  have ht (n : Int) : s.tap ch n = s'.tap ch n := by rw [State.tap, State.tap, h.chan, h.cap_eq, h.row]
  simp only [State.fracRead, h.interp_eq, ht]

/-! ## The end of a command, after its checks -/

theorem agreeOn_respond {v v' : BitVec 32} (h : s.AgreeOn ch s') (hv : v = v') :
    ResultRel (State.AgreeOn ch) (s.respond i v) (s'.respond i v') :=
  ⟨_, _, rfl, rfl, hv ▸ h.finish _ _ _ v⟩

theorem agreeOn_raise (c : Cause) (v : BitVec 32) (h : s.AgreeOn ch s') :
    ResultRel (State.AgreeOn ch) (s.raise i c v) (s'.raise i c v) :=
  ⟨_, _, rfl, rfl, h.finish _ _ _ _⟩

/-- The common checks look at nothing of a channel. -/
theorem agreeOn_checked {a b : Bool} {v : BitVec 32} {body body' : Result} (h : s.AgreeOn ch s')
    (hbody : ResultRel (State.AgreeOn ch) body body') :
    ResultRel (State.AgreeOn ch) (s.checked i a b v body) (s'.checked i a b v body') := by
  obtain ⟨m, l, rfl⟩ : ∃ m l, s' = { s with mem := m, chans := l } := ⟨_, _, h.eq_with⟩
  exact resultRel_ite rfl (fun _ => agreeOn_raise _ _ h) fun _ => resultRel_ite rfl (fun _ => agreeOn_raise _ _ h)
    fun _ => resultRel_ite rfl (fun _ => agreeOn_raise _ _ h) fun _ => hbody

/-! ## Two runs of one command -/

/-- The delays of the steps are computed from the channel's own registers (42_mod_delay.md R149, 43_pitch_shift.md R165). -/
theorem State.AgreeOn.mdDelay_eq (h : s.AgreeOn ch s') : s.mdDelay ch = s'.mdDelay ch := by
  obtain ⟨m, l, rfl⟩ : ∃ m l, s' = { s with mem := m, chans := l } := ⟨_, _, h.eq_with⟩
  rw [State.mdDelay, h.chan]
  rfl

theorem State.AgreeOn.slewedDelay_eq (h : s.AgreeOn ch s') : s.slewedDelay ch = s'.slewedDelay ch := by
  obtain ⟨m, l, rfl⟩ : ∃ m l, s' = { s with mem := m, chans := l } := ⟨_, _, h.eq_with⟩
  rw [State.slewedDelay, h.chan]
  rfl

theorem State.AgreeOn.advanceTime (h : s.AgreeOn ch s') : (s.advanceTime ch).AgreeOn ch (s'.advanceTime ch) := by
  obtain ⟨m, l, rfl⟩ : ∃ m l, s' = { s with mem := m, chans := l } := ⟨_, _, h.eq_with⟩
  exact h.setChan (by rw [h.chan]; rfl)

theorem execMdStep_agreeOn (x : F32) (h : s.AgreeOn ch s') :
    ResultRel (State.AgreeOn ch) (execMdStep ch x s) (execMdStep ch x s') := by
  have ht := (h.push x).advanceTime
  refine agreeOn_checked h (resultRel_ite ?_ (fun _ => agreeOn_respond ht ?_) fun _ => agreeOn_raise _ _ ht)
  · rw [h.mdDelay_eq, State.capF, h.cap_eq, State.capF]
  · rw [h.mdDelay_eq, h.nan_eq, ht.fracRead_eq]

theorem execPsStep_agreeOn (x : F32) (h : s.AgreeOn ch s') :
    ResultRel (State.AgreeOn ch) (execPsStep ch x s) (execPsStep ch x s') := by
  have hp := h.push x
  refine agreeOn_checked h (resultRel_ite ?_ (fun _ => agreeOn_respond (hp.setChan ?_) ?_)
    fun _ => agreeOn_raise _ _ hp)
  · rw [State.slewOk, h.slewedDelay_eq, State.capF, h.cap_eq, State.slewOk, State.capF]
  · rw [hp.chan, h.slewedDelay_eq]
  · rw [h.chan, h.nan_eq, hp.fracRead_eq]

/-- A command on a channel keeps two states alike on it. -/
theorem exec_agreeOn (hc : i.hasChannel = true) (h : s.AgreeOn i.channel s') :
    ResultRel (State.AgreeOn i.channel) (exec i s) (exec i s') := by
  obtain ⟨m, l, rfl⟩ : ∃ m l, s' = { s with mem := m, chans := l } := ⟨_, _, h.eq_with⟩
  cases i with
  | rdreg ch reg =>
    cases reg with
    | global r => cases hc
    | channel r =>
      exact resultRel_ite rfl (fun _ => agreeOn_respond h (congrArg (ChanRegs.value · r) h.chan))
        fun _ => agreeOn_raise _ _ h
  | dlPush ch x => exact agreeOn_checked h (agreeOn_respond (h.push x) rfl)
  | dlPop ch => exact agreeOn_checked h (agreeOn_respond h (h.fracRead_eq _ _))
  | dlStep ch x => exact agreeOn_checked h (agreeOn_respond (h.push x) ((h.push x).fracRead_eq _ _))
  | dlPeek ch index =>
    exact agreeOn_checked h (resultRel_ite rfl (fun _ => agreeOn_raise _ _ h) fun _ => agreeOn_respond h (h.row _))
  | mdStep ch x => exact execMdStep_agreeOn x h
  | psStep ch x => exact execPsStep_agreeOn x h
  | bqStep ch x =>
    exact agreeOn_checked h (resultRel_ite rfl (fun _ => agreeOn_raise _ _ h) fun _ =>
      agreeOn_respond (h.setChan (congrArg (biquadMemory s.nan s.bqForm s.coef · x) h.chan))
        (congrArg (biquadOutput s.nan s.bqForm s.coef · x) h.chan))
  | napfStep ch x =>
    exact agreeOn_checked h (agreeOn_respond (h.setChan (congrArg (napfMemory s.nan s.g1 s.g2 · x) h.chan))
      (congrArg (fun r => fadd (s.nan 4) (napfFeedback s.nan s.g2 r) x) h.chan))
  -- the commands without a channel operand
  | _ => cases hc

/-! ## The other channels -/

/-- From `s` to `t` no register and no word of the row of the channel changes. -/
def State.SameOn (ch : BitVec 8) (s t : State) : Prop := t.chan ch = s.chan ch ∧ ∀ k, t.memRead ch k = s.memRead ch k

theorem State.sameOn_setChan {c : BitVec 8} (hne : ch ≠ c) (s : State) (r : ChanRegs) : s.SameOn ch (s.setChan c r) :=
  ⟨s.chan_setChan_other r hne, fun _ => rfl⟩

theorem State.sameOn_push {c : BitVec 8} (hne : ch ≠ c) (s : State) (x : F32) : s.SameOn ch (s.push c x) :=
  ⟨s.push_chan_other x hne, fun _ => s.push_memRead_other x (.inl hne)⟩

theorem State.SameOn.setChan {t : State} {c : BitVec 8} (h : s.SameOn ch t) (hne : ch ≠ c) (r : ChanRegs) :
    s.SameOn ch (t.setChan c r) := by
  obtain ⟨hchan, hrow⟩ := h
  exact ⟨(t.chan_setChan_other r hne).trans hchan, hrow⟩

/-- What a command on a channel writes of other channels: nothing. -/
theorem Writes.sameOn {u : State} (h : Writes s i u) (hc : i.hasChannel = true) (hne : ch ≠ i.channel) :
    s.SameOn ch u := by
  cases h with
  | nothing => exact ⟨rfl, fun _ => rfl⟩
  | dlPush c x | dlStep c x | psPushed c x => exact s.sameOn_push hne x
  | mdStep c x | psSlewed c x => exact (s.sameOn_push hne x).setChan hne _
  | bqStep c x | napfStep c x => exact s.sameOn_setChan hne _
  | _ => cases hc

end Sys2Proof.Machine

namespace Sys2Proof
open Machine

/-- Settles O56: two runs agree on the channel (`exec_agreeOn`), and a run leaves the others alone (`Writes.sameOn`). -/
theorem channelsIndependent : Obligations.ChannelsIndependent := by
  intro i s s' hc hs hs' hw hw' hb hch hrow
  have hmax : s.nchMax = s'.nchMax := (congrArg State.nchMax hb :)
  have h : s.AgreeOn i.channel s' := ⟨hb, by rw [hs.chans_length, hs'.chans_length, hmax], hch, hrow, hw, hw'⟩
  obtain ⟨t, t', ht, ht', ha⟩ := exec_agreeOn hc h
  obtain ⟨u, c, v, hu, hwrites⟩ := exec_writes i s
  cases ht.symm.trans hu
  exact ⟨_, t', ht, ht', ha.beside, ha.chan, ha.row, fun ch hne => hwrites.sameOn hc hne⟩

end Sys2Proof
end

section
/-!
The lifecycle commands (40_lifecycle.md R100 to R103) and the bits of `STATUS` (10_state.md R23).
-/
namespace Sys2Proof.Machine

/-! ## RDREG and STATUS -/

/-- `RDREG` of a register of a channel makes the one check of R102. -/
theorem exec_rdreg_channel (ch : BitVec 8) (r : ChannelReg) (s : State) :
    exec (.rdreg ch (.channel r)) s = .next
      (if ch.toNat < s.nch then s.finish 0x02#8 ch .ok ((s.chan ch).value r)
      else s.finish 0x02#8 ch .badChannel 0#32) := by
  show (if ch.toNat < s.nch then _ else _) = _
  split <;> rfl

/-- The four bits of `STATUS` from bit 0 up; the bits above them are zero. -/
theorem State.status_getLsbD (s : State) (k : Nat) :
    s.status.getLsbD k = [s.prepared, s.dlConf, s.bqValid, s.errO].getD k false := by
  show (0#28 ++ BitVec.ofBool s.errO ++ BitVec.ofBool s.bqValid ++ BitVec.ofBool s.dlConf ++
    BitVec.ofBool s.prepared).getLsbD k = _
  rw [BitVec.getLsbD_append, BitVec.getLsbD_append, BitVec.getLsbD_append, BitVec.getLsbD_append]
  match k with
  | 0 | 1 | 2 | 3 | j + 4 => simp

/-! ## PREPARE -/

/-- The operands `PREPARE` refuses, as R101 lists them. -/
theorem State.prepareRefuses_iff (s : State) (n : BitVec 8) (rate : F32) :
    s.prepareRefuses n rate = true ↔
      n.toNat < 1 ∨ s.nchMax < n.toNat ∨ fisfinite rate = false ∨ flt c0 rate = false := by
  simp only [State.prepareRefuses, Bool.or_eq_true, decide_eq_true_eq, Bool.not_eq_true', or_assoc]

/-- A command that answers one value whether or not the update succeeded shows the outcome in its cause alone. -/
theorem State.finishUpdated_same (s : State) (i : Instr) (v : BitVec 32) :
    s.finishUpdated i v v = .next (if s.bqValid then s.finish i.opcode i.channel .ok v
      else s.finish i.opcode i.channel .invalidFilterParameter v) := by
  unfold State.finishUpdated
  cases s.bqValid <;> rfl

end Sys2Proof.Machine

namespace Sys2Proof
open Machine

/-- Settles O18: `State.globalValue` and `ChanRegs.value` register by register, and the bits by
`State.status_getLsbD`. -/
theorem readRegister : Obligations.ReadRegister := by
  refine ⟨fun s r => ?_, fun s ch r => ?_, fun s => ?_⟩
  · cases r <;> rfl
  · rw [exec_rdreg_channel]
    cases r <;> rfl
  · exact ⟨s.status_getLsbD 0, s.status_getLsbD 1, s.status_getLsbD 2, s.status_getLsbD 3,
      fun k hk => (s.status_getLsbD k).trans (List.getD_eq_default _ _ hk)⟩

/-- Settles O16. -/
theorem nopAnswersZero : Obligations.NopAnswersZero := ⟨by decide, by decide, fun _ => rfl⟩

/-- Settles O17. -/
theorem clearErrors : Obligations.ClearErrors := fun _ => rfl

/-- Settles O19: the operands are refused (`State.prepareRefuses_iff`), or the command ends with the rate and the cause
of the update (`State.finishUpdated_same`). -/
theorem prepare : Obligations.Prepare := by
  intro n rate s u
  have hu : s.prepareWrites n rate = u :=
    congrArg (fun chans => { s.prepareWrites n rate with chans }) List.map_const'
  show execPrepare n rate s = _
  by_cases h : n.toNat < 1 ∨ s.nchMax < n.toNat ∨ fisfinite rate = false ∨ flt c0 rate = false
  · rw [execPrepare, if_pos ((s.prepareRefuses_iff n rate).mpr h), if_pos h]
    rfl
  · rw [execPrepare, if_neg (mt (s.prepareRefuses_iff n rate).mp h), if_neg h, hu, State.finishUpdated_same]
    rfl

end Sys2Proof
end

section
/-!
The parts of a delay (41_delay_line.md R116, O29) and the fractional read (R117, O30): the floor and the fraction of a finite
delay that is not negative are exact, and the slots of the read on natural numbers.
-/
namespace Sys2Proof.Machine

/-! ## A magnitude and its remainder -/

/-- A finite magnitude is a number of at most 24 bits times a power of two. -/
theorem exists_magUnits_eq {b : Nat} (hb : b < 0x7F800000) :
    ∃ m e, m < 2 ^ 24 ∧ e ≤ 253 ∧ magUnits b = m * 2 ^ e := by
  unfold magUnits
  split
  · exact ⟨b, 0, by omega, by omega, by simp⟩
  · exact ⟨2 ^ 23 + b % 2 ^ 23, b / 2 ^ 23 - 1, by omega, by omega, rfl⟩

/-- What a finite magnitude has beyond its whole ones is the magnitude of an F32: the subtraction of R116 is exact. -/
theorem roundUnits_fract {b : Nat} (hb : b < 0x7F800000) :
    roundUnits (magUnits b % oneUnits) 1 < 0x7F800000 ∧
      magUnits (roundUnits (magUnits b % oneUnits) 1) = magUnits b % oneUnits := by
  obtain ⟨m, e, hm, he, hval⟩ := exists_magUnits_eq hb
  rw [hval]
  by_cases hwhole : 149 ≤ e
  · have hdvd : oneUnits ∣ m * 2 ^ e := (pow_dvd_pow 2 hwhole).mul_left m
    rw [Nat.mod_eq_zero_of_dvd hdvd]
    exact roundUnits_exact 0 0 (by decide) (by decide)
  · have hone : oneUnits = 2 ^ (149 - e) * 2 ^ e := by rw [← pow_add, Nat.sub_add_cancel (by omega), oneUnits]
    rw [hone, Nat.mul_mod_mul_right]
    exact roundUnits_exact _ e (Nat.mod_lt_of_lt hm) he

/-- A finite magnitude from 2^23 on is whole: binary32 has no fraction bits there (R116). -/
theorem magUnits_mod_eq_zero {b : Nat} (hb : b < 0x7F800000) (h : 2 ^ 23 * 2 ^ 149 ≤ magUnits b) :
    magUnits b % oneUnits = 0 := by
  obtain ⟨m, e, hm, -, hval⟩ := exists_magUnits_eq hb
  have he : 148 < e := by
    by_contra hlow
    have hpow : 2 ^ e ≤ 2 ^ 148 := Nat.pow_le_pow_right (by decide) (by omega)
    have hlt : m * 2 ^ e < 2 ^ 24 * 2 ^ 148 := Nat.mul_lt_mul_of_lt_of_le hm hpow (by decide)
    omega
  rw [hval]
  exact Nat.mod_eq_zero_of_dvd ((pow_dvd_pow 2 he).mul_left m)

/-! ## The parts of a delay -/

variable (nan : Nat → F32) {d : F32}

/-- A value at or above zero is its magnitude, for -0.0 also. -/
theorem signedUnits_of_fle (h : fle c0 d = true) : signedUnits d = (units d : Int) := by
  have hz : signedUnits c0 = 0 := by decide
  simp only [fle, Bool.and_eq_true, decide_eq_true_eq, hz] at h
  have hnonneg := h.2
  unfold signedUnits at hnonneg ⊢
  split <;> simp_all

/-- The floor of a finite delay that is not negative: exact, and of the delay's sign. -/
theorem ffloor_nonneg (n : F32) (hf : fisfinite d = true) (h0 : fle c0 d = true) :
    fisfinite (ffloor n d) = true ∧ signBit (ffloor n d) = signBit d ∧
      signedUnits (ffloor n d) = ((units d / oneUnits * oneUnits : Nat) : Int) := by
  rw [ffloor_of_finite n hf]
  split
  · next hz =>
    rw [signedUnits_of_fle h0, (units_eq_zero_iff d).mpr ((isZero_iff d).mp hz), Nat.zero_div, Nat.zero_mul]
    exact ⟨hf, rfl, rfl⟩
  · next hz =>
    have hp : isPlain d := (plain_or_negZero hf h0).resolve_right fun e => hz (by rw [e]; decide)
    obtain ⟨hlt, hval⟩ := roundUnits_floor ((fisfinite_iff d).mp hf)
    rw [← units_eq] at hlt hval
    have hofUnits : ofUnits false (signedUnits d / (oneUnits : Int) * (oneUnits : Int)) =
        packF32 false (roundUnits (units d / oneUnits * oneUnits) 1) := by
      rw [signedUnits_of_fle h0, ← Int.natCast_ediv, ← Int.natCast_mul, ofUnits_nonneg (Int.natCast_nonneg _),
        Int.natAbs_natCast]
    have hfloor := plain_packF32 hlt
    rw [hofUnits, signedUnits_of_nonneg hfloor.1, units_packF32 false (by omega), hval, hfloor.1, hp.1]
    exact ⟨hfloor.2, rfl, rfl⟩

/-- The integer part of a delay is the floor of its value. -/
theorem splitInt_eq (hf : fisfinite d = true) (h0 : fle c0 d = true) :
    splitInt nan d = ((units d / oneUnits : Nat) : Int) := by
  obtain ⟨-, -, hval⟩ := ffloor_nonneg (nan 0) hf h0
  have hone : (oneUnits : Int) ≠ 0 := by decide +kernel
  rw [splitInt, f2i, hval, Nat.cast_mul, Int.mul_ediv_cancel _ hone]

/-- The fraction part of a delay, before it is known that its rounding is exact. -/
theorem splitFrac_eq (hf : fisfinite d = true) (h0 : fle c0 d = true) :
    splitFrac nan d = packF32 false (roundUnits (units d % oneUnits) 1) := by
  obtain ⟨hfin, hsign, hval⟩ := ffloor_nonneg (nan 0) hf h0
  have hmod : units d = units d / oneUnits * oneUnits + units d % oneUnits := (Nat.div_add_mod' _ _).symm
  rw [splitFrac, fsub_of_finite _ hf hfin, hsign, Bool.and_not_self, hval, signedUnits_of_fle h0, sub_natCast hmod,
    ofUnits_nonneg (Int.natCast_nonneg _), Int.natAbs_natCast]

/-- The fraction part of a delay is a finite F32 without sign, of exactly the value the floor leaves. -/
theorem splitFrac_exact (hf : fisfinite d = true) (h0 : fle c0 d = true) :
    isPlain (splitFrac nan d) ∧ units (splitFrac nan d) = units d % oneUnits := by
  obtain ⟨hlt, hval⟩ := roundUnits_fract ((fisfinite_iff d).mp hf)
  rw [← units_eq] at hlt hval
  rw [splitFrac_eq nan hf h0, units_packF32 false (by omega)]
  exact ⟨plain_packF32 hlt, hval⟩

theorem splitFrac_of_large (hf : fisfinite d = true) (h0 : fle c0 d = true) (h : 2 ^ 23 * 2 ^ 149 ≤ units d) :
    splitFrac nan d = c0 := by
  rw [units_eq] at h
  rw [splitFrac_eq nan hf h0, units_eq, magUnits_mod_eq_zero ((fisfinite_iff d).mp hf) h]
  decide

/-! ## The slots of the fractional read -/

/-- The integer part of a delay below the capacity is an index of the row. -/
theorem wholePart_lt {c : Nat} (hc : c ≤ 2 ^ 24) (h0 : fle c0 d = true) (hlt : flt d (i2f c) = true) :
    units d / oneUnits < c := by
  obtain ⟨hplain, hunits⟩ := i2f_capacity hc
  simp only [flt, Bool.and_eq_true, decide_eq_true_eq, signedUnits_of_fle h0, signedUnits_of_nonneg hplain.1, hunits,
    Nat.cast_lt] at hlt
  exact (Nat.div_lt_iff_lt_mul (by decide +kernel)).mpr hlt.2

/-- The slot of a whole delay, counted back from the newest (20_memory.md R62). -/
theorem delayedSlot_eq_base (w : Nat) {n c : Nat} (hc : 1 ≤ c) (hn : n ≤ c) :
    delayedSlot w c (n : Int) = ((w + c - 1) % c + c - n) % c := by
  rw [delayedSlot, newestSlot_eq w hc]
  generalize (w + c - 1) % c = base
  rw [← modCap_add_self, ← modCap_natCast]
  congr 1
  omega

/-- The fractional read by its parts (41_delay_line.md R117). -/
theorem State.fracRead_eq (s : State) (ch : BitVec 8) (hf : fisfinite d = true) (h0 : fle c0 d = true) :
    s.fracRead nan ch d = if s.interp then
      interpolate nan (splitFrac nan d) (s.tap ch (units d / oneUnits : Nat)) (s.tap ch (units d / oneUnits + 1 : Nat))
      else s.tap ch (units d / oneUnits : Nat) := by
  rw [State.fracRead, splitInt_eq nan hf h0, Nat.cast_succ]

end Sys2Proof.Machine

namespace Sys2Proof
open Machine

/-- Settles O29. -/
theorem delaySplit : Obligations.DelaySplit := by
  intro nan d hf h0
  obtain ⟨⟨hsign, hfin⟩, hunits⟩ := splitFrac_exact nan hf h0
  have hone : 0 < oneUnits := by decide +kernel
  refine ⟨splitInt_eq nan hf h0, hfin, hsign, hunits, hunits ▸ Nat.mod_lt _ hone, fun hle => ?_,
    splitFrac_of_large nan hf h0⟩
  rw [splitInt_eq nan hf h0]
  exact_mod_cast Nat.div_le_of_le_mul (Nat.mul_comm _ _ ▸ hle)

/-- Settles O30: the read by its parts (`State.fracRead_eq`), each at its slot (`delayedSlot_eq_base`). -/
theorem fractionalRead : Obligations.FractionalRead := by
  intro nan s ch d hpos hcap hf h0 hlt n base s0 s1 fr
  have hn : n < s.cap := wholePart_lt hcap h0 hlt
  have hs0 : s.tap ch (n : Nat) = s0 := by rw [State.tap, delayedSlot_eq_base _ hpos hn.le]
  have hs1 : s.tap ch (n + 1 : Nat) = s1 := by rw [State.tap, delayedSlot_eq_base _ hpos (n := n + 1) hn, ← Nat.sub_sub]
  refine ⟨Nat.le_sub_one_of_lt hn, ?_⟩
  rw [s.fracRead_eq nan ch hf h0, show units d / oneUnits = n from rfl, hs0, hs1]
  rfl

end Sys2Proof
end

section
/-!
The commands of the delay line (41_delay_line.md R111 to R121): each with its checks passed, and the setters of a finite
operand (R115 and its like).
-/
namespace Sys2Proof.Machine

variable {s : State} {ch : BitVec 8} {x : F32}

/-! ## The setters -/

/-- A setter that refuses an operand that is not finite, and else stores it and answers it. -/
theorem State.checked_store (u : State) (i : Instr) (v old : F32) (hp : s.prepared = true) :
    s.checked i false false 0#32 (if !fisfinite v then s.raise i .invalidOperand old else u.respond i v) =
      .next (if fisfinite v then u.finish i.opcode i.channel .ok v
        else s.finish i.opcode i.channel .invalidOperand old) := by
  rw [State.checked_pass (needsLine := false) (hasChannel := false) i _ hp nofun nofun]
  cases fisfinite v <;> rfl

/-- `DL_SET_DELAY` past its checks. -/
theorem exec_dlSetDelay (d : F32) (hp : s.prepared = true) (hconf : s.dlConf = true) :
    exec (.dlSetDelay d) s = s.setDelay (.dlSetDelay d) (s.nan 0) d :=
  State.checked_pass _ _ hp (fun _ => hconf) nofun

/-- `DL_SET_DELAY_BPM` past its checks. -/
theorem exec_dlSetDelayBpm (bpm : F32) (hp : s.prepared = true) (hconf : s.dlConf = true) :
    exec (.dlSetDelayBpm bpm) s = if fisfinite bpm = false ∨ flt c0 bpm = false then
      .next (s.finish 0x12#8 0#8 .invalidOperand s.dly)
      else s.setDelay (.dlSetDelayBpm bpm) (s.nan 0) (s.bpmDelay bpm) := by
  rw [show exec (.dlSetDelayBpm bpm) s = _ from State.checked_pass _ _ hp (fun _ => hconf) nofun]
  simp only [Bool.or_eq_true, Bool.not_eq_true']
  rfl

/-! ## DL_CONFIG -/

/-- A `DL_CONFIG` with a bad operand leaves the line not configured; the capacity is tested first (R111). -/
theorem exec_dlConfig_refused {n : BitVec 8} {capacity : BitVec 32} (hp : s.prepared = true)
    (hbad : (capacity.toInt ≤ 0 ∨ (s.capMax : Int) < capacity.toInt) ∨ n.toNat ≠ s.nch) :
    exec (.dlConfig n capacity) s = .next (s.unconfigureLine.finish 0x10#8 0#8
      (if capacity.toInt ≤ 0 ∨ (s.capMax : Int) < capacity.toInt then .invalidConfiguration else .channelMismatch)
      0#32) := by
  rw [show exec (.dlConfig n capacity) s = _ from State.checked_pass _ _ hp nofun nofun]
  by_cases hcap : capacity.toInt ≤ 0 ∨ (s.capMax : Int) < capacity.toInt
  · rw [operandS, if_pos hcap, if_pos hcap]
    rfl
  · rw [operandS, if_neg hcap, if_neg hcap, if_pos (hbad.resolve_left hcap)]
    rfl

/-! ## The commands on a channel -/

/-- The checks of R228 to R230 hold for a command on this channel of the line. -/
theorem State.checked_line {v : BitVec 32} (i : Instr) (body : Result) (hp : s.prepared = true) (hconf : s.dlConf = true)
    (hch : i.channel.toNat < s.nch) : s.checked i true true v body = body :=
  State.checked_pass i body hp (fun _ => hconf) fun _ => hch

theorem exec_dlPush (x : F32) (h : s.LineReady ch) :
    exec (.dlPush ch x) s = .next ((s.push ch x).finish 0x15#8 ch .ok x) :=
  State.checked_line (.dlPush ch x) _ h.ready.prepared h.configured h.ready.channel

theorem exec_dlPop (hp : s.prepared = true) (hconf : s.dlConf = true) (hch : ch.toNat < s.nch) :
    exec (.dlPop ch) s = .next (s.finish 0x16#8 ch .ok (s.fracRead s.nan ch s.dly)) :=
  State.checked_line (.dlPop ch) _ hp hconf hch

theorem exec_dlStep (x : F32) (h : s.LineReady ch) :
    exec (.dlStep ch x) s =
      .next ((s.push ch x).finish 0x17#8 ch .ok ((s.push ch x).fracRead s.nan ch s.dly)) :=
  State.checked_line (.dlStep ch x) _ h.ready.prepared h.configured h.ready.channel

/-- A command that pushes and ends: the word, the pointer, and nothing else (R118). -/
theorem State.push_finish (h : s.LineReady ch) (opc : BitVec 8) (x v : F32) :
    s.PushedOn ((s.push ch x).finish opc ch .ok v) ch x ∧
      ((s.push ch x).finish opc ch .ok v).chan ch = { s.chan ch with widx := ((s.chan ch).widx + 1) % s.cap } ∧
      ((s.push ch x).finish opc ch .ok v).besideRamAndChans = (s.finish opc ch .ok v).besideRamAndChans := by
  refine ⟨(s.push_pushedOn ch x h.ram).congr rfl fun _ _ => rfl, ?_, State.finish_beside (s.push_beside ch x) rfl⟩
  rw [State.finish_chan, s.push_chan_same ch x h.ready.lt_length, advance_eq]

end Sys2Proof.Machine

namespace Sys2Proof
open Machine

/-- Settles O20: a bad operand (`exec_dlConfig_refused`), or the writes of `State.configureLine`. -/
theorem dlConfig : Obligations.DlConfig := by
  intro n capacity s hp
  refine ⟨fun hbad => ?_, fun hpos hle hne => ?_, fun hpos hle hn => ?_⟩
  · rw [exec_dlConfig_refused hp (.inl hbad), if_pos hbad]
    rfl
  · rw [exec_dlConfig_refused hp (.inr hne), if_neg (by omega)]
    rfl
  · exact ⟨s.nan, _, s.nan_nanSource, exec_dlConfig_ok hp hn hpos hle,
      fun ch i => s.configureLine_memRead ch i capacity.toNat, rfl, rfl⟩

/-- Settles O25. -/
theorem dlPush : Obligations.DlPush := fun _ x _ h => ⟨_, exec_dlPush x h, State.push_finish h _ x _⟩

/-- Settles O26: the second pop reads the same state with fresh NaN draws (`State.fracRead_alike`). -/
theorem dlPop : Obligations.DlPop := by
  intro ch s hp hconf hch
  refine ⟨⟨s.nan, s.nan_nanSource, exec_dlPop hp hconf hch⟩, fun hf => ?_⟩
  refine ⟨_, _, exec_dlPop hp hconf hch, exec_dlPop (s := s.finish ..) hp hconf hch, ?_⟩
  rw [State.finish_fracRead, State.finish_dly]
  obtain ⟨halike, hsame⟩ := s.fracRead_alike s.nan_nanSource (State.nan_nanSource (s.finish 0x16#8 ch .ok _)) ch hf
  exact ⟨halike.imp_left Eq.symm, fun hi => (hsame hi).symm⟩

/-- Settles O27. -/
theorem dlStep : Obligations.DlStep := fun _ x s h =>
  ⟨s.nan, _, s.nan_nanSource, exec_dlStep x h, State.push_finish h _ x _⟩

/-- Settles O21. -/
theorem dlSetInterp : Obligations.DlSetInterp := fun v _ hp => by
  rw [show exec (.dlSetInterp v) _ = _ from State.checked_pass _ _ hp nofun nofun]
  rfl

/-- Settles O22, by `State.setDelay_eq`. -/
theorem dlSetDelay : Obligations.DlSetDelay := fun d s hp hconf =>
  ⟨s.nan 0, s.nan_nanSource 0, (exec_dlSetDelay d hp hconf).trans (State.setDelay_eq _ s _ d)⟩

/-- Settles O23: past the test of the tempo the command goes on as `DL_SET_DELAY` does (`State.setDelay_eq`). -/
theorem dlSetDelayBpm : Obligations.DlSetDelayBpm := by
  intro bpm s hp hconf
  refine ⟨s.nan, s.nan_nanSource, ?_⟩
  rw [exec_dlSetDelayBpm bpm hp hconf, State.setDelay_eq]
  split <;> rfl

/-- Settles O24: the five commands have one shape (`State.checked_store`). -/
theorem storingSetters : Obligations.StoringSetters := fun v s hp =>
  ⟨State.checked_store { s with noteDiv := v } (.dlSetNotediv v) v s.noteDiv hp,
    State.checked_store { s with mdDepth := v } (.mdSetDepth v) v s.mdDepth hp,
    State.checked_store { s with mdBase := v } (.mdSetBase v) v s.mdBase hp,
    State.checked_store { s with g1 := v } (.napfSetG1 v) v s.g1 hp,
    State.checked_store { s with g2 := v } (.napfSetG2 v) v s.g2 hp⟩

/-- Settles O28. -/
theorem dlPeek : Obligations.DlPeek := by
  intro ch index s hp hconf hch
  rw [show exec (.dlPeek ch index) s = _ from State.checked_line (.dlPeek ch index) _ hp hconf hch]
  by_cases hout : s.cap ≤ index.toNat
  · rw [operandU, if_pos hout, if_pos hout]
    rfl
  · rw [operandU, if_neg hout, if_neg hout]
    rfl

end Sys2Proof
end

section
/-!
A stream of `DL_STEP` with `INTERP` = 0 (41_delay_line.md R120, R124, O33): the line holds the samples pushed so far, so the
read at a whole delay is the sample that many steps back.
-/
namespace Sys2Proof.Machine

/-! ## What the stream answers -/

/-- The answer to the `k`-th step of a stream: +0.0 for the first `delay` steps, then the sample `delay` steps earlier. -/
def delayedAnswer (ch : BitVec 8) (delay : Nat) (xs : List F32) (k : Nat) : Word64 :=
  responseWord 0x17#8 ch .ok (if delay ≤ k then xs.getD (k - delay) 0x00000000#32 else 0x00000000#32)

/-- A later sample changes no answer before its own. -/
theorem delayedAnswer_append {k : Nat} (ch : BitVec 8) (delay : Nat) {xs : List F32} (x : F32) (hk : k < xs.length) :
    delayedAnswer ch delay (xs ++ [x]) k = delayedAnswer ch delay xs k := by
  rw [delayedAnswer, List.getD_append _ _ _ _ (by omega), delayedAnswer]

theorem delayedAnswers_append (ch : BitVec 8) (delay : Nat) (xs : List F32) (x : F32) :
    (List.range (xs ++ [x]).length).map (delayedAnswer ch delay (xs ++ [x])) =
      (List.range xs.length).map (delayedAnswer ch delay xs) ++ [delayedAnswer ch delay (xs ++ [x]) xs.length] := by
  rw [List.length_append, List.length_singleton, List.range_succ, List.map_append, List.map_singleton]
  congr 1
  exact List.map_congr_left fun k hk => delayedAnswer_append ch delay x (List.mem_range.mp hk)

/-- The most recent sample is the last: the one `delay` steps back, where there is one. -/
theorem getD_reverse_append (xs : List F32) (x : F32) (delay : Nat) :
    (x :: xs.reverse).getD delay c0 =
      if delay ≤ xs.length then (xs ++ [x]).getD (xs.length - delay) 0x00000000#32 else 0x00000000#32 := by
  have hrev : x :: xs.reverse = (xs ++ [x]).reverse := by simp
  have hlen : (xs ++ [x]).length = xs.length + 1 := by simp
  rw [hrev]
  split
  · next h => rw [List.getD_reverse delay (by omega), hlen, Nat.add_sub_cancel, c0]
  · next h => exact List.getD_eq_default _ _ (by rw [List.length_reverse]; omega)

/-! ## The line along the stream -/

variable {s : State} {ch : BitVec 8} {cap : Nat} {xs : List F32} {x : F32}

/-- A row of +0.0 holds no sample. -/
theorem State.holds_nil (hr : s.LineReady ch) (hw : (s.chan ch).widx < s.cap)
    (hzero : ∀ i, i < s.cap → s.memRead ch i = c0) : s.Holds ch s.cap [] :=
  ⟨hr, rfl, hw, fun _ _ => hzero _ (delayedSlot_lt _ _ (Nat.one_le_of_lt hw))⟩

/-- After the samples `xs` at the delay `d`, of the whole part `delay` and without interpolation: the line holds the
samples, and each step was answered as the stream asks, after the responses `before`. -/
structure State.Streams (s : State) (ch : BitVec 8) (cap : Nat) (d : F32) (before : List Word64) (xs : List F32) :
    Prop where
  holds : s.Holds ch cap xs.reverse
  whole : s.interp = false
  dly_eq : s.dly = d
  answers : s.rspOut = before ++ (List.range xs.length).map (delayedAnswer ch (units d / oneUnits) xs)

/-- Without interpolation a read at a delay within the row gives the sample that the line holds there. -/
theorem State.Holds.fracRead_eq {d : F32} {hist : List F32} (h : s.Holds ch cap hist) (hi : s.interp = false)
    (hf : fisfinite d = true) (h0 : fle c0 d = true) (hd : units d / oneUnits < cap) (nan : Nat → F32) :
    s.fracRead nan ch d = hist.getD (units d / oneUnits) c0 := by
  rw [s.fracRead_eq nan ch hf h0, hi, if_neg (by decide), h.samples _ hd]

/-- The stream does not see the words that wait. -/
theorem State.Streams.take {d : F32} {before : List Word64} (h : s.Streams ch cap d before xs) (rest : List Word64) :
    State.Streams { s with cmdIn := rest } ch cap d before xs :=
  ⟨h.holds.congr (.of_registers rfl rfl rfl rfl rfl), h.whole, h.dly_eq, h.answers⟩

/-- One more `DL_STEP` of the stream. -/
theorem exec_streams {d : F32} {before : List Word64} (x : F32) (hf : fisfinite d = true) (h0 : fle c0 d = true)
    (hd : units d / oneUnits < cap) (h : s.Streams ch cap d before xs) :
    ∃ t, exec (.dlStep ch x) s = .next t ∧ t.Streams ch cap d before (xs ++ [x]) := by
  obtain ⟨hholds, hwhole, rfl, hanswers⟩ := h
  have hpushed := hholds.push x
  refine ⟨_, exec_dlStep x hholds.ready, ?_, hwhole, rfl, ?_⟩
  · rw [List.reverse_append]
    exact hpushed.congr (.finish ..)
  · rw [State.finish_rspOut, State.push_rspOut, hpushed.fracRead_eq hwhole hf h0 hd, getD_reverse_append, hanswers,
      List.append_assoc, delayedAnswers_append]
    rfl

/-- The sample of a stream's word. -/
theorem pushedSample_dlStep (ch : BitVec 8) (x : F32) : pushedSample ch (encode (.dlStep ch x)) = some x := by
  rw [pushedSample, decode_encode rfl]
  exact if_pos rfl

theorem pushedSamples_dlSteps (ch : BitVec 8) (xs : List F32) :
    (xs.map fun x => encode (.dlStep ch x)).filterMap (pushedSample ch) = xs := by
  rw [List.filterMap_map, Function.comp_def]
  simp only [pushedSample_dlStep, List.filterMap_some]

end Sys2Proof.Machine

namespace Sys2Proof
open Machine

/-- Settles O33: every step of the run keeps `State.Streams`. -/
theorem wholeDelayStream : Obligations.WholeDelayStream := by
  intro s ch xs hr hline hparams hi hzero delay
  obtain ⟨hpos, hcap⟩ := hline.conf_cap hr.configured
  obtain ⟨hf, hrange⟩ := hline.conf_dly hr.configured
  obtain ⟨h0, hlt⟩ : fle c0 s.dly = true ∧ flt s.dly s.capF = true := by
    simpa only [delayInRange, Bool.and_eq_true] using hrange
  have hd : units s.dly / oneUnits < s.cap := wholePart_lt (hcap.trans hparams.capMax_le) h0 hlt
  have hstart : s.Streams ch s.cap s.dly s.rspOut [] :=
    ⟨State.holds_nil hr (hline.conf_widx hr.configured ch hr.ready.channel) hzero, hi, rfl, (List.append_nil _).symm⟩
  obtain ⟨t, hrun, ht⟩ := run_words (s := { s with cmdIn := xs.map fun x => encode (.dlStep ch x) }) (done := [])
    (P := fun done t => t.Streams ch s.cap s.dly s.rspOut (done.filterMap (pushedSample ch)))
    (fun done w rest t hw hc h => by
      obtain ⟨x, -, rfl⟩ := List.mem_map.mp hw
      obtain ⟨u, hu, hs⟩ := exec_streams x hf h0 hd (h.take rest)
      exact ⟨u, (step_of_decode hc (decode_encode rfl)).trans hu, by simpa [pushedSample_dlStep] using hs⟩)
    rfl (hstart.take _)
  rw [List.nil_append, pushedSamples_dlSteps] at ht
  rw [List.length_map] at hrun
  exact ⟨t, hrun, ht.answers⟩

end Sys2Proof
end

section
/-!
The interpolation of the fractional read (41_delay_line.md R117, R123, O31): it gives the newer sample at a whole delay, and
lies between its two samples but for the rounding of its four operations.
-/
namespace Sys2Proof.Machine

variable (n : F32) {a b x : F32}

/-! ## Values -/

theorem value_c0 : value c0 = 0 := by
  have h : signedUnits c0 = 0 := by decide
  rw [value, h, Int.cast_zero, zero_div]

theorem value_c1 : value c1 = 1 := by
  have h : signedUnits c1 = 2 ^ 149 := by decide +kernel
  rw [value, h, Int.cast_pow, Int.cast_ofNat, div_self (by positivity)]

theorem value_fneg (x : F32) : value (fneg x) = -value x := by
  rw [value, value, signedUnits_fneg, Int.cast_neg, neg_div]

theorem value_le_of_fle (h : fle a b = true) : value a ≤ value b := by
  simp only [fle, Bool.and_eq_true, decide_eq_true_eq] at h
  exact div_le_div_of_nonneg_right (Int.cast_le.mpr h.2) (by positivity)

/-- The magnitude of a sum, in units. -/
theorem abs_value_add (a b : F32) : |value a + value b| = ((signedUnits a + signedUnits b).natAbs : ℚ) / 2 ^ 149 := by
  have hpos : (0 : ℚ) < 2 ^ 149 := by positivity
  rw [value, value, ← add_div, ← Int.cast_add, abs_div, abs_of_pos hpos, Nat.cast_natAbs, Int.cast_abs]

theorem magUnits_infinity : magUnits 0x7F800000 = 2 ^ 277 := by decide +kernel

theorem units_lt_of_finite (h : fisfinite x = true) : units x < 2 ^ 277 := by
  rw [units_eq, ← magUnits_infinity]
  exact magUnits_strictMono ((fisfinite_iff x).mp h)

/-! ## Sums -/

/-- The pattern of a sum is the rounded magnitude of the exact one. -/
theorem magBits_fadd (ha : fisfinite a = true) (hb : fisfinite b = true) :
    magBits (fadd n a b) = roundUnits (signedUnits a + signedUnits b).natAbs 1 := by
  rw [fadd_of_finite n ha hb, ofUnits]
  split
  · next h =>
    rw [h, magBits_packF32 _ (by decide)]
    decide
  · rw [magBits_packF32 _ (roundUnits_lt _ _)]

/-- Finite operands have no NaN as their sum. -/
theorem isNaN_fadd (ha : fisfinite a = true) (hb : fisfinite b = true) : isNaN (fadd n a b) = false := by
  rw [Bool.eq_false_iff, ne_eq, isNaN_iff, magBits_fadd n ha hb]
  exact (roundUnits_le _ _).not_gt

/-- A sum that does not overflow is below 2^128. -/
theorem sum_lt_of_finite (ha : fisfinite a = true) (hb : fisfinite b = true) (h : fisfinite (fadd n a b) = true) :
    (signedUnits a + signedUnits b).natAbs < 2 ^ 277 := by
  rw [fisfinite_iff, magBits_fadd n ha hb] at h
  by_contra hlarge
  rw [not_lt, ← magUnits_infinity] at hlarge
  have hmono := roundUnits_mono Nat.one_pos Nat.one_pos (Nat.mul_le_mul_right 1 hlarge)
  rw [roundUnits_magUnits le_rfl] at hmono
  omega

/-- A sum up to 1.5 * 2^127 does not overflow. -/
theorem finite_fadd (ha : fisfinite a = true) (hb : fisfinite b = true) (h : |value a + value b| ≤ 3 * 2 ^ 126) :
    fisfinite (fadd n a b) = true := by
  rw [abs_value_add, div_le_iff₀ (by positivity)] at h
  have hsum : (signedUnits a + signedUnits b).natAbs ≤ 3 * 2 ^ 126 * 2 ^ 149 := by exact_mod_cast h
  have hx : units 0x7F400000#32 = 3 * 2 ^ 126 * 2 ^ 149 := by decide +kernel
  have hxb : magBits 0x7F400000#32 = 0x7F400000 := by decide
  rw [← Nat.mul_one (3 * 2 ^ 126 * 2 ^ 149), ← hx] at hsum
  have hle := roundUnits_le_of_le Nat.one_pos (by decide) hsum
  rw [fisfinite_iff, magBits_fadd n ha hb]
  omega

/-- A number of units that an F32 has as its magnitude is not rounded. -/
theorem signedUnits_ofUnits (s : Bool) {z : Int} (h : magUnits (roundUnits z.natAbs 1) = z.natAbs) :
    signedUnits (ofUnits s z) = z := by
  unfold ofUnits
  split
  · next hz =>
    rw [hz]
    cases s <;> decide
  · rw [signedUnits, signBit_packF32 _ (roundUnits_lt _ _), units_packF32 _ (roundUnits_lt _ _), h]
    split
    · next hneg =>
      have := of_decide_eq_true hneg
      omega
    · next hpos =>
      have := of_decide_eq_false (Bool.eq_false_iff.mpr hpos)
      omega

/-- A sum below 2^24 units is exact: an F32 has 24 bits. -/
theorem value_fadd_of_small (ha : fisfinite a = true) (hb : fisfinite b = true)
    (h : |value a + value b| < 2 ^ 24 / 2 ^ 149) : value (fadd n a b) = value a + value b := by
  rw [abs_value_add, div_lt_div_iff_of_pos_right (by positivity)] at h
  have hsum : (signedUnits a + signedUnits b).natAbs < 2 ^ 24 := by exact_mod_cast h
  have hexact := (roundUnits_exact _ 0 hsum (by decide)).2
  rw [pow_zero, Nat.mul_one] at hexact
  rw [value, fadd_of_finite n ha hb, signedUnits_ofUnits _ hexact, Int.cast_add, add_div, value, value]

/-! ## Products with a weight of at most 1.0 -/

theorem finite_fmul_of_weight (ha : fisfinite a = true) (hb : fisfinite b = true) (hw : units a ≤ oneUnits) :
    fisfinite (fmul n a b) = true := by
  have hprod : units a * units b ≤ units b * oneUnits := by
    rw [Nat.mul_comm]
    exact Nat.mul_le_mul_left _ hw
  have hle := roundUnits_le_of_le (by decide +kernel) hb hprod
  have hfin := (fisfinite_iff b).mp hb
  rw [fmul_of_finite n ha hb]
  exact finite_packF32 _ (by omega)

theorem fmul_weight_error (ha : fisfinite a = true) (hb : fisfinite b = true) (hw : units a ≤ oneUnits) :
    |value (fmul n a b) - value a * value b| ≤ |value a * value b| / 2 ^ 24 + 1 / 2 / 2 ^ 149 := by
  refine fmul_error n ha hb ?_
  calc units a * units b ≤ oneUnits * units b := Nat.mul_le_mul_right _ hw
    _ < oneUnits * 2 ^ 277 := Nat.mul_lt_mul_of_pos_left (units_lt_of_finite hb) (by decide +kernel)
    _ = 2 ^ 277 * oneUnits := Nat.mul_comm _ _

/-- A product with 1.0 is its other factor. -/
theorem fmul_c1 (hb : fisfinite b = true) : fmul n c1 b = b := by
  have hround : roundUnits (units c1 * units b) oneUnits = magBits b := by
    rw [← roundUnits_units hb]
    exact roundUnits_ratio (by decide +kernel) Nat.one_pos (by rw [units_c1, Nat.mul_one, Nat.mul_comm])
  have hsign : signBit c1 = false := by decide
  rw [fmul_of_finite n (by decide) hb, hround, hsign, Bool.false_bne, packF32_self]

/-- A product with +0.0 is a zero, of either sign. -/
theorem signedUnits_fmul_c0 (hb : fisfinite b = true) : signedUnits (fmul n c0 b) = 0 := by
  have hz : units c0 = 0 := by decide
  have hround : roundUnits 0 oneUnits = 0 := by decide +kernel
  rw [fmul_of_finite n (by decide) hb, hz, Nat.zero_mul, hround]
  cases signBit c0 != signBit b <;> decide

/-- A product of +0.0 and an infinity or a NaN is a NaN. -/
theorem fmul_c0_of_not_finite (hb : fisfinite b = false) : fmul n c0 b = n := by
  cases hn : isNaN b
  · have hinf : isInf b = true := by
      by_contra h
      rw [finite_of_not hn (by simpa using h)] at hb
      cases hb
    have h0 : isNaN c0 = false ∧ isZero c0 = true := by decide
    simp [fmul, hn, hinf, h0.1, h0.2]
  · exact fmul_of_nan n c0 b (.inr hn)

/-! ## The complement of a fraction -/

/-- A fraction is a number of units from 0 to 2^149. -/
theorem units_le_of_fle_c1 (h0 : fle c0 x = true) (h1 : fle x c1 = true) : units x ≤ oneUnits := by
  have hc : signedUnits c1 = (oneUnits : Int) := by decide +kernel
  simp only [fle, Bool.and_eq_true, decide_eq_true_eq, signedUnits_of_fle h0, hc, Nat.cast_le] at h1
  exact h1.2

/-- `1.0 - fr` is finite, at most 1.0, and off by one rounding. -/
theorem complement_spec (hf : fisfinite x = true) (h0 : fle c0 x = true) (h1 : fle x c1 = true) :
    fisfinite (fsub n c1 x) = true ∧ units (fsub n c1 x) ≤ oneUnits ∧
      |value (fsub n c1 x) - (1 - value x)| ≤ (1 - value x) / 2 ^ 24 + 1 / 2 / 2 ^ 149 := by
  have hc : fisfinite c1 = true := by decide
  have hneg : fisfinite (fneg x) = true := (fisfinite_fneg x).trans hf
  have hone : signedUnits c1 = (oneUnits : Int) := by decide +kernel
  have hle := units_le_of_fle_c1 h0 h1
  have hsum : (signedUnits c1 + signedUnits (fneg x)).natAbs ≤ oneUnits := by
    rw [signedUnits_fneg, signedUnits_of_fle h0, hone]
    omega
  have hbits : magBits (fadd n c1 (fneg x)) ≤ magBits c1 := by
    rw [magBits_fadd n hc hneg]
    exact roundUnits_le_of_le Nat.one_pos hc (by rwa [units_c1, Nat.mul_one])
  have herr := fadd_error n hc hneg (hsum.trans_lt (by decide +kernel))
  have hnonneg : 0 ≤ 1 - value x := sub_nonneg.mpr (value_c1 ▸ value_le_of_fle h1)
  rw [value_c1, value_fneg, ← sub_eq_add_neg, abs_of_nonneg hnonneg] at herr
  rw [fsub, if_neg (by simp [isNaN_of_finite hf])]
  refine ⟨?_, ?_, herr⟩
  · rw [fisfinite_iff]
    exact hbits.trans_lt (by decide)
  · rw [← units_c1, units_eq, units_eq]
    exact magUnits_strictMono.monotone hbits

/-! ## The mix in rational numbers -/

/-- A mix of two numbers lies between them. -/
theorem mix_mem {f : ℚ} (h0 : 0 ≤ f) (h1 : f ≤ 1) (v w : ℚ) :
    min v w ≤ (1 - f) * v + f * w ∧ (1 - f) * v + f * w ≤ max v w := by
  have hv := min_le_left v w
  have hw := min_le_right v w
  have hv' := le_max_left v w
  have hw' := le_max_right v w
  constructor <;> nlinarith

/-- The first three operations of a mix, each off by one rounding: `r` for `1 - f`, and the products `p` and `q`. -/
structure RoundedMix (f v w r p q : ℚ) : Prop where
  nonneg : 0 ≤ f
  le_one : f ≤ 1
  rest : |r - (1 - f)| ≤ (1 - f) / 2 ^ 24 + 1 / 2 / 2 ^ 149
  part0 : |p - r * v| ≤ |r * v| / 2 ^ 24 + 1 / 2 / 2 ^ 149
  part1 : |q - f * w| ≤ |f * w| / 2 ^ 24 + 1 / 2 / 2 ^ 149

variable {f v w r p q : ℚ}

/-- The exact parts of a mix together are at most the larger of its two numbers. -/
theorem RoundedMix.parts_le (h : RoundedMix f v w r p q) : (1 - f) * |v| + f * |w| ≤ max |v| |w| :=
  (mix_mem h.nonneg h.le_one |v| |w|).2

/-- How far the first product is off for the rounding of `1 - f`. -/
theorem RoundedMix.rest_mul (h : RoundedMix f v w r p q) :
    |r * v - (1 - f) * v| ≤ (1 - f) * |v| / 2 ^ 24 + |v| / 2 / 2 ^ 149 := by
  rw [← sub_mul, abs_mul]
  refine (mul_le_mul_of_nonneg_right h.rest (abs_nonneg v)).trans_eq ?_
  ring

theorem RoundedMix.abs_rest_mul_le (h : RoundedMix f v w r p q) :
    |r * v| ≤ (1 - f) * |v| + ((1 - f) * |v| / 2 ^ 24 + |v| / 2 / 2 ^ 149) := by
  have hexact : |(1 - f) * v| = (1 - f) * |v| := by rw [abs_mul, abs_of_nonneg (sub_nonneg.mpr h.le_one)]
  have htri := abs_add_le ((1 - f) * v) (r * v - (1 - f) * v)
  rw [add_sub_cancel, hexact] at htri
  exact htri.trans (add_le_add_right h.rest_mul _)

/-- The sum of the rounded products is hardly larger than the larger of the two numbers. -/
theorem RoundedMix.abs_sum_le (h : RoundedMix f v w r p q) :
    |p + q| ≤ max |v| |w| + max |v| |w| / 2 ^ 22 + 1 / 2 ^ 148 := by
  have htri : |p + q| ≤ |r * v| + |f * w| + |p - r * v| + |q - f * w| := by
    have h1 := abs_add_le (r * v) (p - r * v)
    have h2 := abs_add_le (f * w) (q - f * w)
    rw [add_sub_cancel] at h1 h2
    linarith [abs_add_le p q]
  have hfw : |f * w| = f * |w| := by rw [abs_mul, abs_of_nonneg h.nonneg]
  have hv : |v| ≤ max |v| |w| := le_max_left ..
  have hp := h.part0
  have hq := h.part1
  have hparts := h.parts_le
  have hrest := h.abs_rest_mul_le
  have hv0 := abs_nonneg v
  have hf : 0 ≤ f * |w| := mul_nonneg h.nonneg (abs_nonneg w)
  rw [hfw] at htri hq
  generalize (1 - f) * |v| = x at *
  generalize f * |w| = y at *
  linarith

/-- The mix is off by at most 2^-22 of the larger number and one unit of 2^-149, if its last operation is off by one
rounding and is exact below 2^24 units. -/
theorem RoundedMix.error {o : ℚ} (h : RoundedMix f v w r p q)
    (hout : |o - (p + q)| ≤ |p + q| / 2 ^ 24 + 1 / 2 / 2 ^ 149)
    (hsmall : |p + q| < 2 ^ 24 / 2 ^ 149 → o = p + q) :
    |o - ((1 - f) * v + f * w)| ≤ max |v| |w| / 2 ^ 22 + 1 / 2 ^ 149 := by
  have htri : |o - ((1 - f) * v + f * w)| ≤
      |o - (p + q)| + |p - r * v| + |q - f * w| + |r * v - (1 - f) * v| := by
    have e : o - ((1 - f) * v + f * w) = o - (p + q) + (p - r * v) + (q - f * w) + (r * v - (1 - f) * v) := by ring
    rw [e]
    linarith [abs_add_le (o - (p + q) + (p - r * v) + (q - f * w)) (r * v - (1 - f) * v),
      abs_add_le (o - (p + q) + (p - r * v)) (q - f * w), abs_add_le (o - (p + q)) (p - r * v)]
  have hfw : |f * w| = f * |w| := by rw [abs_mul, abs_of_nonneg h.nonneg]
  have hv : |v| ≤ max |v| |w| := le_max_left ..
  have hsum := h.abs_sum_le
  have hp := h.part0
  have hq := h.part1
  have hparts := h.parts_le
  have hrest := h.rest_mul
  have hrest' := h.abs_rest_mul_le
  have hf : 0 ≤ f * |w| := mul_nonneg h.nonneg (abs_nonneg w)
  have hf' : 0 ≤ (1 - f) * |v| := mul_nonneg (sub_nonneg.mpr h.le_one) (abs_nonneg v)
  rw [hfw] at hq
  generalize (1 - f) * |v| = x at *
  generalize f * |w| = y at *
  rcases lt_or_ge |p + q| (2 ^ 24 / 2 ^ 149) with hlow | hhigh
  · have hexact : |o - (p + q)| = 0 := by rw [hsmall hlow, sub_self, abs_zero]
    linarith
  · linarith

/-! ## The mix of two samples -/

variable (nan : Nat → F32) {fr s0 s1 : F32}

/-- The operations of an interpolation up to the sum, in rational numbers. -/
theorem interpolate_parts (hf : fisfinite fr = true) (h0 : fle c0 fr = true) (h1 : fle fr c1 = true)
    (hs0 : fisfinite s0 = true) (hs1 : fisfinite s1 = true) :
    fisfinite (fmul (nan 3) (fsub (nan 2) c1 fr) s0) = true ∧ fisfinite (fmul (nan 4) fr s1) = true ∧
      RoundedMix (value fr) (value s0) (value s1) (value (fsub (nan 2) c1 fr))
        (value (fmul (nan 3) (fsub (nan 2) c1 fr) s0)) (value (fmul (nan 4) fr s1)) := by
  obtain ⟨hrest, hrest_le, hrest_err⟩ := complement_spec (nan 2) hf h0 h1
  have hfr_le := units_le_of_fle_c1 h0 h1
  exact ⟨finite_fmul_of_weight _ hrest hs0 hrest_le, finite_fmul_of_weight _ hf hs1 hfr_le,
    value_c0 ▸ value_le_of_fle h0, value_c1 ▸ value_le_of_fle h1, hrest_err,
    fmul_weight_error _ hrest hs0 hrest_le, fmul_weight_error _ hf hs1 hfr_le⟩

/-- At a whole delay the interpolation has the value of the newer sample (R117, corner case (a)). -/
theorem signedUnits_interpolate_c0 (hs0 : fisfinite s0 = true) (hs1 : fisfinite s1 = true) :
    isNaN (interpolate nan c0 s0 s1) = false ∧ signedUnits (interpolate nan c0 s0 s1) = signedUnits s0 := by
  have hone : fsub (nan 2) c1 c0 = c1 := by
    rw [fsub_of_finite _ (by decide) (by decide)]
    decide +kernel
  have hpart1 := finite_fmul_of_weight (nan 4) (a := c0) (by decide) hs1 (by decide +kernel)
  rw [interpolate, hone, fmul_c1 _ hs0]
  refine ⟨isNaN_fadd _ hs0 hpart1, ?_⟩
  have hself : magUnits (roundUnits (signedUnits s0).natAbs 1) = (signedUnits s0).natAbs := by
    have habs : (signedUnits s0).natAbs = units s0 := by
      rw [signedUnits]
      split <;> omega
    rw [habs, roundUnits_units hs0, units_eq]
  rw [fadd_of_finite _ hs0 hpart1, signedUnits_fmul_c0 _ hs1, Int.add_zero, signedUnits_ofUnits _ hself]

end Sys2Proof.Machine

namespace Sys2Proof
open Machine

/-- Settles O31: the corner cases by the products with 1.0 and +0.0, the bounds by `RoundedMix`. -/
theorem interpolationBounds : Obligations.InterpolationBounds := by
  refine ⟨fun nan s0 s1 hn => ⟨fun hs0 hs1 => ?_, fun hs1 => ?_⟩,
    fun nan fr s0 s1 hf h0 h1 hs0 hs1 => ?_⟩
  · obtain ⟨hnan, hval⟩ := signedUnits_interpolate_c0 nan hs0 hs1
    simp only [feq, hnan, isNaN_of_finite hs0, hval, decide_true, Bool.not_false, Bool.and_self]
  · rw [interpolate, fmul_c0_of_not_finite _ hs1, fadd_of_nan _ _ _ (.inr (hn 4))]
    exact hn 5
  · intro out low high tolerance rest part0 part1
    obtain ⟨hpart0, hpart1, hmix⟩ : fisfinite part0 = true ∧ fisfinite part1 = true ∧
        RoundedMix (value fr) (value s0) (value s1) (value rest) (value part0) (value part1) :=
      interpolate_parts nan hf h0 h1 hs0 hs1
    have hout : out = fadd (nan 5) part0 part1 := rfl
    obtain ⟨hlow, hhigh⟩ : low ≤ (1 - value fr) * value s0 + value fr * value s1 ∧
        (1 - value fr) * value s0 + value fr * value s1 ≤ high := mix_mem hmix.nonneg hmix.le_one _ _
    rw [hout]
    refine ⟨isNaN_fadd _ hpart0 hpart1, fun hfin => ?_, fun hv hw => finite_fadd _ hpart0 hpart1 ?_,
      fun hrest hp hq hsum => ?_⟩
    · have herr : |value (fadd (nan 5) part0 part1) - _| ≤ tolerance :=
        hmix.error (fadd_error (nan 5) hpart0 hpart1 (sum_lt_of_finite _ hpart0 hpart1 hfin))
          (value_fadd_of_small (nan 5) hpart0 hpart1)
      obtain ⟨hbelow, habove⟩ := abs_le.mp herr
      exact ⟨by linarith, by linarith⟩
    · have hmax := max_le hv hw
      linarith [hmix.abs_sum_le]
    · rw [hsum, hp, hq, hrest]
      exact ⟨hlow, hhigh⟩

end Sys2Proof
end

section
/-!
The modulated-delay engine (42_mod_delay.md R141 to R149): the exact values of its rate mapping and of its shapes at time
+0.0, and its commands with their checks passed.
-/
namespace Sys2Proof.Machine

variable (n : F32) {a b x : F32} {s : State} {ch : BitVec 8}

/-! ## Nonnegative finite operands -/

/-- +0.0 is the neutral term of a sum. -/
theorem fadd_c0 (hb : isPlain b) : fadd n b c0 = b := by
  have hz : signedUnits c0 = 0 := by decide
  rw [fadd_of_finite n hb.2 plain_c0.2, hz, Int.add_zero, hb.1, Bool.false_and, signedUnits_of_nonneg hb.1,
    ofUnits_nonneg (Int.natCast_nonneg _), Int.natAbs_natCast, roundUnits_units hb.2, plain_self hb]

/-- An exact zero without a sign is packed as +0.0. -/
theorem packF32_roundUnits_zero : packF32 false (roundUnits 0 oneUnits) = c0 := by decide +kernel

theorem fmul_c0_left (hb : isPlain b) : fmul n c0 b = c0 := by
  have hz : units c0 = 0 := by decide
  rw [fmul_of_finite n plain_c0.2 hb.2, hz, Nat.zero_mul, plain_c0.1, hb.1]
  exact packF32_roundUnits_zero

theorem fmul_c0_right (hb : isPlain b) : fmul n b c0 = c0 := by
  have hz : units c0 = 0 := by decide
  rw [fmul_of_finite n hb.2 plain_c0.2, hz, Nat.mul_zero, plain_c0.1, hb.1]
  exact packF32_roundUnits_zero

/-- Values without a sign are ordered as their magnitudes. -/
theorem units_le_of_fle (hs : signBit a = false) (hx : isPlain x) (hle : fle a x = true) : units a ≤ units x := by
  simp only [fle, Bool.and_eq_true, decide_eq_true_eq, signedUnits_of_nonneg hs, signedUnits_of_nonneg hx.1,
    Nat.cast_le] at hle
  exact hle.2

/-- A value without a sign that is at most a finite one is finite. -/
theorem plain_of_fle (hs : signBit a = false) (hx : isPlain x) (hle : fle a x = true) : isPlain a := by
  have hunits := units_le_of_fle hs hx hle
  rw [units_eq, units_eq, magUnits_strictMono.le_iff_le] at hunits
  exact ⟨hs, (fisfinite_iff a).mpr (hunits.trans_lt ((fisfinite_iff x).mp hx.2))⟩

/-- A product whose exact value is at most a finite one does not overflow. -/
theorem plain_fmul (ha : isPlain a) (hb : isPlain b) (hx : isPlain x) (hle : units a * units b ≤ units x * oneUnits) :
    isPlain (fmul n a b) := by
  have hround : roundUnits (units a * units b) oneUnits ≤ magBits x :=
    roundUnits_le_of_le (by decide +kernel) hx.2 hle
  rw [fmul_of_finite n ha.2 hb.2, ha.1, hb.1]
  exact plain_packF32 (hround.trans_lt ((fisfinite_iff x).mp hx.2))

/-! ## The rate mapping (R142, R147) -/

/-- `MAXHZ - MINHZ` of a mode, as binary32 rounds it. -/
def bandWidth : MdMode → F32
  | .flanger => 0x409CCCCD#32
  | .chorus | .vibrato | .barberpole => 0x411E6666#32

theorem plain_minHz (mode : MdMode) : isPlain (minHz mode) := show isPlain cTenth from ⟨by decide, by decide⟩

theorem fsub_band (mode : MdMode) : fsub n (maxHz mode) (minHz mode) = bandWidth mode := by
  have hmax : fisfinite (maxHz mode) = true := by cases mode <;> decide
  rw [fsub_of_finite n hmax (plain_minHz mode).2]
  cases mode <;> decide +kernel

theorem plain_bandWidth (mode : MdMode) : isPlain (bandWidth mode) := by
  cases mode <;> exact ⟨by decide, by decide⟩

/-- The rounding of the width does not show at the top of the band. -/
theorem fadd_bandWidth (mode : MdMode) : fadd n (minHz mode) (bandWidth mode) = maxHz mode := by
  rw [fadd_of_finite n (plain_minHz mode).2 (plain_bandWidth mode).2]
  cases mode <;> decide +kernel

theorem rateHz_eq (nan : Nat → F32) (mode : MdMode) (r : F32) :
    rateHz nan mode r = fadd (nan 2) (minHz mode) (fmul (nan 1) r (bandWidth mode)) := by
  rw [rateHz, fsub_band]

theorem rateHz_c0 (nan : Nat → F32) (mode : MdMode) : rateHz nan mode c0 = minHz mode := by
  rw [rateHz_eq, fmul_c0_left _ (plain_bandWidth mode)]
  exact fadd_c0 _ (plain_minHz mode)

theorem rateHz_c1 (nan : Nat → F32) (mode : MdMode) : rateHz nan mode c1 = maxHz mode := by
  rw [rateHz_eq, fmul_c1 _ (plain_bandWidth mode).2, fadd_bandWidth]

/-! ## The shapes (R148) -/

/-- `2 * PI` is exact. -/
theorem fmul_c2_cPi : fmul n c2 cPi = 0x40C90FDB#32 := by
  rw [fmul_of_finite n (by decide) (by decide)]
  decide +kernel

theorem shape_eq (nan : Nat → F32) (mode : MdMode) (hz t : F32) : shape nan mode hz t =
    if mode = .barberpole then
      fmul (nan 4) c2 (fsub (nan 3) (fmul (nan 0) hz t) (ffloor (nan 2) (fadd (nan 1) (fmul (nan 0) hz t) cHalf)))
    else fsin (fmul (nan 2) (fmul (nan 1) 0x40C90FDB#32 hz) t) := by
  cases mode
  case barberpole => rw [shape, sawShape, if_pos rfl]
  all_goals rw [shape, sineShape, fmul_c2_cPi, if_neg nofun]

theorem plain_c10 : isPlain c10 := ⟨by decide, by decide⟩

/-- The angular rate of a rate up to 10 Hz is far below an overflow: it is below 64. -/
theorem plain_angularRate {hz : F32} (h : isPlain hz) (hle : fle hz c10 = true) :
    isPlain (fmul n 0x40C90FDB#32 hz) := by
  have hbound : units 0x40C90FDB#32 * units c10 ≤ units 0x42800000#32 * oneUnits := by decide +kernel
  exact plain_fmul n ⟨by decide, by decide⟩ h (x := 0x42800000#32) ⟨by decide, by decide⟩
    ((Nat.mul_le_mul_left _ (units_le_of_fle h.1 plain_c10 hle)).trans hbound)

/-- The sine shape starts at +0.0, by law L2. -/
theorem sineShape_c0 (nan : Nat → F32) {hz : F32} (h : isPlain hz) (hle : fle hz c10 = true) :
    sineShape nan hz c0 = c0 := by
  rw [sineShape, fmul_c2_cPi, fmul_c0_right _ (plain_angularRate _ h hle), fsin, if_pos rfl]

/-- The sawtooth starts at +0.0: a phase of +0.0 has the floor of 0.5 for its whole part. -/
theorem sawShape_c0 (nan : Nat → F32) {hz : F32} (h : isPlain hz) : sawShape nan hz c0 = c0 := by
  have hhalf : fadd (nan 1) c0 cHalf = cHalf := by
    rw [fadd_of_finite _ (by decide) (by decide)]
    decide +kernel
  have hfloor : ffloor (nan 2) cHalf = c0 := by
    rw [ffloor_of_finite _ (by decide)]
    decide +kernel
  have hdiff : fsub (nan 3) c0 c0 = c0 := by
    rw [fsub_of_finite _ (by decide) (by decide)]
    decide +kernel
  simp only [sawShape, fmul_c0_right _ h, hhalf, hfloor, hdiff]
  exact fmul_c0_right _ ⟨by decide, by decide⟩

theorem shape_c0 (nan : Nat → F32) (mode : MdMode) {hz : F32} (hs : signBit hz = false) (hle : fle hz c10 = true) :
    shape nan mode hz c0 = c0 := by
  have h : isPlain hz := plain_of_fle hs plain_c10 hle
  cases mode
  case barberpole => exact sawShape_c0 nan h
  all_goals exact sineShape_c0 nan h hle

/-! ## The setters (R141, R143, R146) -/

/-- A setter that refuses some operands, and else makes its writes and answers. -/
theorem State.checked_setter {refuse : Bool} {ok : Prop} [Decidable ok] (u : State) (i : Instr) (v old : F32)
    (hp : s.prepared = true) (hok : ok ↔ refuse = false) :
    s.checked i false false 0#32 (if refuse then s.raise i .invalidOperand old else u.respond i v) =
      .next (if ok then u.finish i.opcode i.channel .ok v
        else s.finish i.opcode i.channel .invalidOperand old) := by
  rw [State.checked_pass (needsLine := false) (hasChannel := false) i _ hp nofun nofun]
  cases refuse
  · rw [if_pos (hok.mpr rfl)]
    rfl
  · rw [if_neg fun h => nomatch hok.mp h]
    rfl

theorem percentOk_iff (p : F32) :
    percentOk p = true ↔ fisfinite p = true ∧ fle c0 p = true ∧ fle p c100 = true := by
  rw [percentOk, Bool.and_eq_true, Bool.and_eq_true, and_assoc]

/-! ## MD_STEP (R149) -/

/-- A command that pushes, writes its channel's registers and ends: the word, those registers, and nothing else. -/
theorem State.push_setChan_finish (h : s.LineReady ch) (opc : BitVec 8) (x : F32) (r : ChanRegs) (c : Cause)
    (v : BitVec 32) :
    s.PushedOn (((s.push ch x).setChan ch r).finish opc ch c v) ch x ∧
      (((s.push ch x).setChan ch r).finish opc ch c v).chan ch = r ∧
      (((s.push ch x).setChan ch r).finish opc ch c v).besideRamAndChans =
        (s.finish opc ch c v).besideRamAndChans := by
  have hbeside : ((s.push ch x).setChan ch r).besideRamAndChans = s.besideRamAndChans := by
    rw [State.setChan_beside, State.push_beside]
  refine ⟨(s.push_pushedOn ch x h.ram).congr rfl fun ch' hne => ?_, ?_, State.finish_beside hbeside rfl⟩
  · rw [State.finish_chan, State.chan_setChan_other _ _ hne]
  · rw [State.finish_chan, State.chan_setChan_same _ ch r (by simpa using h.ready.lt_length)]

/-- The push and the time, whatever the delay. -/
theorem State.push_advanceTime_finish (h : s.LineReady ch) (opc : BitVec 8) (x : F32) (c : Cause) (v : BitVec 32) :
    s.PushedOn (((s.push ch x).advanceTime ch).finish opc ch c v) ch x ∧
      (((s.push ch x).advanceTime ch).finish opc ch c v).chan ch = { s.chan ch with
        widx := ((s.chan ch).widx + 1) % s.cap
        t := fadd (s.nan 9) (s.chan ch).t (fdiv (s.nan 8) c1 s.sr) } ∧
      (((s.push ch x).advanceTime ch).finish opc ch c v).besideRamAndChans =
        (s.finish opc ch c v).besideRamAndChans := by
  rw [State.advanceTime, State.push_nan, State.push_sr, s.push_chan_same ch x h.ready.lt_length, advance_eq]
  exact State.push_setChan_finish h opc x _ c v

/-- `MD_STEP` past its checks: only the cause and the answer depend on the delay. -/
theorem exec_mdStep (x : F32) (h : s.LineReady ch) :
    exec (.mdStep ch x) s = .next
      (if fisfinite (s.mdDelay ch) = true ∧ fle c0 (s.mdDelay ch) = true ∧ flt (s.mdDelay ch) s.capF = true then
        ((s.push ch x).advanceTime ch).finish 0x25#8 ch .ok
          (((s.push ch x).advanceTime ch).fracRead (laterDraws s.nan 10) ch (s.mdDelay ch))
      else ((s.push ch x).advanceTime ch).finish 0x25#8 ch .delayOutOfRange x) := by
  rw [show exec (.mdStep ch x) s = _ from
    State.checked_line (.mdStep ch x) _ h.ready.prepared h.configured h.ready.channel]
  simp only [delayInRange, Bool.and_eq_true]
  split <;> rfl

end Sys2Proof.Machine

namespace Sys2Proof
open Machine

/-- Settles O35: `2 * PI` is one constant, and `shape_c0` at time +0.0. -/
theorem shapes : Obligations.Shapes := by
  refine ⟨fun nan mode hz t => ?_, fun nan mode hz hs _ hle => ?_⟩
  · rw [shape_eq]
    rfl
  · exact shape_c0 nan mode hs hle

/-- Settles O39: the push and the time by `State.push_advanceTime_finish`, on both sides of the test of the delay. -/
theorem mdStep : Obligations.MdStep := by
  intro ch x s h
  by_cases hok : fisfinite (s.mdDelay ch) = true ∧ fle c0 (s.mdDelay ch) = true ∧ flt (s.mdDelay ch) s.capF = true
  · obtain ⟨hpush, hchan, hrest⟩ := State.push_advanceTime_finish h 0x25#8 x .ok
      (((s.push ch x).advanceTime ch).fracRead (laterDraws s.nan 10) ch (s.mdDelay ch))
    exact ⟨s.nan, _, s.nan_nanSource, (exec_mdStep x h).trans (congrArg _ (if_pos hok)), hpush, hchan,
      hrest.trans (congrArg State.besideRamAndChans (if_pos hok).symm)⟩
  · obtain ⟨hpush, hchan, hrest⟩ := State.push_advanceTime_finish h 0x25#8 x .delayOutOfRange x
    exact ⟨s.nan, _, s.nan_nanSource, (exec_mdStep x h).trans (congrArg _ (if_neg hok)), hpush, hchan,
      hrest.trans (congrArg State.besideRamAndChans (if_neg hok).symm)⟩

/-- Settles O34: the mapping with the constants of each mode, and `rateHz_c0`, `rateHz_c1` at its ends. -/
theorem rateMapping : Obligations.RateMapping := by
  intro nan mode hi
  have hhi : hi = maxHz mode := by cases mode <;> rfl
  rw [hhi]
  exact ⟨fun _ => rfl, rateHz_c0 nan mode, rateHz_c1 nan mode⟩

/-- Settles O36. -/
theorem mdSetMode : Obligations.MdSetMode := fun m s hp =>
  ⟨s.nan, s.nan_nanSource, State.checked_pass (.mdSetMode m) _ hp nofun nofun⟩

/-- Settles O37: the percentages that pass are those of `percentOk_iff`. -/
theorem mdSetRate : Obligations.MdSetRate := fun percent s hp =>
  ⟨s.nan, s.nan_nanSource, State.checked_setter _ (.mdSetRate percent) _ _ hp
    (by rw [Bool.not_eq_false', percentOk_iff]; rfl)⟩

/-- Settles O38. -/
theorem mdSetPredelayMs : Obligations.MdSetPredelayMs := fun ms s hp =>
  ⟨s.nan, s.nan_nanSource, State.checked_setter _ (.mdSetPredelayMs ms) _ _ hp (by
    rw [Bool.or_eq_false_iff, Bool.not_eq_false', Bool.not_eq_false']
    rfl)⟩

end Sys2Proof
end

section
/-!
The pitch-shift engine (43_pitch_shift.md R162 to R166): the initial delay of a rate, the slewed delay, and its commands with
their checks passed; then a run of `PS_STEP` commands on one channel (O44).
-/
namespace Sys2Proof.Machine

variable {n n' x y d rate semitones : F32} {nan nan' : Nat → F32} {c : Nat} {s : State} {ch : BitVec 8}

/-! ## What a source of NaN patterns can change -/

/-- Of two alike values a finite one is the other. -/
theorem AlikeOrNaN.eq_of_finite (h : AlikeOrNaN x y) (hx : fisfinite x = true) : x = y :=
  h.resolve_right fun hnan => by simp [isNaN_of_finite hx] at hnan

/-- A difference from alike values is alike. -/
theorem fsub_alike (hn : isNaN n = true) (hn' : isNaN n' = true) (h : AlikeOrNaN x y) (b : F32) :
    AlikeOrNaN (fsub n x b) (fsub n' y b) := by
  unfold fsub
  split
  · exact .inr ⟨hn, hn'⟩
  · exact fadd_alike hn hn' h (.inl rfl)

/-- An operation done only under a test that no NaN passes keeps values alike. -/
theorem AlikeOrNaN.ite {p : F32 → Bool} {f f' : F32 → F32} (hp : ∀ z, isNaN z = true → p z = false)
    (h : AlikeOrNaN x y) (hf : AlikeOrNaN (f x) (f' y)) :
    AlikeOrNaN (if p x then f x else x) (if p y then f' y else y) := by
  rcases h with rfl | ⟨hx, hy⟩
  · split
    · exact hf
    · exact .inl rfl
  · rw [hp x hx, hp y hy]
    exact .inr ⟨hx, hy⟩

/-- Wrapping (R164) keeps values alike: a NaN is neither below zero nor at least the capacity. -/
theorem wrapBoth_alike (hn : NanSource nan) (hn' : NanSource nan') (h : AlikeOrNaN x y) (c : Nat) :
    AlikeOrNaN (wrapBoth nan x c) (wrapBoth nan' y c) := by
  have hlow := h.ite (p := fun z => flt z c0) (f := fun z => fadd (nan 0) z (i2f c))
    (f' := fun z => fadd (nan' 0) z (i2f c)) (fun _ hz => flt_of_nan (.inl hz))
    (fadd_alike (hn 0) (hn' 0) h (.inl rfl))
  exact hlow.ite (p := fun z => fle (i2f c) z) (f := fun z => fsub (nan 1) z (i2f c))
    (f' := fun z => fsub (nan' 1) z (i2f c)) (fun _ hz => fle_of_nan (.inr hz))
    (fsub_alike (hn 1) (hn' 1) hlow _)

/-! ## The initial delay (R163, R164) -/

/-- Two values without a sign and of one magnitude are one F32. -/
theorem eq_of_units (hx : isPlain x) (hy : isPlain y) (h : units x = units y) : x = y := by
  rw [units_eq, units_eq] at h
  rw [← plain_self hx, ← plain_self hy, magUnits_strictMono.injective h]

theorem units_fneg (x : F32) : units (fneg x) = units x := by rw [units_eq, magBits_fneg, ← units_eq]

/-- A finite value below zero is the negation of one without a sign. -/
theorem plain_fneg (hf : fisfinite rate = true) (hneg : flt rate c0 = true) : isPlain (fneg rate) := by
  have hz : signedUnits c0 = 0 := by decide
  simp only [flt, Bool.and_eq_true, decide_eq_true_eq, hz] at hneg
  refine ⟨?_, (fisfinite_fneg rate).trans hf⟩
  rw [signBit_fneg, Bool.not_eq_false']
  by_contra hsign
  rw [signedUnits_of_nonneg (by simpa using hsign)] at hneg
  omega

/-- The negation of R163 is exact. -/
theorem fsub_c0_left (hf : fisfinite rate = true) (hneg : flt rate c0 = true) : fsub n c0 rate = fneg rate := by
  have hp := plain_fneg hf hneg
  have hz : signedUnits c0 = 0 := by decide
  rw [fsub_of_finite n plain_c0.2 hf, plain_c0.1, Bool.false_and, hz, Int.zero_sub, ← signedUnits_fneg,
    signedUnits_of_nonneg hp.1, ofUnits_nonneg (Int.natCast_nonneg _), Int.natAbs_natCast, roundUnits_units hp.2,
    plain_self hp]

theorem fle_c0_plain (h : isPlain x) : fle c0 x = true := by simp [fle_plain plain_c0 h, magBits_c0]

/-- A delay without a sign is wrapped from above alone. -/
theorem wrapBoth_plain (h : isPlain d) :
    wrapBoth nan d c = if fle (i2f c) d then fsub (nan 1) d (i2f c) else d := by
  have hlow : flt d c0 = false := by simp [flt_plain h plain_c0, magBits_c0]
  simp only [wrapBoth, hlow, Bool.false_eq_true, if_false]

/-- The product of the capacity and the fraction part of the negated rate, brought down by the capacity if it reaches it. -/
def offsetDelay (nan : Nat → F32) (c : Nat) (fm : F32) : F32 :=
  if fle (i2f c) (fmul (nan 3) (i2f c) fm) then fsub (nan 5) (fmul (nan 3) (i2f c) fm) (i2f c)
  else fmul (nan 3) (i2f c) fm

/-- A rate not below zero starts at +0.0. -/
theorem psInit_of_not_neg (h : flt rate c0 = false) : psInit nan rate c = c0 := by
  rw [psInit, h, if_neg (by decide)]

/-- A rate below zero starts at the product of the capacity and a fraction that is exactly that of the negated rate. -/
theorem psInit_of_neg (hc : c ≤ 2 ^ 24) (hf : fisfinite rate = true) (hneg : flt rate c0 = true) :
    ∃ fm, isPlain fm ∧ units fm = units rate % oneUnits ∧ psInit nan rate c = offsetDelay nan c fm := by
  have hm := plain_fneg hf hneg
  obtain ⟨hplain, hunits⟩ := splitFrac_exact (laterDraws nan 1) hm.2 (fle_c0_plain hm)
  rw [units_fneg] at hunits
  have hle : units (splitFrac (laterDraws nan 1) (fneg rate)) ≤ oneUnits :=
    hunits ▸ (Nat.mod_lt _ (by decide +kernel)).le
  have hprod := plain_fmul (nan 3) (i2f_capacity hc).1 hplain (i2f_capacity hc).1 (Nat.mul_le_mul_left _ hle)
  refine ⟨_, hplain, hunits, ?_⟩
  rw [psInit, if_pos hneg, fsub_c0_left hf hneg]
  exact wrapBoth_plain hprod

/-- Up to one octave up, the fraction part is the whole of the negated rate. -/
theorem psInit_of_octave (hc : c ≤ 2 ^ 24) (hf : fisfinite rate = true) (hlow : flt 0xBF800000#32 rate = true)
    (hneg : flt rate c0 = true) : psInit nan rate c = offsetDelay nan c (fneg rate) := by
  obtain ⟨fm, hplain, hunits, heq⟩ := psInit_of_neg (nan := nan) hc hf hneg
  have hm := plain_fneg hf hneg
  have hone : signedUnits 0xBF800000#32 = -(oneUnits : Int) := by decide +kernel
  have hval : signedUnits rate = -(units rate : Int) := by
    rw [← neg_neg (signedUnits rate), ← signedUnits_fneg, signedUnits_of_nonneg hm.1, units_fneg]
  simp only [flt, Bool.and_eq_true, decide_eq_true_eq, hone, hval, neg_lt_neg_iff, Nat.cast_lt] at hlow
  rw [Nat.mod_eq_of_lt hlow.2] at hunits
  rw [heq, eq_of_units hplain hm (hunits.trans (units_fneg rate).symm)]

/-- One octave up starts at +0.0: the negated rate is whole. -/
theorem psInit_neg_one (hpos : 1 ≤ c) (hc : c ≤ 2 ^ 24) : psInit nan 0xBF800000#32 c = c0 := by
  obtain ⟨fm, hplain, hunits, heq⟩ :=
    psInit_of_neg (nan := nan) (rate := 0xBF800000#32) hc (by decide) (by decide +kernel)
  have hzero : fm = c0 := eq_of_units hplain plain_c0 (hunits.trans (by decide +kernel))
  have hcap := (i2f_capacity hc).1
  have hbelow : fle (i2f c) c0 = false := by
    simpa [fle_plain hcap plain_c0, magBits_c0] using (magBits_capacity_pos hpos hc).ne'
  rw [heq, hzero, offsetDelay, fmul_c0_right _ hcap, hbelow, if_neg (by decide)]

/-! ## PS_SET_SEMITONES (R162) -/

/-- `PS_SET_SEMITONES` past its checks. -/
theorem exec_psSetSemitones (hp : s.prepared = true) :
    exec (.psSetSemitones semitones) s = .next
      (if fisfinite semitones = true ∧ fisfinite (s.delayRate semitones) = true then
        { s.seedPitchDelay (s.delayRate semitones) with
          psSemi := semitones, psRate := s.delayRate semitones }.finish 0x30#8 0#8 .ok (s.delayRate semitones)
      else s.finish 0x30#8 0#8 .invalidOperand s.psRate) :=
  State.checked_setter _ (.psSetSemitones semitones) _ _ hp (by
    rw [Bool.or_eq_false_iff, Bool.not_eq_false', Bool.not_eq_false'])

/-- A transposition by whole octaves: its pattern, the octaves, two to their power, and the rate of R162. -/
structure OctaveRow where
  semitones : F32
  octaves : F32
  power : F32
  rate : F32

/-- The transpositions by zero, one octave up and one octave down. -/
def octaveRows : List OctaveRow :=
  [⟨0x00000000#32, 0x00000000#32, 0x3F800000#32, 0x00000000#32⟩,
    ⟨0x80000000#32, 0x80000000#32, 0x3F800000#32, 0x00000000#32⟩,
    ⟨0x41400000#32, 0x3F800000#32, 0x40000000#32, 0xBF800000#32⟩,
    ⟨0xC1400000#32, 0xBF800000#32, 0x3F000000#32, 0x3F000000#32⟩]

theorem octaveRows_finite : ∀ w ∈ octaveRows, fisfinite w.semitones = true ∧ fisfinite w.power = true ∧
    fisfinite w.rate = true := by decide

/-- The three operations of R162 on the table, where law L3 fixes the second. -/
theorem octaveRows_exact : ∀ w ∈ octaveRows, fdiv c0 w.semitones c12 = w.octaves ∧ isExp2Exact w.octaves = true ∧
    pow2 (f2i w.octaves) = w.power ∧ fsub c0 c1 w.power = w.rate := by decide +kernel

/-- The rates of whole octaves, in every state: no operation draws a NaN. -/
theorem State.delayRate_of_octaves (s : State) {w : OctaveRow} (hw : w ∈ octaveRows) :
    s.delayRate w.semitones = w.rate := by
  obtain ⟨hsemi, hpower, -⟩ := octaveRows_finite w hw
  obtain ⟨hoctaves, hexact, hpow, hrate⟩ := octaveRows_exact w hw
  have hdiv : fdiv (s.nan 0) w.semitones c12 = w.octaves := by
    rw [← hoctaves, fdiv_of_finite _ hsemi (by decide) (by decide), fdiv_of_finite _ hsemi (by decide) (by decide)]
  have hsub : fsub (s.nan 1) c1 w.power = w.rate := by
    rw [← hrate, fsub_of_finite _ (by decide) hpower, fsub_of_finite _ (by decide) hpower]
  rw [State.delayRate, hdiv, fexp2_exact hexact, hpow, hsub]

/-- Each of these rates starts at +0.0: only that of the octave up is below zero. -/
theorem psInit_of_octaves (hpos : 1 ≤ c) (hc : c ≤ 2 ^ 24) {w : OctaveRow} (hw : w ∈ octaveRows) :
    psInit nan w.rate c = c0 := by
  have hrates : ∀ w ∈ octaveRows, flt w.rate c0 = false ∨ w.rate = 0xBF800000#32 := by decide +kernel
  rcases hrates w hw with h | h
  · exact psInit_of_not_neg h
  · rw [h]
    exact psInit_neg_one hpos hc

/-! ## PS_STEP (R165) -/

theorem State.slewOk_iff (s : State) (ch : BitVec 8) :
    s.slewOk ch = true ↔ fisfinite (s.slewedDelay ch) = true ∧ fle c0 (s.slewedDelay ch) = true ∧
      flt (s.slewedDelay ch) (i2f s.cap) = true := by
  rw [State.slewOk, delayInRange, State.capF, Bool.and_eq_true, Bool.and_eq_true]

/-- Writing back the registers a channel has changes nothing. -/
theorem State.setChan_chan (s : State) (h : ch.toNat < s.chans.length) : s.setChan ch (s.chan ch) = s := by
  have hset : s.chans.set ch.toNat (s.chan ch) = s.chans := by simp [State.chan, List.getD, h]
  rw [State.setChan, hset]

/-- A channel after a push, as the obligations write it. -/
theorem State.LineReady.push_chan (h : s.LineReady ch) (x : F32) :
    (s.push ch x).chan ch = { s.chan ch with widx := ((s.chan ch).widx + 1) % s.cap } := by
  rw [s.push_chan_same ch x h.ready.lt_length, advance_eq]

/-- `PS_STEP` past its checks: the push, the read at the old delay and the slew, or the push and cause 3. -/
theorem exec_psStep_cases (x : F32) (h : s.LineReady ch) :
    (s.slewOk ch = true ∧ exec (.psStep ch x) s = .next
      (((s.push ch x).setChan ch { s.chan ch with
          widx := ((s.chan ch).widx + 1) % s.cap, psdly := s.slewedDelay ch }).finish 0x31#8 ch .ok
        ((s.push ch x).fracRead (laterDraws s.nan 10) ch (s.chan ch).psdly))) ∨
    (s.slewOk ch = false ∧ exec (.psStep ch x) s = .next
      (((s.push ch x).setChan ch { s.chan ch with widx := ((s.chan ch).widx + 1) % s.cap }).finish 0x31#8 ch
        .delayOutOfRange x)) := by
  have hchan := h.push_chan x
  rw [show exec (.psStep ch x) s = _ from
    State.checked_line (.psStep ch x) _ h.ready.prepared h.configured h.ready.channel]
  cases hok : s.slewOk ch
  · rw [← hchan, State.setChan_chan _ (by simpa using h.ready.lt_length)]
    exact .inr ⟨rfl, rfl⟩
  · have hslewed : { s.chan ch with widx := ((s.chan ch).widx + 1) % s.cap, psdly := s.slewedDelay ch } =
        { (s.push ch x).chan ch with psdly := s.slewedDelay ch } := by rw [hchan]
    rw [hslewed]
    exact .inl ⟨rfl, rfl⟩

/-! ## A run of PS_STEP (R166) -/

/-- One slew of the delay of a channel: the rate added and wrapped. -/
def slew (nan : Nat → F32) (rate : F32) (c : Nat) (d : F32) : F32 := wrapBoth nan (fadd (nan 2) d rate) c

/-- A delay the step accepts is the slewed one for every source of NaN patterns: it is no NaN. -/
theorem State.slewedDelay_eq_slew (h : s.slewOk ch = true) (hn : NanSource nan) :
    s.slewedDelay ch = slew nan s.psRate s.cap (s.chan ch).psdly := by
  have hsource := s.nan_nanSource
  have hsum := fadd_alike (hsource 0) (hn 2) (.inl (Eq.refl (s.chan ch).psdly)) (.inl (Eq.refl s.psRate))
  have halike := wrapBoth_alike (nan := laterDraws s.nan 1) (fun k => hsource (1 + k)) hn hsum s.cap
  exact halike.eq_of_finite ((s.slewOk_iff ch).mp h).1

/-- A command that pushes on a ready line and writes its channel's registers leaves the line ready. -/
theorem State.LineReady.push_setChan_finish (h : s.LineReady ch) (opc : BitVec 8) (x : F32) (r : ChanRegs) (e : Cause)
    (v : BitVec 32) : (((s.push ch x).setChan ch r).finish opc ch e v).LineReady ch where
  ready := ⟨h.ready.prepared, h.ready.channel, by simpa using h.ready.shape.chans_length, h.ready.shape.nch_le⟩
  configured := h.configured
  ram := Memory.write_wf h.ram _ _

/-- From `s` to `t` the line was stepped `k` times on a channel: the pointer went on by `k`, and if no answer since has a
cause, the delay was slewed `k` times. -/
structure State.Stepped (s : State) (ch : BitVec 8) (k : Nat) (t : State) : Prop where
  ready : t.LineReady ch
  cap_eq : t.cap = s.cap
  rate_eq : t.psRate = s.psRate
  widx_eq : (t.chan ch).widx = ((s.chan ch).widx + k) % s.cap
  answers : ∃ rs, t.rspOut = s.rspOut ++ rs ∧ ((∀ r ∈ rs, causeField r = 0#8) → ∀ nan, NanSource nan →
    (t.chan ch).psdly = (slew nan s.psRate s.cap)^[k] (s.chan ch).psdly)

theorem State.Stepped.zero (h : s.LineReady ch) (hw : (s.chan ch).widx < s.cap) : s.Stepped ch 0 s :=
  ⟨h, rfl, rfl, (Nat.mod_eq_of_lt hw).symm, [], (List.append_nil _).symm, fun _ _ _ => rfl⟩

/-- The run does not see the words that wait. -/
theorem State.Stepped.take {t : State} {k : Nat} (h : s.Stepped ch k t) (rest : List Word64) :
    s.Stepped ch k { t with cmdIn := rest } :=
  ⟨⟨⟨h.ready.ready.prepared, h.ready.ready.channel, h.ready.ready.shape.chans_length, h.ready.ready.shape.nch_le⟩,
    h.ready.configured, h.ready.ram⟩, h.cap_eq, h.rate_eq, h.widx_eq, h.answers⟩

/-- One more push that ends with the registers `r`: what remains is that an answer without a cause comes with a slew. -/
theorem State.Stepped.push {t : State} {k : Nat} {r : ChanRegs} (h : s.Stepped ch k t) (x : F32) (e : Cause)
    (v : BitVec 32) (hw : r.widx = ((t.chan ch).widx + 1) % t.cap)
    (hslew : e.code = 0#8 → ∀ nan, NanSource nan → r.psdly = slew nan t.psRate t.cap (t.chan ch).psdly) :
    s.Stepped ch (k + 1) (((t.push ch x).setChan ch r).finish 0x31#8 ch e v) := by
  obtain ⟨rs, hrs, hdelay⟩ := h.answers
  obtain ⟨-, hchan, -⟩ := State.push_setChan_finish h.ready 0x31#8 x r e v
  refine ⟨h.ready.push_setChan_finish .., h.cap_eq, h.rate_eq, ?_, rs ++ [responseWord 0x31#8 ch e v], ?_, ?_⟩
  · rw [hchan, hw, h.widx_eq, h.cap_eq, Nat.mod_add_mod, Nat.add_assoc]
  · rw [State.finish_rspOut, State.setChan_rspOut, State.push_rspOut, hrs, List.append_assoc]
  · intro hcauses nan hn
    obtain ⟨-, -, -, hcause, -⟩ := responseWord_fields 0x31#8 ch e v
    have hlast := hcauses _ (List.mem_append_right rs (List.mem_singleton_self _))
    rw [hchan, hslew (hcause.symm.trans hlast) nan hn, h.rate_eq, h.cap_eq,
      hdelay (fun r hr => hcauses r (List.mem_append_left _ hr)) nan hn, Function.iterate_succ_apply']

/-- One more `PS_STEP`. -/
theorem exec_stepped {t : State} {k : Nat} (x : F32) (h : s.Stepped ch k t) :
    ∃ u, exec (.psStep ch x) t = .next u ∧ s.Stepped ch (k + 1) u := by
  rcases exec_psStep_cases x h.ready with ⟨hok, hexec⟩ | ⟨-, hexec⟩
  · exact ⟨_, hexec, h.push x _ _ rfl fun _ _ hn => State.slewedDelay_eq_slew hok hn⟩
  · exact ⟨_, hexec, h.push x _ _ rfl fun hcause => absurd hcause (by decide)⟩

end Sys2Proof.Machine

namespace Sys2Proof
open Machine

/-- Settles O44: every step of the run keeps `State.Stepped`. -/
theorem sampleCount : Obligations.SampleCount := by
  intro s ch xs hr hw
  obtain ⟨t, hrun, ht⟩ := run_words (s := { s with cmdIn := xs.map fun x => encode (.psStep ch x) }) (done := [])
    (P := fun done t => s.Stepped ch done.length t)
    (fun done w rest t hw hc h => by
      obtain ⟨x, -, rfl⟩ := List.mem_map.mp hw
      obtain ⟨u, hu, hs⟩ := exec_stepped x (h.take rest)
      exact ⟨u, (step_of_decode hc (decode_encode rfl)).trans hu, by simpa using hs⟩)
    rfl ((State.Stepped.zero hr hw).take _)
  rw [List.nil_append, List.length_map] at ht
  rw [List.length_map] at hrun
  obtain ⟨rs, hrs, hdelay⟩ := ht.answers
  exact ⟨t, rs, hrun, hrs, ht.widx_eq, hdelay⟩

/-- Settles O41: the rates of `octaveRows`, and `psInit_of_octaves`. -/
theorem wholeOctaves : Obligations.WholeOctaves := by
  intro s semitones rate hp hconf hpos hcap hmem
  obtain ⟨w, hw, heq⟩ := List.mem_map.mp (show _ ∈ octaveRows.map fun w => (w.semitones, w.rate) from hmem)
  cases heq
  obtain ⟨hsemi, -, hrate⟩ := octaveRows_finite w hw
  rw [exec_psSetSemitones hp, s.delayRate_of_octaves hw, if_pos ⟨hsemi, hrate⟩, State.seedPitchDelay, if_pos hconf,
    psInit_of_octaves hpos hcap hw]
  rfl

/-- Settles O42: a rate below zero has the initial delay of `psInit_of_neg`. -/
theorem initialPitchDelay : Obligations.InitialPitchDelay := by
  intro nan rate c hpos hc hf
  obtain ⟨hfin, hrange⟩ := psInit_in_range nan hf hpos hc
  rw [delayInRange, Bool.and_eq_true] at hrange
  refine ⟨psInit_of_not_neg, fun hneg => ?_, psInit_of_octave hc hf, ?_, hfin, hrange⟩
  · obtain ⟨fm, hplain, hunits, heq⟩ := psInit_of_neg (nan := nan) hc hf hneg
    exact ⟨fm, hplain.2, hplain.1, hunits, heq⟩
  · rintro rfl
    exact psInit_neg_one hpos hc

/-- Settles O43: both ends of `exec_psStep_cases` push and write the channel's registers (`State.push_setChan_finish`). -/
theorem psStep : Obligations.PsStep := by
  intro ch x s h
  rcases exec_psStep_cases x h with ⟨hok, hexec⟩ | ⟨hok, hexec⟩
  · have hyes := (s.slewOk_iff ch).mp hok
    refine ⟨s.nan, _, s.nan_nanSource, hexec, ?_⟩
    obtain ⟨hpush, hchan, hrest⟩ := State.push_setChan_finish h 0x31#8 x { s.chan ch with
      widx := ((s.chan ch).widx + 1) % s.cap, psdly := s.slewedDelay ch } .ok
      ((s.push ch x).fracRead (laterDraws s.nan 10) ch (s.chan ch).psdly)
    refine ⟨hpush, fun _ => ⟨hchan, ?_⟩, fun hno => absurd hyes hno⟩
    rw [hrest, State.finish_fracRead, State.setChan_fracRead _ _ _ _ (by rw [h.push_chan x])
      (by simpa using h.ready.lt_length)]
    rfl
  · have hno := mt (s.slewOk_iff ch).mpr (by simp [hok])
    obtain ⟨hpush, hchan, hrest⟩ := State.push_setChan_finish h 0x31#8 x { s.chan ch with
      widx := ((s.chan ch).widx + 1) % s.cap } .delayOutOfRange x
    exact ⟨s.nan, _, s.nan_nanSource, hexec, hpush, fun hyes => absurd hyes hno, fun _ => ⟨hchan, hrest⟩⟩

/-- Settles O40. -/
theorem psSetSemitones : Obligations.PsSetSemitones := fun _ s hp => ⟨s.nan, s.nan_nanSource, exec_psSetSemitones hp⟩

end Sys2Proof
end

section
/-!
The commands of the biquad engine (44_biquad.md R177 to R182, R187 to R190): the coefficient update as the rule writes it,
the commands that run it, and `BQ_STEP` with its checks passed.
-/
namespace Sys2Proof.Machine

variable {s : State} {ch : BitVec 8} {x : F32}

/-! ## The coefficient update (R176, R183, R186) -/

/-- `bqParamsValid()` by its three comparisons (R176). -/
theorem State.bqParamsValid_iff (s : State) : s.bqParamsValid = true ↔
    flt c0 s.bqQ = true ∧ fle c0 s.bqF = true ∧ flt s.bqF (fdiv (s.nan 60) s.sr c2) = true := by
  rw [State.bqParamsValid, Bool.and_eq_true, Bool.and_eq_true, and_assoc]

/-- Direct Form I stores the raw six, the other forms the quotients by a0 (R186). -/
theorem storedCoeffs_eq_ite (nan : Nat → F32) (form : BqForm) (k : Coeffs) : storedCoeffs nan form k =
    if form = .df1 then k else
      { b0 := fdiv (nan 50) k.b0 k.a0, b1 := fdiv (nan 51) k.b1 k.a0, b2 := fdiv (nan 52) k.b2 k.a0
        a0 := c1, a1 := fdiv (nan 53) k.a1 k.a0, a2 := fdiv (nan 54) k.a2 k.a0 } := by
  cases form <;> rfl

theorem storedCoeffs_df1 (nan : Nat → F32) (k : Coeffs) : storedCoeffs nan .df1 k = k := rfl

theorem Coeffs.finite_iff (k : Coeffs) :
    k.finite = true ↔ ∀ c ∈ [k.b0, k.b1, k.b2, k.a0, k.a1, k.a2], fisfinite c = true := by
  simp [Coeffs.finite, and_assoc]

/-- The test before the store, for what a form makes of raw coefficients: Direct Form I keeps their a0 (R186). -/
theorem acceptable_storedCoeffs_iff (nan : Nat → F32) (form : BqForm) (k : Coeffs) :
    (storedCoeffs nan form k).acceptable form = true ↔
      (storedCoeffs nan form k).finite = true ∧ ¬(form = .df1 ∧ feq k.a0 c0 = true) := by
  rw [Coeffs.acceptable, Bool.and_eq_true, Bool.not_eq_true', ← Bool.not_eq_true, Bool.and_eq_true, beq_iff_eq]
  by_cases hform : form = .df1
  · rw [hform, storedCoeffs_df1]
  · simp only [hform, false_and]

/-! ## The commands that run the update (R177 to R182) -/

/-- How a command ends that ran the update and answers whether it succeeded. -/
theorem State.finishUpdated_eq (s : State) (i : Instr) (v w : BitVec 32) :
    s.finishUpdated i v w = .next (if s.bqValid then s.finish i.opcode i.channel .ok v
      else s.finish i.opcode i.channel .invalidFilterParameter w) := by
  unfold State.finishUpdated
  cases s.bqValid <;> rfl

/-- A selector: past its check it makes its write `u`, runs the update and reports it. -/
theorem State.checked_update (u : State) (i : Instr) (hp : s.prepared = true) :
    s.checked i false false 0#32 (u.updateCoefficients.finishUpdated i 1#32 0#32) = .next
      (if u.updateCoefficients.bqValid then u.updateCoefficients.finish i.opcode i.channel .ok 1#32
      else u.updateCoefficients.finish i.opcode i.channel .invalidFilterParameter 0#32) := by
  rw [State.checked_pass (needsLine := false) (hasChannel := false) i _ hp nofun nofun, State.finishUpdated_eq]

/-- A parameter: an operand that is not finite is refused with `BQVALID` as it was, any other is stored as in `u`. -/
theorem State.checked_parameter (u : State) (i : Instr) (v : F32) (hp : s.prepared = true) :
    s.checked i false false 0#32 (if !fisfinite v then s.raise i .invalidOperand (bitValue s.bqValid)
      else u.updateCoefficients.finishUpdated i 1#32 0#32) = .next
      (if fisfinite v = false then s.finish i.opcode i.channel .invalidOperand (if s.bqValid then 1#32 else 0#32)
      else if u.updateCoefficients.bqValid then u.updateCoefficients.finish i.opcode i.channel .ok 1#32
      else u.updateCoefficients.finish i.opcode i.channel .invalidFilterParameter 0#32) := by
  rw [State.checked_pass (needsLine := false) (hasChannel := false) i _ hp nofun nofun, State.finishUpdated_eq]
  cases fisfinite v <;> rfl

/-! ## BQ_STEP (R187 to R190) -/

/-- `BQ_STEP` past its checks: the bypass, or the step of the present form. -/
theorem exec_bqStep (x : F32) (hp : s.prepared = true) (hch : ch.toNat < s.nch) :
    exec (.bqStep ch x) s = .next (if s.bqValid then
        (s.setChan ch (biquadMemory s.nan s.bqForm s.coef (s.chan ch) x)).finish 0x46#8 ch .ok
          (biquadOutput s.nan s.bqForm s.coef (s.chan ch) x)
      else s.finish 0x46#8 ch .invalidFilterParameter x) := by
  rw [show exec (.bqStep ch x) s = _ from State.checked_pass (.bqStep ch x) _ hp nofun fun _ => hch]
  cases s.bqValid <;> rfl

/-- A command that writes its channel's registers and ends: those registers, and nothing else. -/
theorem State.setChan_finish (h : s.ChannelReady ch) (opc : BitVec 8) (r : ChanRegs) (c : Cause) (v : BitVec 32) :
    ((s.setChan ch r).finish opc ch c v).chan ch = r ∧
      (∀ ch' : BitVec 8, ch' ≠ ch → ((s.setChan ch r).finish opc ch c v).chan ch' = s.chan ch') ∧
      ((s.setChan ch r).finish opc ch c v).mem = s.mem ∧
      ((s.setChan ch r).finish opc ch c v).besideRamAndChans = (s.finish opc ch c v).besideRamAndChans := by
  refine ⟨?_, fun ch' hne => ?_, rfl, State.finish_beside (s.setChan_beside ch r) rfl⟩
  · rw [State.finish_chan, s.chan_setChan_same ch r h.lt_length]
  · rw [State.finish_chan, s.chan_setChan_other r hne]

/-- `BQ_STEP` with valid coefficients, in any form: the answer and the registers of that form (R190). -/
theorem exec_bqStep_valid {form : BqForm} (x : F32) (h : s.ChannelReady ch) (hv : s.bqValid = true)
    (hform : s.bqForm = form) :
    ∃ (nan : Nat → F32) (t : State), NanSource nan ∧ exec (.bqStep ch x) s = .next t ∧
      t.chan ch = biquadMemory nan form s.coef (s.chan ch) x ∧
      (∀ ch' : BitVec 8, ch' ≠ ch → t.chan ch' = s.chan ch') ∧ t.mem = s.mem ∧
      t.besideRamAndChans =
        (s.finish 0x46#8 ch .ok (biquadOutput nan form s.coef (s.chan ch) x)).besideRamAndChans := by
  rw [exec_bqStep x h.prepared h.channel, if_pos hv, hform]
  exact ⟨s.nan, _, s.nan_nanSource, rfl, State.setChan_finish h _ _ _ _⟩

end Sys2Proof.Machine

namespace Sys2Proof
open Machine

/-- Settles O50: `exec_bqStep_valid` in Direct Form I. -/
theorem bqStepDf1 : Obligations.BqStepDf1 := fun _ x _ h hv hform => exec_bqStep_valid x h hv hform

/-- Settles O51: `exec_bqStep_valid` in Direct Form II Transposed. -/
theorem bqStepTdf2 : Obligations.BqStepTdf2 := fun _ x _ h hv hform => exec_bqStep_valid x h hv hform

/-- Settles O52: `exec_bqStep_valid` in Direct Form II. -/
theorem bqStepDf2 : Obligations.BqStepDf2 := fun _ x _ h hv hform => exec_bqStep_valid x h hv hform

/-- Settles O45: the tests of the update in the rule's own words decide between its two ends. -/
theorem coefficientUpdate : Obligations.CoefficientUpdate := by
  intro s
  refine ⟨s.nan, s.nan_nanSource, ?_⟩
  intro w0 alpha raw new valid good
  have hw0 : bqW0 s.nan s.bqF s.sr = w0 := by rw [bqW0, fmul_c2_cPi]
  have hnew : s.newCoeffs s.nan = storedCoeffs s.nan s.bqForm raw := by rw [State.newCoeffs, hw0]; rfl
  have hstored : storedCoeffs s.nan s.bqForm raw = new := storedCoeffs_eq_ite _ _ _
  have hgood : (s.newCoeffs s.nan).acceptable s.bqForm = true ↔ good := by
    rw [hnew, acceptable_storedCoeffs_iff, hstored, Coeffs.finite_iff]
  have hsucceeds : s.updateSucceeds = true ↔ valid ∧ good := by
    rw [State.updateSucceeds, Bool.and_eq_true, s.bqParamsValid_iff, hgood]
    rfl
  rw [← hsucceeds, ← hstored, ← hnew]
  rcases s.updateCoefficients_cases with ⟨hs, hu⟩ | ⟨hs, hu⟩
  · exact ⟨fun _ => hu, fun hno => absurd hs hno⟩
  · exact ⟨fun hyes => absurd hyes (by simp [hs]), fun _ => hu⟩

/-- Settles O46: each cell of the two tables is the definition of its type. -/
theorem coefficientTable : Obligations.CoefficientTable := fun _ _ _ _ =>
  ⟨rfl, rfl, rfl, rfl, rfl, rfl, rfl, rfl⟩

/-- Settles O48: the three commands have one shape (`State.checked_update`). -/
theorem bqSelectors : Obligations.BqSelectors := fun s hp =>
  ⟨fun t => State.checked_update { s with bqType := t } (.bqSetType t) hp,
    fun f => State.checked_update { s with bqForm := f, chans := s.chans.map ChanRegs.clearBiquad } (.bqSetForm f) hp,
    State.checked_update s .bqUpdate hp⟩

/-- Settles O49: the three commands have one shape (`State.checked_parameter`). -/
theorem bqParameters : Obligations.BqParameters := fun v s hp =>
  ⟨State.checked_parameter { s with bqF := v } (.bqSetFreq v) v hp,
    State.checked_parameter { s with bqQ := v } (.bqSetQ v) v hp,
    State.checked_parameter { s with bqG := v } (.bqSetGain v) v hp⟩

/-- Settles O53. -/
theorem bqBypass : Obligations.BqBypass := fun ch x s hp hch hv => by
  rw [exec_bqStep x hp hch, hv, if_neg Bool.false_ne_true]

end Sys2Proof
end

section
/-!
The coefficients at frequency +0.0 (44_biquad.md R183, R184, R186, O47): law L2 makes cs 1.0 and alpha +0.0, and every later
operation is on constants and exact.
-/
namespace Sys2Proof.Machine

variable (n : F32) {a b : F32} {s : State}

/-! ## Quotients that are exact -/

/-- +0.0 over a divisor without a sign that is not a zero, an infinity allowed. -/
theorem fdiv_c0_left (hs : signBit b = false) (hn : isNaN b = false) (hz : isZero b = false) : fdiv n c0 b = c0 := by
  have h0 : isNaN c0 = false ∧ isInf c0 = false ∧ signBit c0 = false ∧ units c0 = 0 := by decide
  obtain ⟨hnan, hinf, hsign, hunits⟩ := h0
  have hround : roundUnits 0 (units b) = 0 := by simp [roundUnits, roundHalfEven]
  have hzero : packF32 false 0 = c0 := by decide
  simp [fdiv, hnan, hinf, hn, hz, hs, hsign, hunits, hround, hzero]

theorem isZero_eq_false_iff : isZero b = false ↔ 0 < units b := by
  rw [← Bool.not_eq_true, isZero_iff, ← units_eq_zero_iff, Nat.pos_iff_ne_zero]

/-- A quotient of a value by itself is 1.0. -/
theorem fdiv_self (hb : isPlain b) (hpos : 0 < units b) : fdiv n b b = c1 := by
  have hround : roundUnits (units b * oneUnits) (units b) = magBits c1 := by
    rw [← roundUnits_units (by decide : fisfinite c1 = true), units_c1]
    exact roundUnits_ratio hpos Nat.one_pos (by rw [Nat.mul_one, Nat.mul_comm])
  rw [fdiv_of_finite n hb.2 hb.2 (isZero_eq_false_iff.mpr hpos), hround, bne_self_eq_false]
  decide

/-- A quotient by 1.0 is its dividend. -/
theorem fdiv_c1 (ha : fisfinite a = true) : fdiv n a c1 = a := by
  have hround : roundUnits (units a * oneUnits) (units c1) = magBits a := by
    rw [← roundUnits_units ha, units_c1]
    exact roundUnits_ratio (by decide +kernel) Nat.one_pos (Nat.mul_one _)
  have hsign : signBit c1 = false := by decide
  rw [fdiv_of_finite n ha (by decide) (by decide), hround, hsign, Bool.bne_false, packF32_self]

/-! ## The intermediates -/

theorem bqW0_c0 (nan : Nat → F32) {sr : F32} (hf : fisfinite sr = true) (hpos : flt c0 sr = true) :
    bqW0 nan c0 sr = c0 := by
  obtain ⟨hplain, hunits⟩ := plain_of_pos hf hpos
  rw [bqW0, fmul_c2_cPi, fmul_c0_right _ ⟨by decide, by decide⟩]
  exact fdiv_c0_left _ hplain.1 (isNaN_of_finite hf) (isZero_eq_false_iff.mpr hunits)

/-- `2 * Q` of a finite Q above zero may overflow, but is above zero. -/
theorem fmul_c2_pos {q : F32} (hf : fisfinite q = true) (hpos : flt c0 q = true) :
    signBit (fmul n c2 q) = false ∧ isNaN (fmul n c2 q) = false ∧ isZero (fmul n c2 q) = false := by
  obtain ⟨hplain, hunits⟩ := plain_of_pos hf hpos
  have hlow : magBits q ≤ roundUnits (units c2 * units q) oneUnits := by
    rw [← roundUnits_units hf]
    refine roundUnits_mono Nat.one_pos (by decide +kernel) ?_
    rw [Nat.mul_one, Nat.mul_comm]
    exact Nat.mul_le_mul_right _ (by decide +kernel)
  have hlt := roundUnits_lt (units c2 * units q) oneUnits
  have hle := roundUnits_le (units c2 * units q) oneUnits
  have hbits : 0 < magBits q := Nat.pos_of_ne_zero (mt (units_eq_zero_iff q).mpr hunits.ne')
  have hsign : signBit c2 = false := by decide
  rw [fmul_of_finite n (by decide) hf, hplain.1, hsign, bne_self_eq_false]
  refine ⟨signBit_packF32 _ hlt, ?_, ?_⟩
  · rw [← Bool.not_eq_true, isNaN_iff, magBits_packF32 _ hlt]
    omega
  · rw [← Bool.not_eq_true, isZero_iff, magBits_packF32 _ hlt]
    omega

theorem bqAlpha_c0 (nan : Nat → F32) {q : F32} (hf : fisfinite q = true) (hpos : flt c0 q = true) :
    bqAlpha nan c0 q = c0 := by
  obtain ⟨hsign, hnan, hzero⟩ := fmul_c2_pos (nan 3) hf hpos
  exact fdiv_c0_left _ hsign hnan hzero

/-! ## The coefficients -/

/-- The set of LPF and BPF at +0.0 Hz. -/
def zeroHzZeros : Coeffs := { b0 := c0, b1 := c0, b2 := c0, a0 := c1, a1 := cNeg2, a2 := c1 }

/-- The set of HPF, NOTCH and APF at +0.0 Hz. -/
def zeroHzOnes : Coeffs := { b0 := c1, b1 := cNeg2, b2 := c1, a0 := c1, a1 := cNeg2, a2 := c1 }

theorem fadd_c1_c1 : fadd n c1 c1 = c2 := by
  rw [fadd_of_finite n (by decide) (by decide)]
  decide +kernel

theorem fsub_c0_c2 : fsub n c0 c2 = cNeg2 := by
  rw [fsub_of_finite n (by decide) (by decide)]
  decide +kernel

/-- A difference of equal finite values is +0.0. -/
theorem fsub_self (ha : fisfinite a = true) : fsub n a a = c0 := by
  rw [fsub_of_finite n ha ha, Bool.and_not_self, Int.sub_self]
  decide

theorem fsub_c1_c0 : fsub n c1 c0 = c1 := by
  rw [fsub_of_finite n (by decide) (by decide)]
  decide +kernel

theorem fmul_cNeg2_c1 : fmul n cNeg2 c1 = cNeg2 := by
  rw [fmul_of_finite n (by decide) (by decide)]
  decide +kernel

theorem plain_c1 : isPlain c1 := ⟨by decide, by decide⟩

theorem fadd_c1_c0 : fadd n c1 c0 = c1 := fadd_c0 n plain_c1

theorem fdiv_c0_c2 : fdiv n c0 c2 = c0 := fdiv_c0_left n (by decide) (by decide) (by decide)

theorem fdiv_c2_c2 : fdiv n c2 c2 = c1 := fdiv_self n ⟨by decide, by decide⟩ (by decide)

/-- The raw coefficients of the types without gain at cs 1.0 and alpha +0.0 (R184). -/
theorem rawCoeffs_c1_c0 (nan : Nat → F32) (type : BqType) (g : F32) (hpeak : type ≠ .peak) (hlow : type ≠ .lowshelf)
    (hhigh : type ≠ .highshelf) : rawCoeffs nan type c1 c0 g =
      if type = .lpf ∨ type = .bpf then zeroHzZeros else zeroHzOnes := by
  have h0 : ∀ n, fsub n c0 c0 = c0 := fun n => fsub_self n (by decide)
  have h1 : ∀ n, fsub n c1 c1 = c0 := fun n => fsub_self n (by decide)
  cases type
  case peak => exact absurd rfl hpeak
  case lowshelf => exact absurd rfl hlow
  case highshelf => exact absurd rfl hhigh
  all_goals
    simp [rawCoeffs, rawLpf, rawHpf, rawBpf, rawNotch, rawApf, withPlainDenominator, zeroHzZeros, zeroHzOnes, h0, h1,
      fadd_c1_c1, fsub_c0_c2, fsub_c1_c0, fmul_cNeg2_c1, fadd_c1_c0, fdiv_c0_c2, fdiv_c2_c2]

/-- A form stores a finite set with a0 = 1.0 as it is (R186). -/
theorem storedCoeffs_of_a0_c1 (nan : Nat → F32) (form : BqForm) {k : Coeffs} (hfin : k.finite = true)
    (ha0 : k.a0 = c1) : storedCoeffs nan form k = k := by
  simp only [Coeffs.finite, Bool.and_eq_true] at hfin
  obtain ⟨⟨⟨⟨⟨hb0, hb1⟩, hb2⟩, -⟩, ha1⟩, ha2⟩ := hfin
  rw [storedCoeffs_eq_ite, ha0, fdiv_c1 _ hb0, fdiv_c1 _ hb1, fdiv_c1 _ hb2, fdiv_c1 _ ha1, fdiv_c1 _ ha2, ← ha0]
  exact ite_self k

/-- The coefficients at +0.0 Hz, whatever the open functions are: law L2 fixes what they answer there. -/
theorem State.newCoeffs_zeroHz (nan : Nat → F32) (hF : s.bqF = c0) (hQ : fisfinite s.bqQ = true)
    (hQpos : flt c0 s.bqQ = true) (hsr : fisfinite s.sr = true) (hsrpos : flt c0 s.sr = true)
    (hpeak : s.bqType ≠ .peak) (hlow : s.bqType ≠ .lowshelf) (hhigh : s.bqType ≠ .highshelf) :
    s.newCoeffs nan = if s.bqType = .lpf ∨ s.bqType = .bpf then zeroHzZeros else zeroHzOnes := by
  have hcs : fcos c0 = c1 := fcos_zero (by decide)
  simp only [State.newCoeffs, hF, bqW0_c0 nan hsr hsrpos, hcs, fsin_zero, bqAlpha_c0 nan hQ hQpos,
    rawCoeffs_c1_c0 nan s.bqType s.bqG hpeak hlow hhigh]
  split <;> exact storedCoeffs_of_a0_c1 nan _ (by decide) rfl

/-- The sets at +0.0 Hz pass the test before the store in every form. -/
theorem zeroHz_acceptable (form : BqForm) :
    zeroHzZeros.acceptable form = true ∧ zeroHzOnes.acceptable form = true := by
  cases form <;> decide +kernel

end Sys2Proof.Machine
end

section
/-!
One rounding of an operation in rational numbers (00_scope.md R10), the sums with 1.0 of the coefficient formulas
(44_biquad.md R184), and halves that are exact or off by one unit: what the steady responses of R193 need.
-/
namespace Sys2Proof.Machine

variable (n n' : F32) {a b c d x : F32}

/-! ## One rounding -/

/-- `y` is `x` but for one rounding: a factor of 2^-24, or half of 2^-149. -/
def Rounded (y x : ℚ) : Prop := |y - x| ≤ |x| / 2 ^ 24 + 1 / 2 / 2 ^ 149

theorem Rounded.refl (x : ℚ) : Rounded x x := by
  rw [Rounded, sub_self, abs_zero]
  positivity

theorem abs_value (x : F32) : |value x| = (units x : ℚ) / 2 ^ 149 := by
  have hnonneg : (0 : ℚ) ≤ units x / 2 ^ 149 := by positivity
  rw [value_eq]
  split
  · rw [neg_one_mul, abs_neg, abs_of_nonneg hnonneg]
  · rw [one_mul, abs_of_nonneg hnonneg]

theorem value_plain (h : isPlain x) : value x = (units x : ℚ) / 2 ^ 149 := by
  rw [value_eq, h.1, if_neg Bool.false_ne_true, one_mul]

theorem abs_value_le_one (h : units x ≤ oneUnits) : |value x| ≤ 1 := by
  rw [abs_value, div_le_one (by positivity)]
  exact_mod_cast h

theorem signedUnits_c1 : signedUnits c1 = (oneUnits : Int) := by decide +kernel

theorem pos_of_oneUnits_le {u : Nat} (h : oneUnits ≤ u) : 0 < u := lt_of_lt_of_le (by decide +kernel) h

theorem one_le_value (hx : isPlain x) (h : oneUnits ≤ units x) : 1 ≤ value x := by
  rw [value_plain hx, le_div_iff₀ (by positivity), one_mul]
  exact_mod_cast h

theorem rounded_fadd (ha : fisfinite a = true) (hb : fisfinite b = true) (h : fisfinite (fadd n a b) = true) :
    Rounded (value (fadd n a b)) (value a + value b) :=
  fadd_error n ha hb (sum_lt_of_finite n ha hb h)

/-- A subtraction is the addition of the negation, from any source of NaN patterns. -/
theorem fsub_eq_fadd (ha : fisfinite a = true) (hb : fisfinite b = true) : fsub n a b = fadd n' a (fneg b) := by
  rw [fsub_of_finite n ha hb, fadd_of_finite n' ha ((fisfinite_fneg b).trans hb), signBit_fneg, signedUnits_fneg,
    Int.sub_eq_add_neg]

theorem fadd_congr (ha : fisfinite a = true) (hb : fisfinite b = true) : fadd n a b = fadd n' a b := by
  rw [fadd_of_finite n ha hb, fadd_of_finite n' ha hb]

theorem fdiv_congr (ha : fisfinite a = true) (hb : isPlain b) (hpos : 0 < units b) : fdiv n a b = fdiv n' a b := by
  rw [fdiv_of_finite n ha hb.2 (isZero_eq_false_iff.mpr hpos), fdiv_of_finite n' ha hb.2 (isZero_eq_false_iff.mpr hpos)]

/-- A quotient by 1.0 or more does not overflow, and is off by one rounding. -/
theorem rounded_fdiv (ha : fisfinite a = true) (hb : isPlain b) (hone : oneUnits ≤ units b) :
    Rounded (value (fdiv n a b)) (value a / value b) := by
  have hpos : 0 < units b := pos_of_oneUnits_le hone
  have hlt : units a * oneUnits < 2 ^ 277 * units b := calc
    units a * oneUnits < 2 ^ 277 * oneUnits := Nat.mul_lt_mul_of_pos_right (units_lt_of_finite ha) (by decide +kernel)
    _ ≤ 2 ^ 277 * units b := Nat.mul_le_mul_left _ hone
  have herr := value_roundUnits (signBit a) hpos hlt
  have hquot : ((units a * oneUnits : Nat) : ℚ) / units b / 2 ^ 149 = units a / units b := by
    have hcast : (oneUnits : ℚ) = 2 ^ 149 := by norm_num [oneUnits]
    have hunits : (units b : ℚ) ≠ 0 := by exact_mod_cast hpos.ne'
    rw [Nat.cast_mul, hcast]
    field_simp
  have hval : value a / value b = (if signBit a then -1 else 1) * ((units a : ℚ) / units b) := by
    rw [value_plain hb, value_eq, mul_div_assoc, div_div_div_cancel_right₀ (by positivity)]
  have habs : |value a / value b| = (units a : ℚ) / units b := by
    rw [abs_div, abs_value, abs_value, div_div_div_cancel_right₀ (by positivity)]
  rw [hquot, ← hval, ← habs] at herr
  rwa [fdiv_of_finite n ha hb.2 (isZero_eq_false_iff.mpr hpos), hb.1, Bool.bne_false]

/-! ## Differences from 1.0 -/

/-- A magnitude of at most 1.0 is 1.0 or well below it. -/
theorem units_gap (h : units x ≤ oneUnits) : units x = oneUnits ∨ units x + 2 ^ 24 ≤ oneUnits := by
  rw [← units_c1, units_eq, units_eq] at *
  rcases (magUnits_strictMono.le_iff_le.mp h).eq_or_lt with heq | hlt
  · exact .inl (congrArg magUnits heq)
  · have hpred : magUnits (magBits x) ≤ magUnits 0x3F7FFFFF := magUnits_strictMono.monotone (by
      rw [magBits_c1] at hlt
      omega)
    exact .inr ((Nat.add_le_add_right hpred _).trans (by decide +kernel))

/-- `1.0 + x` for |x| <= 1: one rounding, without a sign, and a zero or well above the subnormal numbers. -/
theorem fadd_c1_spec (hf : fisfinite x = true) (hle : units x ≤ oneUnits) :
    isPlain (fadd n c1 x) ∧ Rounded (value (fadd n c1 x)) (1 + value x) ∧
      (magBits (fadd n c1 x) = 0 ∨ 2 ^ 24 ≤ magBits (fadd n c1 x)) := by
  have hc := plain_c1.2
  have hone := signedUnits_c1
  have hx : signedUnits x = units x ∨ signedUnits x = -(units x : Int) := by
    rw [signedUnits]
    split <;> simp
  have hbits := magBits_fadd n hc hf
  have hsum : (signedUnits c1 + signedUnits x).natAbs ≤ 2 * oneUnits := by omega
  have hlt : magBits (fadd n c1 x) < 0x7F800000 := by
    have hc2 : magBits c2 < 0x7F800000 := by decide
    have hle2 : roundUnits (signedUnits c1 + signedUnits x).natAbs 1 ≤ magBits c2 :=
      roundUnits_le_of_le Nat.one_pos (by decide) (hsum.trans (by decide +kernel))
    omega
  have hplain : isPlain (fadd n c1 x) := by
    refine ⟨?_, (fisfinite_iff _).mpr hlt⟩
    rw [fadd_of_finite n hc hf, plain_c1.1, Bool.false_and, ofUnits_nonneg (by omega)]
    exact signBit_packF32 _ (roundUnits_lt _ _)
  refine ⟨hplain, value_c1 ▸ rounded_fadd n hc hf hplain.2, ?_⟩
  by_cases hz : (signedUnits c1 + signedUnits x).natAbs = 0
  · exact .inl (by rw [hbits, hz]; decide)
  · have hlow : magUnits (2 ^ 24) ≤ (signedUnits c1 + signedUnits x).natAbs := by
      have hval : magUnits (2 ^ 24) = 2 ^ 24 := by decide
      have hlarge : 2 ^ 24 ≤ oneUnits := by decide +kernel
      have hgap := units_gap hle
      omega
    have hmono := roundUnits_mono Nat.one_pos Nat.one_pos (Nat.mul_le_mul_right 1 hlow)
    rw [roundUnits_magUnits (by decide)] at hmono
    exact .inr (hmono.trans_eq hbits.symm)

theorem natAbs_neg_signedUnits (x : F32) : (-signedUnits x).natAbs = units x := by
  rw [signedUnits]
  split <;> simp

/-- `0.0 - x` is exact. -/
theorem value_fsub_c0 (hf : fisfinite x = true) : value (fsub n c0 x) = -value x := by
  have hz : signedUnits c0 = 0 := by decide
  have hself : magUnits (roundUnits (-signedUnits x).natAbs 1) = (-signedUnits x).natAbs := by
    rw [natAbs_neg_signedUnits, roundUnits_units hf, units_eq]
  rw [value, fsub_of_finite n plain_c0.2 hf, hz, Int.zero_sub, signedUnits_ofUnits _ hself, Int.cast_neg, neg_div, value]

theorem finite_fsub_c0 (hf : fisfinite x = true) : fisfinite (fsub n c0 x) = true := by
  have hz : signedUnits c0 = 0 := by decide
  have hbits : magBits (fadd n c0 (fneg x)) = magBits x := by
    rw [magBits_fadd n plain_c0.2 ((fisfinite_fneg x).trans hf), hz, Int.zero_add, signedUnits_fneg, natAbs_neg_signedUnits,
      roundUnits_units hf]
  rw [fsub_eq_fadd n n plain_c0.2 hf, fisfinite_iff, hbits]
  exact (fisfinite_iff x).mp hf

/-! ## Halves -/

/-- Adding one to the exponent field doubles a normal magnitude. -/
theorem magUnits_add_exponent {m : Nat} (h : 2 ^ 23 ≤ m) : magUnits (m + 2 ^ 23) = 2 * magUnits m := by
  have hdiv : (m + 2 ^ 23) / 2 ^ 23 = (m / 2 ^ 23 - 1) + 2 := by omega
  have hmod : (m + 2 ^ 23) % 2 ^ 23 = m % 2 ^ 23 := by omega
  rw [magUnits, magUnits, hdiv, hmod, if_neg (by omega), if_neg (by omega),
    show m / 2 ^ 23 - 1 + 2 - 1 = m / 2 ^ 23 - 1 + 1 by omega, pow_succ 2 (m / 2 ^ 23 - 1)]
  ring

/-- Half of +0.0, or of a number well above the subnormal ones, is exact. -/
theorem half_exact (hd : isPlain d) (h : magBits d = 0 ∨ 2 ^ 24 ≤ magBits d) :
    isPlain (fdiv n d c2) ∧ 2 * value (fdiv n d c2) = value d := by
  rcases h with h0 | hnormal
  · have hzero : d = c0 := eq_of_units hd plain_c0 (by rw [(units_eq_zero_iff d).mpr h0]; decide)
    rw [hzero, fdiv_c0_c2, value_c0, mul_zero]
    exact ⟨plain_c0, rfl⟩
  · have hdouble := magUnits_add_exponent (m := magBits d - 2 ^ 23) (by omega)
    rw [Nat.sub_add_cancel (by omega), ← units_eq] at hdouble
    have hlt := (fisfinite_iff d).mp hd.2
    have hround : roundUnits (units d * oneUnits) (units c2) = magBits d - 2 ^ 23 := by
      have hc2 : units c2 = 2 * oneUnits := by decide +kernel
      rw [← roundUnits_magUnits (b := magBits d - 2 ^ 23) (by omega), hc2, hdouble]
      exact roundUnits_ratio (by decide +kernel) Nat.one_pos (by ring)
    have hsign : signBit c2 = false := by decide
    have hhalf : fdiv n d c2 = packF32 false (magBits d - 2 ^ 23) := by
      rw [fdiv_of_finite n hd.2 (by decide) (by decide), hround, hd.1, hsign, bne_self_eq_false]
    have hplain := plain_packF32 (m := magBits d - 2 ^ 23) (by omega)
    rw [hhalf, value_plain hplain, value_plain hd, units_packF32 false (by omega), hdouble, Nat.cast_mul]
    exact ⟨hplain, by push_cast; ring⟩

/-- A rounding below 2^128 without its overflow: 24 bits of the quotient, at the exponent step of `roundUnits`. -/
theorem magUnits_roundUnits {m e k : Nat} (he : 0 < e) (h : m < 2 ^ 277 * e) (hk : (m / e).log2 - 23 = k) :
    magUnits (roundUnits m e) = roundHalfEven m (e * 2 ^ k) * 2 ^ k := by
  have hq : m / e < 2 ^ 277 := (Nat.div_lt_iff_lt_mul he).mpr h
  have hk' : k ≤ 253 := by
    rcases Nat.eq_zero_or_pos (m / e) with h0 | h0
    · rw [h0] at hk
      simp at hk
      omega
    · have := (Nat.log2_lt (by omega)).mpr hq
      omega
  have hstep := log2_step (m / e)
  have hhigh : roundHalfEven m (e * 2 ^ k) ≤ 2 ^ 24 := by
    have hdiv : m / (e * 2 ^ k) < 2 ^ 24 := by
      rw [← Nat.div_div_eq_div_mul, Nat.div_lt_iff_lt_mul (by positivity), ← pow_add, Nat.add_comm 24]
      rwa [hk] at hstep
    have := roundHalfEven_le m (e * 2 ^ k)
    omega
  have hlow : k ≠ 0 → 2 ^ 23 ≤ roundHalfEven m (e * 2 ^ k) := fun hne => by
    have hlog := log2_step_low (q := m / e) (by omega)
    rw [hk] at hlog
    refine le_trans ?_ (le_roundHalfEven m (e * 2 ^ k))
    rwa [← Nat.div_div_eq_div_mul, Nat.le_div_iff_mul_le (by positivity), ← pow_add, Nat.add_comm 23]
  have hround : roundUnits m e = k * 2 ^ 23 + roundHalfEven m (e * 2 ^ k) := by
    unfold roundUnits
    dsimp only
    rw [hk]
    omega
  rw [hround, magUnits_step hhigh hlow]

theorem log2_step_eq_zero {q : Nat} (h : q < 2 ^ 24) : q.log2 - 23 = 0 := by
  rcases Nat.eq_zero_or_pos q with rfl | hpos
  · rw [Nat.log2_zero]
  · have := (Nat.log2_lt hpos.ne').mpr h
    omega

/-- Rounding doubles with its operand: exactly for a normal quotient, within one unit for a subnormal one. -/
theorem roundUnits_double {m e : Nat} (he : 0 < e) (h : 2 * m < 2 ^ 277 * e) :
    2 * magUnits (roundUnits m e) ≤ magUnits (roundUnits (2 * m) e) + 1 ∧
      magUnits (roundUnits (2 * m) e) ≤ 2 * magUnits (roundUnits m e) + 1 := by
  have hdiv : 2 * m / e / 2 = m / e := by
    rw [Nat.div_div_eq_div_mul, Nat.mul_comm e 2, Nat.mul_div_mul_left _ _ Nat.two_pos]
  rcases Nat.lt_or_ge (m / e) (2 ^ 23) with hsub | hnormal
  · have hk1 := log2_step_eq_zero (q := m / e) (by omega)
    have hk2 := log2_step_eq_zero (q := 2 * m / e) (by omega)
    rw [magUnits_roundUnits he (by omega) hk1, magUnits_roundUnits he h hk2, pow_zero, Nat.mul_one, Nat.mul_one,
      Nat.mul_one]
    obtain ⟨hlow1, hhigh1⟩ := roundHalfEven_error m he
    obtain ⟨hlow2, hhigh2⟩ := roundHalfEven_error (2 * m) he
    generalize roundHalfEven m e = r1 at *
    generalize roundHalfEven (2 * m) e = r2 at *
    have hle : 4 * r1 ≤ 2 * r2 + 3 := Nat.le_of_mul_le_mul_right (by linarith) he
    have hge : 2 * r2 ≤ 4 * r1 + 3 := Nat.le_of_mul_le_mul_right (by linarith) he
    omega
  · have hlog : (2 * m / e).log2 = (m / e).log2 + 1 := by
      rw [Nat.log2_def, if_pos (by omega), hdiv]
    have hlow : 23 ≤ (m / e).log2 := (Nat.le_log2 (by omega)).mpr hnormal
    generalize hk : (m / e).log2 - 23 = k
    have hpos : 0 < e * 2 ^ k := by positivity
    have hpos' : 0 < e * 2 ^ (k + 1) := by positivity
    have hsame : roundHalfEven (2 * m) (e * 2 ^ (k + 1)) = roundHalfEven m (e * 2 ^ k) :=
      Nat.le_antisymm (roundHalfEven_mono hpos' hpos (by rw [pow_succ]; linarith))
        (roundHalfEven_mono hpos hpos' (by rw [pow_succ]; linarith))
    rw [magUnits_roundUnits he (by omega) hk, magUnits_roundUnits (k := k + 1) he h (by omega), hsame, pow_succ,
      ← Nat.mul_assoc (roundHalfEven m (e * 2 ^ k))]
    omega

/-- The value of a quotient by its sign and its rounded magnitude. -/
theorem value_fdiv (ha : fisfinite a = true) (hc : isPlain c) (hpos : 0 < units c) : value (fdiv n a c) =
    (SignType.sign (value a) : ℚ) * ((magUnits (roundUnits (units a * oneUnits) (units c)) : ℚ) / 2 ^ 149) := by
  rw [fdiv_of_finite n ha hc.2 (isZero_eq_false_iff.mpr hpos), hc.1, Bool.bne_false,
    value_packF32 _ (roundUnits_lt _ _), value_eq a]
  rcases Nat.eq_zero_or_pos (units a) with h0 | h0
  · have hround : magUnits (roundUnits 0 (units c)) = 0 := by simp [roundUnits, roundHalfEven, magUnits]
    rw [h0, Nat.zero_mul, hround]
    simp
  · have hval : (0 : ℚ) < units a / 2 ^ 149 := by positivity
    cases signBit a
    · rw [if_neg Bool.false_ne_true, one_mul, one_mul, sign_pos hval, SignType.coe_one, one_mul]
    · rw [if_pos rfl, neg_one_mul, neg_one_mul, sign_neg (neg_neg_of_pos hval), SignType.coe_neg_one, neg_one_mul]

/-- Of two numerators of which one is twice the other, up to the sign `z`, so are the quotients but for one unit. -/
theorem value_fdiv_double (ha : fisfinite a = true) (hb : fisfinite b = true) (hc : isPlain c)
    (hone : oneUnits ≤ units c) {z : ℚ} (hz : z = 1 ∨ z = -1) (h : 2 * value a = z * value b) :
    |2 * value (fdiv n a c) - z * value (fdiv n' b c)| ≤ 1 / 2 ^ 149 := by
  have hpos : 0 < units c := pos_of_oneUnits_le hone
  have hzabs : |z| = 1 := by rcases hz with rfl | rfl <;> simp
  have hunits : units b = 2 * units a := by
    have habs := congrArg abs h
    rw [abs_mul, abs_mul, hzabs, one_mul, abs_value, abs_value, Nat.abs_ofNat, ← mul_div_assoc,
      div_left_inj' (by positivity)] at habs
    exact_mod_cast habs.symm
  have hsign : z * (SignType.sign (value b) : ℚ) = SignType.sign (value a) := by
    have htwo : SignType.sign (2 * value a) = SignType.sign (value a) := by
      rw [sign_mul, sign_pos (by norm_num), one_mul]
    rw [← htwo, h, sign_mul, SignType.coe_mul]
    rcases hz with rfl | rfl <;> simp
  have hlt : 2 * (units a * oneUnits) < 2 ^ 277 * units c := calc
    2 * (units a * oneUnits) = units b * oneUnits := by rw [hunits, Nat.mul_assoc]
    _ < 2 ^ 277 * oneUnits := Nat.mul_lt_mul_of_pos_right (units_lt_of_finite hb) (by decide +kernel)
    _ ≤ 2 ^ 277 * units c := Nat.mul_le_mul_left _ hone
  obtain ⟨hlow, hhigh⟩ := roundUnits_double hpos hlt
  rw [value_fdiv n ha hc hpos, value_fdiv n' hb hc hpos, ← mul_assoc z, hsign, hunits, Nat.mul_assoc 2]
  generalize magUnits (roundUnits (units a * oneUnits) (units c)) = u at hlow hhigh ⊢
  generalize magUnits (roundUnits (2 * (units a * oneUnits)) (units c)) = v at hlow hhigh ⊢
  have hdiff : |2 * (u : ℚ) - v| ≤ 1 := by
    have hl : 2 * (u : ℚ) ≤ v + 1 := by exact_mod_cast hlow
    have hh : (v : ℚ) ≤ 2 * u + 1 := by exact_mod_cast hhigh
    rw [abs_le]
    constructor <;> linarith
  have hsgn : |(SignType.sign (value a) : ℚ)| ≤ 1 := by
    cases SignType.sign (value a) <;> simp
  calc |2 * ((SignType.sign (value a) : ℚ) * (u / 2 ^ 149)) - SignType.sign (value a) * (v / 2 ^ 149)|
      = |(SignType.sign (value a) : ℚ)| * |2 * (u : ℚ) - v| / 2 ^ 149 := by
        rw [← abs_mul, ← abs_of_pos (show (0 : ℚ) < 2 ^ 149 by positivity), ← abs_div,
          abs_of_pos (show (0 : ℚ) < 2 ^ 149 by positivity)]
        congr 1
        ring
    _ ≤ 1 / 2 ^ 149 := by
        refine div_le_div_of_nonneg_right ?_ (by positivity)
        exact mul_le_one₀ hsgn (abs_nonneg _) hdiff

end Sys2Proof.Machine
end

section
/-!
The steady responses of LPF, HPF and APF (44_biquad.md R193, O47): the raw coefficients as their operations round them, the
stored ones as quotients of these, and the response at 0 Hz and at Nyquist as the quotient of numerator and denominator.
-/
namespace Sys2Proof.Machine

variable {cs alpha : F32} {k k' : Coeffs} {z c α s : ℚ} (nan : Nat → F32)

/-! ## The raw coefficients (R184) -/

/-- A denominator of R184 as its operations round it, for cs and alpha of the values `c` and `α`. -/
structure Coeffs.RoundedDenominator (k : Coeffs) (c α : ℚ) : Prop where
  plain_a0 : isPlain k.a0
  one_le_a0 : oneUnits ≤ units k.a0
  finite_a1 : fisfinite k.a1 = true
  finite_a2 : fisfinite k.a2 = true
  abs_c_le : |c| ≤ 1
  α_nonneg : 0 ≤ α
  a0 : Rounded (value k.a0) (1 + α)
  a1 : Rounded (value k.a1) (-2 * c)
  a2 : Rounded (value k.a2) (1 - α)

/-- The numerator of an LPF (`z` = 1) or of an HPF (`z` = -1) as its operations round it: b1 is, up to the sign, one rounding
of `1 - z * c`, and b0 and b2 are its exact half. -/
structure Coeffs.RoundedNumerator (k : Coeffs) (z c : ℚ) : Prop where
  finite_b0 : fisfinite k.b0 = true
  finite_b1 : fisfinite k.b1 = true
  b2_eq : k.b2 = k.b0
  half : 2 * value k.b0 = z * value k.b1
  b1 : Rounded (z * value k.b1) (1 - z * c)

/-- `1.0 + alpha` does not overflow, and is at least 1.0. -/
theorem fadd_c1_alpha (n : F32) (hf : fisfinite alpha = true) (h0 : fle c0 alpha = true) :
    isPlain (fadd n c1 alpha) ∧ oneUnits ≤ units (fadd n c1 alpha) := by
  have hc := plain_c1.2
  have hbits := magBits_fadd n hc hf
  have hsum : (signedUnits c1 + signedUnits alpha).natAbs = oneUnits + units alpha := by
    rw [signedUnits_c1, signedUnits_of_fle h0]
    omega
  rw [hsum] at hbits
  have hlt : roundUnits (oneUnits + units alpha) 1 < 0x7F800000 := by
    have hmax : units alpha ≤ magUnits 0x7F7FFFFF := by
      rw [units_eq]
      exact magUnits_strictMono.monotone (by have := (fisfinite_iff alpha).mp hf; omega)
    calc roundUnits (oneUnits + units alpha) 1 ≤ roundUnits (oneUnits + magUnits 0x7F7FFFFF) 1 :=
          roundUnits_mono Nat.one_pos Nat.one_pos (by omega)
      _ < 0x7F800000 := by decide +kernel
  have hlow : magBits c1 ≤ roundUnits (oneUnits + units alpha) 1 := by
    rw [← roundUnits_units hc, units_c1]
    exact roundUnits_mono Nat.one_pos Nat.one_pos (by omega)
  refine ⟨⟨?_, (fisfinite_iff _).mpr (hbits ▸ hlt)⟩, ?_⟩
  · have hnonneg : 0 ≤ signedUnits c1 + signedUnits alpha := by
      rw [signedUnits_c1, signedUnits_of_fle h0]
      omega
    rw [fadd_of_finite n hc hf, plain_c1.1, Bool.false_and, ofUnits_nonneg hnonneg]
    exact signBit_packF32 _ (roundUnits_lt _ _)
  · rw [← units_c1, units_eq, units_eq, hbits]
    exact magUnits_strictMono.monotone hlow

/-- `1.0 - alpha` is at most `1.0 + alpha` in magnitude. -/
theorem finite_fsub_c1_alpha (n : F32) (hf : fisfinite alpha = true) (h0 : fle c0 alpha = true) :
    fisfinite (fadd n c1 (fneg alpha)) = true := by
  have hc := plain_c1.2
  have hsum := (fisfinite_iff _).mp (fadd_c1_alpha n hf h0).1.2
  rw [magBits_fadd n hc hf] at hsum
  rw [fisfinite_iff, magBits_fadd n hc ((fisfinite_fneg alpha).trans hf)]
  refine (roundUnits_mono Nat.one_pos Nat.one_pos (Nat.mul_le_mul_right 1 ?_)).trans_lt hsum
  rw [signedUnits_fneg, signedUnits_c1, signedUnits_of_fle h0]
  omega

theorem value_cNeg2 : value cNeg2 = -2 := by
  have h : signedUnits cNeg2 = -2 * 2 ^ 149 := by decide +kernel
  rw [value, h, Int.cast_mul, Int.cast_pow, Int.cast_ofNat, mul_div_assoc, div_self (by positivity)]
  norm_num

/-- `-2 * cs` for |cs| <= 1. -/
theorem fmul_cNeg2_spec (n : F32) (hf : fisfinite cs = true) (hle : units cs ≤ oneUnits) :
    fisfinite (fmul n cNeg2 cs) = true ∧ Rounded (value (fmul n cNeg2 cs)) (-2 * value cs) := by
  have hc : fisfinite cNeg2 = true := by decide
  have hcomm : fmul n cNeg2 cs = fmul n cs cNeg2 := by
    rw [fmul_of_finite n hc hf, fmul_of_finite n hf hc, Nat.mul_comm, bne_comm]
  have herr := fmul_weight_error n hf hc hle
  rw [mul_comm (value cs), value_cNeg2] at herr
  rw [hcomm]
  exact ⟨finite_fmul_of_weight n hf hc hle, herr⟩

theorem lawL4_iff (x : F32) : lawL4 x = true ↔ fisfinite x = true ∧ units x ≤ oneUnits := by
  rw [lawL4, Bool.and_eq_true, decide_eq_true_eq]

theorem withPlainDenominator_rounded (hcs : lawL4 cs = true) (hf : fisfinite alpha = true)
    (h0 : fle c0 alpha = true) (b0 b1 b2 : F32) :
    (withPlainDenominator nan cs alpha b0 b1 b2).RoundedDenominator (value cs) (value alpha) := by
  have hc := plain_c1.2
  obtain ⟨hcf, hcle⟩ := (lawL4_iff cs).mp hcs
  obtain ⟨hplain, hone⟩ := fadd_c1_alpha (nan 10) hf h0
  obtain ⟨hfin1, ha1⟩ := fmul_cNeg2_spec (nan 11) hcf hcle
  have hfin2 := finite_fsub_c1_alpha (nan 12) hf h0
  have ha2 := rounded_fadd _ hc ((fisfinite_fneg alpha).trans hf) hfin2
  rw [value_c1, value_fneg, ← sub_eq_add_neg] at ha2
  rw [← fsub_eq_fadd (nan 12) (nan 12) hc hf] at ha2 hfin2
  exact ⟨hplain, hone, hfin1, hfin2, abs_value_le_one hcle, value_c0 ▸ value_le_of_fle h0,
    value_c1 ▸ rounded_fadd _ hc hf hplain.2, ha1, ha2⟩

/-- The numerators of LPF and HPF are made of one sum `1.0 + x` and its halves. -/
theorem roundedNumerator_of_sum {x n n' : F32} (hf : fisfinite x = true) (hle : units x ≤ oneUnits)
    (hx : value x = -(z * c)) (hb0 : k.b0 = fdiv n (fadd c0 c1 x) c2) (hb2 : k.b2 = fdiv n' (fadd c0 c1 x) c2)
    (hfin : fisfinite k.b1 = true) (hb1 : z * value k.b1 = value (fadd c0 c1 x)) : k.RoundedNumerator z c := by
  obtain ⟨hplain, hround, hnormal⟩ := fadd_c1_spec c0 hf hle
  obtain ⟨hhalf, hdouble⟩ := half_exact n hplain hnormal
  refine ⟨hb0 ▸ hhalf.2, hfin, ?_, ?_, ?_⟩
  · rw [hb0, hb2]
    exact fdiv_congr _ _ hplain.2 ⟨by decide, by decide⟩ (by decide)
  · rw [hb0, hb1, hdouble]
  · rwa [hb1, sub_eq_add_neg, ← hx]

/-- An LPF passes 0 Hz. -/
theorem rawLpf_rounded (alpha : F32) (hcs : lawL4 cs = true) :
    (rawLpf nan cs alpha).RoundedNumerator 1 (value cs) := by
  obtain ⟨hcf, hcle⟩ := (lawL4_iff cs).mp hcs
  have hneg : fisfinite (fneg cs) = true := (fisfinite_fneg cs).trans hcf
  have hle : units (fneg cs) ≤ oneUnits := (units_fneg cs).trans_le hcle
  have hsub (n : F32) : fsub n c1 cs = fadd c0 c1 (fneg cs) := fsub_eq_fadd n c0 plain_c1.2 hcf
  have hb1 : (rawLpf nan cs alpha).b1 = fadd c0 c1 (fneg cs) := hsub _
  refine roundedNumerator_of_sum hneg hle (by rw [value_fneg, one_mul]) (congrArg (fdiv (nan 14) · c2) (hsub _))
    (congrArg (fdiv (nan 17) · c2) (hsub _)) ?_ (by rw [hb1, one_mul])
  rw [hb1]
  exact (fadd_c1_spec c0 hneg hle).1.2

/-- An HPF passes Nyquist. -/
theorem rawHpf_rounded (alpha : F32) (hcs : lawL4 cs = true) :
    (rawHpf nan cs alpha).RoundedNumerator (-1) (value cs) := by
  obtain ⟨hcf, hcle⟩ := (lawL4_iff cs).mp hcs
  have hfin := (fadd_c1_spec c0 hcf hcle).1.2
  have hadd (n : F32) : fadd n c1 cs = fadd c0 c1 cs := fadd_congr n c0 plain_c1.2 hcf
  have hb1 : (rawHpf nan cs alpha).b1 = fsub (nan 16) c0 (fadd c0 c1 cs) := congrArg (fsub _ c0 ·) (hadd _)
  refine roundedNumerator_of_sum hcf hcle (by ring) (congrArg (fdiv (nan 14) · c2) (hadd _))
    (congrArg (fdiv (nan 18) · c2) (hadd _)) ?_ ?_
  · rw [hb1]
    exact finite_fsub_c0 _ hfin
  · rw [hb1, value_fsub_c0 _ hfin, neg_mul_neg, one_mul]

/-! ## The response at the frequency that passes -/

theorem abs_sign (hz : z = 1 ∨ z = -1) : |z| = 1 := by
  rcases hz with rfl | rfl <;> norm_num

theorem neg_sign (hz : z = 1 ∨ z = -1) : -z = 1 ∨ -z = -1 := by
  rcases hz with rfl | rfl
  · exact .inr rfl
  · exact .inl (neg_neg 1)

theorem Rounded.mul_sign {y x : ℚ} (h : Rounded y x) (hz : z = 1 ∨ z = -1) : Rounded (z * y) (z * x) := by
  rwa [Rounded, ← mul_sub, abs_mul, abs_mul, abs_sign hz, one_mul, one_mul]

/-- A rounded number is hardly larger than the exact one. -/
theorem Rounded.abs_le {y x : ℚ} (h : Rounded y x) : |y| ≤ |x| + |x| / 2 ^ 24 + 1 / 2 / 2 ^ 149 := by
  have htri := abs_add_le x (y - x)
  rw [add_sub_cancel] at htri
  have hround : |y - x| ≤ |x| / 2 ^ 24 + 1 / 2 / 2 ^ 149 := h
  linarith

theorem Coeffs.numerator_sign (k : Coeffs) (hz : z = 1 ∨ z = -1) :
    k.numerator z = value k.b0 + z * value k.b1 + value k.b2 := by
  rcases hz with rfl | rfl <;> rw [Coeffs.numerator] <;> ring

theorem Coeffs.denominator_sign (k : Coeffs) (hz : z = 1 ∨ z = -1) :
    k.denominator z = value k.a0 + z * value k.a1 + value k.a2 := by
  rcases hz with rfl | rfl <;> rw [Coeffs.denominator] <;> ring

/-- How far the raw coefficients are from an exact pass. -/
theorem passband_raw (hn : k.RoundedNumerator z c) (hd : k.RoundedDenominator c α) (hz : z = 1 ∨ z = -1) :
    |k.numerator z - k.denominator z| ≤ 8 * (1 + α) / 2 ^ 24 + 5 / 2 ^ 150 := by
  have hα := hd.α_nonneg
  have hzc : |z * c| ≤ 1 := by rw [abs_mul, abs_sign hz, one_mul]; exact hd.abs_c_le
  have hb1 := hn.b1
  have ha0 := hd.a0
  have ha1 := hd.a1.mul_sign hz
  have ha2 := hd.a2
  rw [k.numerator_sign hz, k.denominator_sign hz, hn.b2_eq]
  have hhalf := hn.half
  rw [mul_left_comm z (-2) c] at ha1
  unfold Rounded at hb1 ha0 ha1 ha2
  generalize z * c = c at *
  obtain ⟨hc1, hc2⟩ := abs_le.mp hzc
  have hdist : |1 - α| ≤ 1 + α := abs_le.mpr ⟨by linarith, by linarith⟩
  rw [abs_of_nonneg (show 0 ≤ 1 + α by linarith), abs_le] at ha0
  rw [abs_mul, abs_neg, abs_of_pos (show (0 : ℚ) < 2 by norm_num), abs_le] at ha1
  rw [abs_of_nonneg (show 0 ≤ 1 - c by linarith), abs_le] at hb1
  rw [abs_le] at ha2 ⊢
  constructor <;> linarith

/-! ## What a form stores (R186) -/

/-- `k'` is `k` over `s`, each number but for one rounding, and a0 exactly. -/
structure Coeffs.RoundedOver (k' k : Coeffs) (s : ℚ) : Prop where
  b0 : Rounded (value k'.b0) (value k.b0 / s)
  b1 : Rounded (value k'.b1) (value k.b1 / s)
  b2 : Rounded (value k'.b2) (value k.b2 / s)
  a0 : value k'.a0 = value k.a0 / s
  a1 : Rounded (value k'.a1) (value k.a1 / s)
  a2 : Rounded (value k'.a2) (value k.a2 / s)

/-- What a form divides by: Direct Form I by nothing, the other forms by a0. -/
def storedScale (form : BqForm) (k : Coeffs) : ℚ := if form = .df1 then 1 else value k.a0

theorem storedCoeffs_roundedOver (form : BqForm) (hn : k.RoundedNumerator z c) (hd : k.RoundedDenominator c α) :
    (storedCoeffs nan form k).RoundedOver k (storedScale form k) := by
  have hquot (n : F32) {x : F32} (hx : fisfinite x = true) := rounded_fdiv n hx hd.plain_a0 hd.one_le_a0
  have hpos : 0 < value k.a0 := lt_of_lt_of_le one_pos (one_le_value hd.plain_a0 hd.one_le_a0)
  rw [storedCoeffs_eq_ite, storedScale]
  split
  · constructor <;> rw [div_one]
    all_goals exact Rounded.refl _
  · refine ⟨hquot _ hn.finite_b0, hquot _ hn.finite_b1, hquot _ (hn.b2_eq ▸ hn.finite_b0), ?_,
      hquot _ hd.finite_a1, hquot _ hd.finite_a2⟩
    rw [div_self hpos.ne']
    exact value_c1

theorem storedScale_bounds (form : BqForm) (hd : k.RoundedDenominator c α) :
    1 ≤ storedScale form k ∧ storedScale form k ≤ 2 * (1 + α) := by
  have hone := one_le_value hd.plain_a0 hd.one_le_a0
  have hα := hd.α_nonneg
  have hhigh := (le_abs_self _).trans hd.a0.abs_le
  rw [abs_of_nonneg (show 0 ≤ 1 + α by linarith)] at hhigh
  rw [storedScale]
  split <;> constructor <;> linarith

theorem Coeffs.RoundedOver.numerator_error (h : k'.RoundedOver k s) (hs : 0 < s) (hz : z = 1 ∨ z = -1) :
    |k'.numerator z - k.numerator z / s| ≤
      (|value k.b0| + |value k.b1| + |value k.b2|) / s / 2 ^ 24 + 3 / 2 ^ 150 := by
  have hb0 : |value k'.b0 - value k.b0 / s| ≤ |value k.b0 / s| / 2 ^ 24 + 1 / 2 / 2 ^ 149 := h.b0
  have hb1 : |z * value k'.b1 - z * (value k.b1 / s)| ≤ |z * (value k.b1 / s)| / 2 ^ 24 + 1 / 2 / 2 ^ 149 :=
    h.b1.mul_sign hz
  have hb2 : |value k'.b2 - value k.b2 / s| ≤ |value k.b2 / s| / 2 ^ 24 + 1 / 2 / 2 ^ 149 := h.b2
  rw [abs_mul z, abs_sign hz, one_mul] at hb1
  rw [abs_div, abs_of_pos hs] at hb0 hb1 hb2
  have hsplit : k'.numerator z - k.numerator z / s = (value k'.b0 - value k.b0 / s) +
      (z * value k'.b1 - z * (value k.b1 / s)) + (value k'.b2 - value k.b2 / s) := by
    rw [k'.numerator_sign hz, k.numerator_sign hz]
    ring
  have htri := abs_add_three (value k'.b0 - value k.b0 / s) (z * value k'.b1 - z * (value k.b1 / s))
    (value k'.b2 - value k.b2 / s)
  rw [← hsplit] at htri
  rw [add_div _ _ s, add_div _ _ s]
  linarith

theorem Coeffs.RoundedOver.denominator_error (h : k'.RoundedOver k s) (hs : 0 < s) (hz : z = 1 ∨ z = -1) :
    |k'.denominator z - k.denominator z / s| ≤ (|value k.a1| + |value k.a2|) / s / 2 ^ 24 + 2 / 2 ^ 150 := by
  have ha1 : |z * value k'.a1 - z * (value k.a1 / s)| ≤ |z * (value k.a1 / s)| / 2 ^ 24 + 1 / 2 / 2 ^ 149 :=
    h.a1.mul_sign hz
  have ha2 : |value k'.a2 - value k.a2 / s| ≤ |value k.a2 / s| / 2 ^ 24 + 1 / 2 / 2 ^ 149 := h.a2
  rw [abs_mul z, abs_sign hz, one_mul] at ha1
  rw [abs_div, abs_of_pos hs] at ha1 ha2
  have hsplit : k'.denominator z - k.denominator z / s =
      (z * value k'.a1 - z * (value k.a1 / s)) + (value k'.a2 - value k.a2 / s) := by
    rw [k'.denominator_sign hz, k.denominator_sign hz, h.a0]
    ring
  have htri := abs_add_le (z * value k'.a1 - z * (value k.a1 / s)) (value k'.a2 - value k.a2 / s)
  rw [← hsplit] at htri
  rw [add_div _ _ s]
  linarith

/-- The sizes of the raw coefficients whose rounding the quotients repeat. -/
theorem raw_sizes (hn : k.RoundedNumerator z c) (hd : k.RoundedDenominator c α) (hz : z = 1 ∨ z = -1) :
    |value k.b0| + |value k.b1| + |value k.b2| + (|value k.a1| + |value k.a2|) ≤ 15 / 2 * (1 + α) := by
  have hα := hd.α_nonneg
  have hzc : |z * c| ≤ 1 := by rw [abs_mul, abs_sign hz, one_mul]; exact hd.abs_c_le
  have hb0 : 2 * |value k.b0| = |value k.b1| := by
    have habs := congrArg abs hn.half
    rwa [abs_mul, abs_mul, abs_sign hz, one_mul, Nat.abs_ofNat] at habs
  have hb1 := hn.b1.abs_le
  have ha1 := hd.a1.abs_le
  have ha2 := hd.a2.abs_le
  have hdist : |1 - α| ≤ 1 + α := abs_le.mpr ⟨by linarith, by linarith⟩
  have hc := hd.abs_c_le
  have hcompl : |1 - z * c| ≤ 2 := by
    obtain ⟨hlow, hhigh⟩ := abs_le.mp hzc
    exact abs_le.mpr ⟨by linarith, by linarith⟩
  rw [abs_mul z, abs_sign hz, one_mul] at hb1
  rw [abs_mul, abs_neg, Nat.abs_ofNat] at ha1
  rw [hn.b2_eq]
  linarith

/-- How far the coefficients over `s` are from an exact pass: as far as the raw ones, and their own roundings. -/
theorem Coeffs.RoundedOver.pass_error (h : k'.RoundedOver k s) (hs : 0 < s) (hn : k.RoundedNumerator z c)
    (hd : k.RoundedDenominator c α) (hz : z = 1 ∨ z = -1) :
    |k'.numerator z - k'.denominator z| ≤ 31 / 2 / 2 ^ 24 * ((1 + α) / s) + 5 / 2 ^ 150 * (1 / s) + 5 / 2 ^ 150 := by
  have hnum := h.numerator_error hs hz
  have hden := h.denominator_error hs hz
  have hraw : |k.numerator z / s - k.denominator z / s| ≤ 8 / 2 ^ 24 * ((1 + α) / s) + 5 / 2 ^ 150 * (1 / s) := by
    rw [← sub_div, abs_div, abs_of_pos hs]
    refine (div_le_div_of_nonneg_right (passband_raw hn hd hz) hs.le).trans_eq ?_
    ring
  have hsizes := div_le_div_of_nonneg_right (raw_sizes hn hd hz) hs.le
  rw [add_div, mul_div_assoc] at hsizes
  have htri := abs_add_three (k'.numerator z - k.numerator z / s) (k.denominator z / s - k'.denominator z)
    (k.numerator z / s - k.denominator z / s)
  rw [abs_sub_comm (k.denominator z / s)] at htri
  have hsplit : k'.numerator z - k'.denominator z = k'.numerator z - k.numerator z / s +
      (k.denominator z / s - k'.denominator z) + (k.numerator z / s - k.denominator z / s) := by ring
  rw [hsplit]
  linarith

/-- The stored a0 is not far below `1 + α` over `s`. -/
theorem Coeffs.RoundedOver.le_a0 (h : k'.RoundedOver k s) (hs : 0 < s) (hd : k.RoundedDenominator c α) :
    (1 + α) / s - (1 + α) / s / 2 ^ 24 - 1 / 2 / 2 ^ 149 * (1 / s) ≤ value k'.a0 := by
  have hα := hd.α_nonneg
  have hlow : |value k.a0 - (1 + α)| ≤ |1 + α| / 2 ^ 24 + 1 / 2 / 2 ^ 149 := hd.a0
  rw [abs_of_nonneg (show 0 ≤ 1 + α by linarith), abs_le] at hlow
  have hle : 1 + α - (1 + α) / 2 ^ 24 - 1 / 2 / 2 ^ 149 ≤ value k.a0 := by linarith
  rw [h.a0]
  refine Eq.trans_le ?_ (div_le_div_of_nonneg_right hle hs.le)
  ring

/-- The stored coefficients pass `z`, but for 2^-20 of a0. -/
theorem passband_stored (form : BqForm) (hn : k.RoundedNumerator z c) (hd : k.RoundedDenominator c α)
    (hz : z = 1 ∨ z = -1) :
    |(storedCoeffs nan form k).numerator z - (storedCoeffs nan form k).denominator z| ≤
      value (storedCoeffs nan form k).a0 / 2 ^ 20 := by
  have hstored := storedCoeffs_roundedOver nan form hn hd
  obtain ⟨hs, hsle⟩ := storedScale_bounds form hd
  generalize storedCoeffs nan form k = k' at *
  generalize storedScale form k = s at *
  have hpos : 0 < s := by linarith
  have herr := hstored.pass_error hpos hn hd hz
  have ha0 := hstored.le_a0 hpos hd
  have hhalf : 1 / 2 ≤ (1 + α) / s := by
    rw [div_le_div_iff₀ two_pos hpos]
    linarith
  have hone : 1 / s ≤ 1 := (div_le_one hpos).mpr hs
  linarith

/-! ## The response at the frequency that is held back -/

/-- The numerator is zero there, but for one unit that the quotients of the other forms leave. -/
theorem stopband_stored (form : BqForm) (hn : k.RoundedNumerator z c) (hd : k.RoundedDenominator c α)
    (hz : z = 1 ∨ z = -1) : |(storedCoeffs nan form k).numerator (-z)| ≤ 1 / 2 ^ 148 := by
  have hpos : 0 < units k.a0 := pos_of_oneUnits_le hd.one_le_a0
  rw [Coeffs.numerator_sign _ (neg_sign hz), storedCoeffs_eq_ite]
  split
  · have hzero : value k.b0 + -z * value k.b1 + value k.b2 = 0 := by
      rw [hn.b2_eq]
      linarith [hn.half]
    rw [hzero, abs_zero]
    positivity
  · have hdouble := value_fdiv_double (nan 50) (nan 51) hn.finite_b0 hn.finite_b1 hd.plain_a0 hd.one_le_a0 hz hn.half
    have hsum : value (fdiv (nan 50) k.b0 k.a0) + -z * value (fdiv (nan 51) k.b1 k.a0) +
        value (fdiv (nan 52) k.b2 k.a0) =
        2 * value (fdiv (nan 50) k.b0 k.a0) - z * value (fdiv (nan 51) k.b1 k.a0) := by
      rw [hn.b2_eq, fdiv_congr (nan 52) (nan 50) hn.finite_b0 hd.plain_a0 hpos]
      ring
    rw [hsum]
    exact hdouble.trans (by norm_num)

/-! ## Steady signals (R193) -/

/-- At 0 Hz and at Nyquist the response is a quotient of two rational numbers. -/
theorem Coeffs.steady_ratCast (k : Coeffs) (hz : z = 1 ∨ z = -1) (x y : ℂ) :
    k.Steady (z : ℂ) x y ↔ y * (k.denominator z : ℚ) = x * (k.numerator z : ℚ) := by
  rcases hz with rfl | rfl
  · rw [Rat.cast_one]
    exact k.steady_zeroHz x y
  · rw [Rat.cast_neg, Rat.cast_one]
    exact k.steady_nyquist x y

theorem norm_ratCast_eq_abs (q : ℚ) : ‖(q : ℂ)‖ = |(q : ℝ)| := by
  rw [← Complex.ofReal_ratCast, Complex.norm_real, Real.norm_eq_abs]

/-- How a filter with a rounded numerator and denominator answers the two frequencies: it passes `z`, and holds `-z` back. -/
theorem steady_responses (form : BqForm) (hn : k.RoundedNumerator z c) (hd : k.RoundedDenominator c α)
    (hz : z = 1 ∨ z = -1) (x y : ℂ) :
    ((storedCoeffs nan form k).Steady (z : ℂ) x y →
      ‖y - x‖ * |((storedCoeffs nan form k).denominator z : ℝ)| ≤
        ‖x‖ * ((value (storedCoeffs nan form k).a0 : ℝ) / 2 ^ 20)) ∧
    ((storedCoeffs nan form k).Steady ((-z : ℚ) : ℂ) x y →
      ‖y‖ * |((storedCoeffs nan form k).denominator (-z) : ℝ)| ≤ ‖x‖ / 2 ^ 148) := by
  have hpass := passband_stored nan form hn hd hz
  have hstop := stopband_stored nan form hn hd hz
  generalize storedCoeffs nan form k = k' at *
  rw [k'.steady_ratCast hz, k'.steady_ratCast (neg_sign hz)]
  refine ⟨fun h => ?_, fun h => ?_⟩
  · have hdiff : (y - x) * (k'.denominator z : ℂ) = x * ((k'.numerator z - k'.denominator z : ℚ) : ℂ) := by
      rw [sub_mul, h, Rat.cast_sub, mul_sub]
    have hnorm := congrArg norm hdiff
    rw [norm_mul, norm_mul, norm_ratCast_eq_abs, norm_ratCast_eq_abs] at hnorm
    rw [hnorm]
    exact mul_le_mul_of_nonneg_left (by exact_mod_cast hpass) (norm_nonneg x)
  · have hstop' : |(k'.numerator (-z) : ℝ)| ≤ 1 / 2 ^ 148 := by simpa using (Rat.cast_le (K := ℝ)).mpr hstop
    have hnorm := congrArg norm h
    rw [norm_mul, norm_mul, norm_ratCast_eq_abs, norm_ratCast_eq_abs] at hnorm
    rw [hnorm, div_eq_mul_one_div ‖x‖]
    exact mul_le_mul_of_nonneg_left hstop' (norm_nonneg x)

/-! ## The all-pass filter -/

/-- The numerator of an APF is its denominator reversed, in every form. -/
theorem storedCoeffs_apf_reversed (form : BqForm) (hcs : lawL4 cs = true) (hf : fisfinite alpha = true)
    (h0 : fle c0 alpha = true) :
    (storedCoeffs nan form (rawApf nan cs alpha)).b0 = (storedCoeffs nan form (rawApf nan cs alpha)).a2 ∧
      (storedCoeffs nan form (rawApf nan cs alpha)).b1 = (storedCoeffs nan form (rawApf nan cs alpha)).a1 ∧
      (storedCoeffs nan form (rawApf nan cs alpha)).b2 = (storedCoeffs nan form (rawApf nan cs alpha)).a0 := by
  have hc := plain_c1.2
  have hd : (rawApf nan cs alpha).RoundedDenominator (value cs) (value alpha) :=
    withPlainDenominator_rounded nan hcs hf h0 _ _ _
  have hpos : 0 < units (rawApf nan cs alpha).a0 := pos_of_oneUnits_le hd.one_le_a0
  have hb0 : (rawApf nan cs alpha).b0 = (rawApf nan cs alpha).a2 :=
    (fsub_eq_fadd (nan 13) c0 hc hf).trans (fsub_eq_fadd (nan 12) c0 hc hf).symm
  have hb1 : (rawApf nan cs alpha).b1 = (rawApf nan cs alpha).a1 := by
    obtain ⟨hcf, -⟩ := (lawL4_iff cs).mp hcs
    exact (fmul_of_finite (nan 14) (by decide) hcf).trans (fmul_of_finite (nan 11) (by decide) hcf).symm
  have hb2 : (rawApf nan cs alpha).b2 = (rawApf nan cs alpha).a0 := fadd_congr (nan 15) (nan 10) hc hf
  generalize rawApf nan cs alpha = k at *
  rw [storedCoeffs_eq_ite]
  split
  · exact ⟨hb0, hb1, hb2⟩
  · rw [hb0, hb1, hb2]
    exact ⟨fdiv_congr _ _ hd.finite_a2 hd.plain_a0 hpos, fdiv_congr _ _ hd.finite_a1 hd.plain_a0 hpos,
      fdiv_self _ hd.plain_a0 hpos⟩

/-- On the unit circle a polynomial and its reverse have one magnitude: the reverse is `w ^ 2` times the conjugate. -/
theorem norm_reversed (a0 a1 a2 : ℚ) {w : ℂ} (hw : ‖w‖ = 1) :
    ‖(a2 * w ^ 2 + a1 * w + a0 : ℂ)‖ = ‖(a0 * w ^ 2 + a1 * w + a2 : ℂ)‖ := by
  have hconj : w * (starRingEnd ℂ) w = 1 := by
    rw [Complex.mul_conj, Complex.normSq_eq_norm_sq, hw, one_pow, Complex.ofReal_one]
  have hrev : (a2 * w ^ 2 + a1 * w + a0 : ℂ) = w ^ 2 * (starRingEnd ℂ) (a0 * w ^ 2 + a1 * w + a2) := by
    simp only [map_add, map_mul, map_pow, map_ratCast]
    linear_combination (-(a1 : ℂ) * w - a0 * (1 + w * (starRingEnd ℂ) w)) * hconj
  rw [hrev, norm_mul, norm_pow, hw, one_pow, one_mul, Complex.norm_conj]

/-- A filter whose numerator is its denominator reversed keeps the magnitude of every steady input. -/
theorem Coeffs.norm_eq_of_reversed (hrev : k.b0 = k.a2 ∧ k.b1 = k.a1 ∧ k.b2 = k.a0) {w x y : ℂ} (hw : ‖w‖ = 1)
    (hne : (value k.a0 * w ^ 2 + value k.a1 * w + value k.a2 : ℂ) ≠ 0) (h : k.Steady w x y) : ‖y‖ = ‖x‖ := by
  obtain ⟨hb0, hb1, hb2⟩ := hrev
  have hw0 : w ≠ 0 := norm_ne_zero_iff.mp (hw ▸ one_ne_zero)
  have hnorm := congrArg norm ((k.steady_iff hw0 x y).mp h)
  rw [hb0, hb1, hb2, norm_mul, norm_mul, norm_reversed (value k.a0) (value k.a1) (value k.a2) hw] at hnorm
  exact mul_right_cancel₀ (norm_ne_zero_iff.mpr hne) hnorm

end Sys2Proof.Machine

namespace Sys2Proof
open Machine

/-- Settles O47: the set at +0.0 Hz by law L2 (`State.newCoeffs_zeroHz`), the responses of LPF and HPF by
`steady_responses` at 1 and -1, and those of APF by the reversed numerator. -/
theorem zeroFrequencyAndResponses : Obligations.ZeroFrequencyAndResponses := by
  refine ⟨fun s hF hQ hQpos hsr hsrpos hpeak hlow hhigh => ?_, fun nan form cs alpha g hcs hf h0 => ?_⟩
  · have hnew (nan) := s.newCoeffs_zeroHz nan hF hQ hQpos hsr hsrpos hpeak hlow hhigh
    refine ⟨hnew, ?_⟩
    obtain ⟨hzeros, hones⟩ := zeroHz_acceptable s.bqForm
    rw [State.updateSucceeds, hnew]
    split
    · rw [hzeros, Bool.and_true]
    · rw [hones, Bool.and_true]
  · intro lpf hpf apf
    have hlpf := steady_responses nan form (rawLpf_rounded nan alpha hcs)
      (withPlainDenominator_rounded nan hcs hf h0 _ _ _) (.inl rfl)
    have hhpf := steady_responses nan form (rawHpf_rounded nan alpha hcs)
      (withPlainDenominator_rounded nan hcs hf h0 _ _ _) (.inr rfl)
    have hrev := storedCoeffs_apf_reversed nan form hcs hf h0
    rw [neg_neg] at hhpf
    push_cast at hlpf hhpf
    exact ⟨fun x y => (hlpf x y).1, fun x y => (hlpf x y).2, fun x y => (hhpf x y).1, fun x y => (hhpf x y).2, hrev,
      fun w x y hw hne h => Coeffs.norm_eq_of_reversed hrev hw hne h⟩

end Sys2Proof
end

section
/-!
The nested all-pass engine (45_nested_apf.md R213, O54): a step from its checks on, and the first response from cleared
memory.
-/
namespace Sys2Proof.Machine

variable (n : F32) {g x z : F32} {s : State} {ch : BitVec 8}

/-! ## A zero product and a sum with it -/

/-- A product of finite factors does not depend on their order. -/
theorem fmul_comm_of_finite {a b : F32} (ha : fisfinite a = true) (hb : fisfinite b = true) : fmul n a b = fmul n b a := by
  rw [fmul_of_finite n ha hb, fmul_of_finite n hb ha, Nat.mul_comm, bne_comm]

/-- A gain times cleared memory is a zero, of either sign. -/
theorem fmul_c0_zero (hg : fisfinite g = true) : fisfinite (fmul n g c0) = true ∧ signedUnits (fmul n g c0) = 0 := by
  have hc : fisfinite c0 = true := plain_c0.2
  have hweight : units c0 ≤ oneUnits := by decide +kernel
  rw [fmul_comm_of_finite n hg hc]
  exact ⟨finite_fmul_of_weight n hc hg hweight, signedUnits_fmul_c0 n hg⟩

/-- A zero of either sign is neutral in a sum: the result has the value of the other term, though maybe not the sign of
its zero. -/
theorem feq_fadd_zero (hz : fisfinite z = true) (hz0 : signedUnits z = 0) (hx : fisfinite x = true) :
    feq (fadd n z x) x = true := by
  have hself : magUnits (roundUnits (signedUnits x).natAbs 1) = (signedUnits x).natAbs := by
    rw [← Int.natAbs_neg, natAbs_neg_signedUnits, roundUnits_units hx, units_eq]
  have hvalue : signedUnits (fadd n z x) = signedUnits x := by
    rw [fadd_of_finite n hz hx, hz0, Int.zero_add, signedUnits_ofUnits _ hself]
  simp only [feq, isNaN_fadd n hz hx, isNaN_of_finite hx, hvalue, decide_true, Bool.not_false, Bool.and_self]

/-! ## NAPF_STEP (R213) -/

/-- `NAPF_STEP` past its checks: the new memory and the answer, both of the memory before. -/
theorem exec_napfStep (x : F32) (h : s.ChannelReady ch) : exec (.napfStep ch x) s =
    .next ((s.setChan ch (napfMemory s.nan s.g1 s.g2 (s.chan ch) x)).finish 0x52#8 ch .ok
      (fadd (s.nan 4) (napfFeedback s.nan s.g2 (s.chan ch)) x)) :=
  State.checked_pass (.napfStep ch x) _ h.prepared nofun fun _ => h.channel

end Sys2Proof.Machine

namespace Sys2Proof
open Machine

/-- Settles O54: the step by `exec_napfStep` and the frame of a write to one channel, the first response because the
product with cleared memory is a zero. -/
theorem napfStep : Obligations.NapfStep :=
  ⟨fun _ x s h => ⟨s.nan, _, s.nan_nanSource, exec_napfStep x h, State.setChan_finish h _ _ _ _⟩,
    fun nan _ _ hg hx =>
      have ⟨hfinite, hzero⟩ := fmul_c0_zero (nan 0) hg
      feq_fadd_zero (nan 1) hfinite hzero hx⟩

end Sys2Proof
end

section
/-!
The error mechanism (60_exceptions.md R221 to R234): the common checks as they fail, command by command, and what an
error, a success and an illegal word leave behind.
-/
namespace Sys2Proof

/-! ## Which command makes which check (R228, R229) -/

/-- The commands without the check `NotPrepared` are the four of R228. -/
theorem Instr.needsPrepare_of_ne {i : Instr} (hnop : i ≠ .nop) (hprepare : ∀ n rate, i ≠ .prepare n rate)
    (hrdreg : ∀ ch reg, i ≠ .rdreg ch reg) (hclrerr : i ≠ .clrerr) : i.needsPrepare = true := by
  cases i with
  | nop => exact absurd rfl hnop
  | prepare n rate => exact absurd rfl (hprepare n rate)
  | rdreg ch reg => exact absurd rfl (hrdreg ch reg)
  | clrerr => exact absurd rfl hclrerr
  | _ => rfl

/-- The commands with the check `NotConfigured` are the eight of R229. -/
theorem Instr.needsLine_iff_opcode (i : Instr) : i.needsLine = true ↔
    i.opcode ∈ [0x11#8, 0x12#8, 0x15#8, 0x16#8, 0x17#8, 0x18#8, 0x25#8, 0x31#8] := by
  cases i with
  | dlSetDelay | dlSetDelayBpm | dlPush | dlPop | dlStep | dlPeek | mdStep | psStep =>
    exact iff_of_true rfl (by simp [Instr.opcode])
  | _ => exact iff_of_false nofun (by simp [Instr.opcode])

theorem Instr.needsPrepare_of_needsLine {i : Instr} (h : i.needsLine = true) : i.needsPrepare = true := by
  cases i with
  | nop | prepare | rdreg | clrerr => cases h
  | _ => rfl

/-- The one command with a channel operand that does not test `PREPARED`. -/
theorem Instr.eq_rdreg_of_hasChannel {i : Instr} (hchannel : i.hasChannel = true) (h : i.needsPrepare = false) :
    ∃ ch r, i = .rdreg ch (.channel r) := by
  cases i with
  | rdreg ch reg =>
    cases reg with
    | global r => cases hchannel
    | channel r => exact ⟨ch, r, rfl⟩
  | nop | prepare | clrerr => cases hchannel
  | _ => cases h

end Sys2Proof

namespace Sys2Proof.Machine

variable {s : State} {i : Instr}

/-- A command that tests `PREPARED` makes the common checks that its kind asks for, before anything else (R232). -/
theorem exec_eq_checked (s : State) (h : i.needsPrepare = true) :
    ∃ body, exec i s = s.checked i i.needsLine i.hasChannel i.failValue body := by
  cases i with
  | nop | prepare | rdreg | clrerr => cases h
  | _ => exact ⟨_, rfl⟩

/-! ## The common checks as they fail (R228 to R230) -/

theorem exec_notPrepared (h : i.needsPrepare = true) (hp : s.prepared = false) :
    exec i s = .next (s.finish i.opcode i.channel .notPrepared i.failValue) := by
  obtain ⟨body, hexec⟩ := exec_eq_checked s h
  rcases s.checked_cases (v := i.failValue) i i.needsLine i.hasChannel body with
    ⟨-, hfails⟩ | ⟨hp', -⟩ | ⟨hp', -⟩ | ⟨hp', -⟩
  · exact hexec.trans hfails
  all_goals cases hp.symm.trans hp'

theorem exec_notConfigured (h : i.needsLine = true) (hp : s.prepared = true) (hconf : s.dlConf = false) :
    exec i s = .next (s.finish i.opcode i.channel .notConfigured i.failValue) := by
  obtain ⟨body, hexec⟩ := exec_eq_checked s (Instr.needsPrepare_of_needsLine h)
  rcases s.checked_cases (v := i.failValue) i i.needsLine i.hasChannel body with
    ⟨hp', -⟩ | ⟨-, -, -, hfails⟩ | ⟨-, hline, -⟩ | ⟨-, hline, -⟩
  · cases hp.symm.trans hp'
  · exact hexec.trans hfails
  all_goals cases hconf.symm.trans (hline h)

theorem exec_badChannel (h : i.needsPrepare = true) (hchannel : i.hasChannel = true) (hp : s.prepared = true)
    (hline : i.needsLine = true → s.dlConf = true) (hch : s.nch ≤ i.channel.toNat) :
    exec i s = .next (s.finish i.opcode i.channel .badChannel i.failValue) := by
  obtain ⟨body, hexec⟩ := exec_eq_checked s h
  rcases s.checked_cases (v := i.failValue) i i.needsLine i.hasChannel body with
    ⟨hp', -⟩ | ⟨-, hneeds, hconf, -⟩ | ⟨-, -, -, -, hfails⟩ | ⟨-, -, hlt, -⟩
  · cases hp.symm.trans hp'
  · cases hconf.symm.trans (hline hneeds)
  · exact hexec.trans hfails
  · exact absurd (hlt hchannel) hch.not_gt

/-- `RDREG` of a register of a channel tests the channel and nothing else (40_lifecycle.md R102). -/
theorem exec_rdreg_badChannel {ch : BitVec 8} (r : ChannelReg) (hch : s.nch ≤ ch.toNat) :
    exec (.rdreg ch (.channel r)) s = .next (s.finish 0x02#8 ch .badChannel 0#32) := by
  rw [exec_rdreg_channel, if_neg hch.not_gt]

/-! ## The error registers (R222) -/

theorem errFlagsAfter_error (flags : BitVec 32) {c : Cause} (h : c ≠ .ok) :
    errFlagsAfter flags c = flags ||| (1#32 <<< c.code.toNat) := by
  cases c with
  | ok => exact absurd rfl h
  | _ => rfl

/-- Two bytes side by side, and as `(OPC << 8) or c` writes them. -/
theorem append_bytes_eq_or (opc code : BitVec 8) :
    (0#16 ++ opc ++ code : BitVec 32) = (opc.zeroExtend 32 <<< 8) ||| code.zeroExtend 32 := by
  have hopc : (opc.zeroExtend 32 <<< 8).toNat = opc.toNat <<< 8 := by
    rw [BitVec.toNat_shiftLeft, BitVec.toNat_setWidth_of_le (by decide), Nat.shiftLeft_eq, Nat.mod_eq_of_lt (by omega)]
  apply BitVec.eq_of_toNat_eq
  rw [errLast_toNat, BitVec.toNat_or, hopc, BitVec.toNat_setWidth_of_le (by decide),
    ← Nat.shiftLeft_add_eq_or_of_lt code.isLt, Nat.shiftLeft_eq]

theorem errLastAfter_error (last : BitVec 32) (opc : BitVec 8) {c : Cause} (h : c ≠ .ok) :
    errLastAfter last opc c = (opc.zeroExtend 32 <<< 8) ||| c.code.zeroExtend 32 := by
  cases c with
  | ok => exact absurd rfl h
  | _ => exact append_bytes_eq_or opc _

/-! ## A failing step answers its sample (R234) -/

/-- A result that is the end of a command after writes that emit nothing, with the sample as the answer of a cause. -/
def EndsWithSample (i : Instr) (s : State) (x : F32) (r : Result) : Prop :=
  ∃ (u : State) (c : Cause) (v : BitVec 32), r = .next (u.finish i.opcode i.channel c v) ∧ u.rspOut = s.rspOut ∧
    (c = .ok ∨ 3 ≤ c.code.toNat ∧ c.code.toNat ≤ 8 ∧ v = x)

variable {u : State} {x : F32}

theorem endsWithSample_respond (v : BitVec 32) (h : u.rspOut = s.rspOut) : EndsWithSample i s x (u.respond i v) :=
  ⟨u, .ok, v, rfl, h, .inl rfl⟩

theorem endsWithSample_raise {c : Cause} (hlow : 3 ≤ c.code.toNat) (hhigh : c.code.toNat ≤ 8)
    (h : u.rspOut = s.rspOut) : EndsWithSample i s x (u.raise i c x) :=
  ⟨u, c, x, rfl, h, .inr ⟨hlow, hhigh, rfl⟩⟩

theorem endsWithSample_ite {p : Prop} [Decidable p] {a b : Result} (ha : EndsWithSample i s x a)
    (hb : EndsWithSample i s x b) : EndsWithSample i s x (if p then a else b) := by
  split <;> assumption

theorem endsWithSample_checked {needsLine hasChannel : Bool} {body : Result} (h : EndsWithSample i s x body) :
    EndsWithSample i s x (s.checked i needsLine hasChannel x body) :=
  endsWithSample_ite (endsWithSample_raise (by decide) (by decide) rfl) <|
    endsWithSample_ite (endsWithSample_raise (by decide) (by decide) rfl) <|
      endsWithSample_ite (endsWithSample_raise (by decide) (by decide) rfl) h

/-- A command with a sample operand ends with the sample as the answer of a cause: the checks, the two delays out of
range, and the bypass of the biquad. -/
theorem exec_endsWithSample (s : State) (hx : i.sample = some x) : EndsWithSample i s x (exec i s) := by
  cases i with
  | dlPush | dlStep | napfStep =>
    cases hx
    exact endsWithSample_checked (endsWithSample_respond _ rfl)
  | mdStep | psStep =>
    cases hx
    exact endsWithSample_checked (endsWithSample_ite (endsWithSample_respond _ rfl)
      (endsWithSample_raise (by decide) (by decide) rfl))
  | bqStep =>
    cases hx
    exact endsWithSample_checked (endsWithSample_ite (endsWithSample_raise (by decide) (by decide) rfl)
      (endsWithSample_respond _ rfl))
  | _ => cases hx

end Sys2Proof.Machine

namespace Sys2Proof
open Machine

/-- Settles O7: by the table of O5 (`legalWords`) the decoder refuses the word. -/
theorem illegalWordAnswered : Obligations.IllegalWordAnswered := by
  intro s w rest hc hillegal
  obtain ⟨hlegal, -, -⟩ := legalWords
  cases hd : decode w with
  | error e => exact step_of_decode_error hc hd
  | ok i =>
    obtain ⟨⟨r, hr, hmatch⟩, hbeyond⟩ := (hlegal w).mp ⟨i, hd⟩
    rcases hillegal with hnone | hcase
    · cases hmatch.symm.trans (hnone r hr)
    · cases hcase.symm.trans hbeyond

/-- Settles O11: a command ends by `finish` over the error registers as they were (`exec_ends`); `CLRERR`, which clears
them, never ends with an error. -/
theorem errorRegisters : Obligations.ErrorRegisters := by
  refine ⟨by decide, fun i s => ?_⟩
  by_cases hi : i = .clrerr
  · subst hi
    exact ⟨_, .ok, s.errFlags, rfl, rfl, fun h => absurd rfl h, fun _ h => absurd rfl h⟩
  · obtain ⟨u, c, v, hexec, hkeeps, herr⟩ := exec_ends i s
    obtain ⟨hflags, hlast⟩ := herr (by simpa using hi)
    refine ⟨_, c, v, hexec, ?_, fun hc => ?_, fun hc _ => ?_⟩
    · rw [State.finish_rspOut, hkeeps.rspOut, responseWord]
    · rw [State.finish_errFlags, State.finish_errLast, errFlagsAfter_error _ hc, errLastAfter_error _ _ hc, hflags]
      exact ⟨rfl, rfl⟩
    · subst hc
      exact ⟨hflags, hlast⟩

/-- Settles O12, by `exec_notPrepared`. -/
theorem notPrepared : Obligations.NotPrepared := fun _ _ hnop hprepare hrdreg hclrerr hp =>
  exec_notPrepared (Instr.needsPrepare_of_ne hnop hprepare hrdreg hclrerr) hp

/-- Settles O13, by `exec_notConfigured`. -/
theorem notConfigured : Obligations.NotConfigured := fun i _ hopc hp hconf =>
  exec_notConfigured (i.needsLine_iff_opcode.mpr hopc) hp hconf

/-- Settles O14: `RDREG` makes this check alone, every other command with a channel after the two before it. -/
theorem badChannel : Obligations.BadChannel := by
  refine ⟨fun i s hchannel hprepared hline hch => ?_, fun _ _ => rfl⟩
  cases hneeds : i.needsPrepare with
  | true => exact exec_badChannel hneeds hchannel (hprepared hneeds) hline hch
  | false =>
    obtain ⟨ch, r, rfl⟩ : ∃ ch r, i = .rdreg ch (.channel r) := Instr.eq_rdreg_of_hasChannel hchannel hneeds
    exact exec_rdreg_badChannel r hch

/-- Settles O15: `exec_endsWithSample`, and the response of an illegal word. -/
theorem identityPass : Obligations.IdentityPass := by
  refine ⟨fun i s x hx => ?_, fun s w rest e hc hd => ?_⟩
  · obtain ⟨u, c, v, hexec, hrsp, hcause⟩ := exec_endsWithSample s hx
    exact ⟨_, c, v, hexec, by rw [State.finish_rspOut, hrsp], hcause⟩
  · obtain ⟨-, -, -, hcause, hval⟩ := responseWord_fields (opcField w) (chField w) .illegalCommand 0#32
    exact ⟨_, _, step_of_decode_error hc hd, rfl, hcause, hval⟩

end Sys2Proof
end

section
/-!
A run over the waiting words (70_reset_and_hazards.md R254, R255): each step answers the first of them, the rest of the
run the others.
-/
namespace Sys2Proof
open Machine

/-- Settles O9, by induction over the waiting words: `everyWordAnswered` is the step. -/
theorem runAnswersEveryWord : Obligations.RunAnswersEveryWord := by
  intro s
  generalize hwaiting : s.cmdIn = ws
  induction ws generalizing s with
  | nil => exact ⟨s, [], rfl, hwaiting, (List.append_nil _).symm, .nil⟩
  | cons w ws ih =>
    obtain ⟨t, r, hstep, hrest, hrsp, hanswers, -⟩ := everyWordAnswered s w ws hwaiting
    obtain ⟨t', rs, hrun, hnone, hrsp', hall⟩ := ih t hrest
    have hresponses : t'.rspOut = s.rspOut ++ r :: rs := by rw [hrsp', hrsp, List.append_assoc, List.singleton_append]
    exact ⟨t', r :: rs, (run_succ hstep).trans hrun, hnone, hresponses, .cons hanswers hall⟩

end Sys2Proof
end
